-- ==== Sys2Proof/Word.lean ====
section
/-! DEFINITION. The bit-vector types of the block: bytes, 16-bit words, 9-bit bus cycles (00_scope R10, 30_encoding R71). -/

namespace Sys2Proof

/-- An opcode, parameter or data byte (R10). -/
abbrev Byte := BitVec 8

/-- A coordinate, dimension or pixel word: the u16 of R10. -/
abbrev U16 := BitVec 16

/-- One bus cycle in the 9-bit format of R71: bit 8 is the command/data select, bits 7..0 the byte. -/
abbrev CycleWord := BitVec 9

end Sys2Proof
end

