-- ==== Sys2Proof/Syntax.lean ====
section
/-! DEFINITION. The instructions: one constructor for each row of spec/opcode_table.json, with the argument types of
40_transport to 44_drawing_adapter (30_encoding R70), and what the host writes to ask for one: a bus cycle (R71) or a
line of the assembler (R85). -/

namespace Sys2Proof

/-- A logic level (00_scope R12). -/
inductive Level where
  | low
  | high
  deriving DecidableEq, Repr

/-- The opposite level. -/
def Level.not : Level → Level
  | .low => .high
  | .high => .low

/-- The opcode enumeration of 30_encoding R73, in the order of its table in R74. -/
inductive Opcode where
  | nop | swreset | slpin | slpout | invoff | invon | dispoff | dispon
  | caset | paset | ramwr | ramrd | madctl | idmoff | idmon | colmod
  | wrdisbv | invctr | pwctrl1 | pwctrl2 | pwctrl3 | vmctrl1
  | pgamctrl | ngamctrl | dgamctrl
  deriving DecidableEq, Repr

/-- The four orientations (10_state R22). -/
inductive Orientation where
  | portrait
  | landscape
  | portraitUpsideDown
  | landscapeUpsideDown
  deriving DecidableEq, Repr

/-- The two orientation classes (00_scope R15). -/
inductive OrientationClass where
  | portraitClass
  | landscapeClass
  deriving DecidableEq, Repr

/-- The pixel formats (10_state R23). -/
inductive PixelFormat where
  | rgb565
  | rgb666
  deriving DecidableEq, Repr

/-- The two bus transports (00_scope R9, 40_transport R100). -/
inductive Transport where
  | parallel8
  | serial
  deriving DecidableEq, Repr

/-- A value of the graphics collaborator's colour type (44_drawing_adapter R210), known to the block only by a number
that tells it from the others. -/
structure Color where
  code : Nat
  deriving DecidableEq, Repr

/-- One pair of a drawing request: integer coordinates, possibly negative, and a colour (44_drawing_adapter R210). -/
structure DrawPixel where
  x : Int
  y : Int
  color : Color
  deriving DecidableEq, Repr

/-- An entry of the Initialization Table, as the tagged variant of 30_encoding R81. -/
inductive InitEntry where
  | cmd (op : Opcode) (params : List Byte)
  | delay (ms : Nat)
  deriving DecidableEq, Repr

/-- The instructions, one constructor for each row of spec/opcode_table.json, in the table's order. -/
inductive Instr where
  -- the wire commands, 45_wire_commands R230 to R254
  | nop
  | swreset
  | slpin
  | slpout
  | invoff
  | invon
  | invctr
  | dispoff
  | dispon
  | caset
  | paset
  | ramwr
  | ramrd
  | madctl
  | idmoff
  | idmon
  | colmod
  | wrdisbv
  | pwctrl1
  | pwctrl2
  | pwctrl3
  | vmctrl1
  | pgamctrl
  | ngamctrl
  | dgamctrl
  -- the data cycle, 30_encoding R71
  | data (b : Byte)
  -- the Bus Transport, 40_transport R101 to R105
  | writeCommand (op : Byte)
  | writeData (bytes : List Byte)
  | writeData16be (words : List U16)
  | readStatus
  | readData
  -- construction, control lines and bring-up, 41_control_and_init R130 to R135
  | new (transport : Transport)
  | assertReset
  | deassertReset
  | enable
  | disable
  | init
  -- commands, window and pixels, 42_window_and_pixels R160 to R167
  | sendCommand (op : Opcode)
  | sendData (bytes : List Byte)
  | setWindow (x0 y0 x1 y1 : U16)
  | writePixels (words : List U16)
  | fill (color : U16)
  -- Configuration, 43_configuration R190 to R198
  | setPixelFormat (format : PixelFormat)
  | setOrientation (orientation : Orientation)
  | setBrightness (level : Byte)
  | width
  | height
  | orientation
  -- the Drawing Adapter, 44_drawing_adapter R212 and R214
  | drawIter (pixels : List DrawPixel)
  | size
  -- the two init entries as the sequencer runs them, 41_control_and_init R137
  | initCmd (op : Opcode) (params : List Byte)
  | initDelay (ms : Nat)
  deriving DecidableEq, Repr

/-- An argument of an assembler line (30_encoding R85). -/
inductive AsmArg where
  /-- a number, decimal or hexadecimal -/
  | num (n : Int)
  /-- an opcode mnemonic, an orientation, a format or a transport, by name -/
  | name (s : String)
  /-- a list of numbers in brackets -/
  | nums (l : List Int)
  /-- a repeated word: the value and how often -/
  | rep (value count : Int)
  /-- a draw list: coordinates and the colour's number -/
  | pixels (l : List (Int × Int × Int))
  deriving DecidableEq, Repr

/-- An assembler line of R85: a mnemonic and its arguments. -/
structure AsmLine where
  op : String
  args : List AsmArg
  deriving DecidableEq, Repr

/-- What the host hands the block to ask for one instruction: a bus cycle in the format of R71, an assembler line of
R85, or such a line as the text it is written in. -/
inductive Request where
  | cycle (w : CycleWord)
  | line (l : AsmLine)
  | text (s : String)
  deriving DecidableEq, Repr

end Sys2Proof
end

