-- ==== Sys2Proof/Config.lean ====
section
/-! DEFINITION. The parameters of the model (00_scope R9, 46_panel_reference R270) as plain data, and the free values:
constants with no body, of which nothing can be proved. -/

namespace Sys2Proof

/-- OPCODE_BYTE as data: the command byte of each member of the enumeration (30_encoding R74). -/
structure OpcodeBytes where
  nop : Byte
  swreset : Byte
  slpin : Byte
  slpout : Byte
  invoff : Byte
  invon : Byte
  dispoff : Byte
  dispon : Byte
  caset : Byte
  paset : Byte
  ramwr : Byte
  ramrd : Byte
  madctl : Byte
  idmoff : Byte
  idmon : Byte
  colmod : Byte
  wrdisbv : Byte
  invctr : Byte
  pwctrl1 : Byte
  pwctrl2 : Byte
  pwctrl3 : Byte
  vmctrl1 : Byte
  pgamctrl : Byte
  ngamctrl : Byte
  dgamctrl : Byte
  deriving DecidableEq, Repr

/-- CLIP_BOUNDS (44_drawing_adapter R211). -/
inductive ClipBounds where
  | logical
  | physical
  deriving DecidableEq, Repr

/-- READ_MODE (40_transport R104 to R106). -/
inductive ReadMode where
  | stub
  | wired
  deriving DecidableEq, Repr

/-- RAMWR_OVERFLOW (46_panel_reference R278). -/
inductive Overflow where
  | anyValue
  | wrap
  | ignore
  deriving DecidableEq, Repr

/-- A bijection of an initial segment of the natural numbers, written as the transpositions it is the product of, first
one first. Every bijection of a finite set is such a product, so the type holds every admissible one. -/
abbrev Swaps := List (Nat × Nat)

/-- The model's parameters. They are arguments of the model, not state of the block (R9): `State` carries them and no
operation writes them, so that every claim about a state holds for every value of them. -/
structure Params where
  /-- OPCODE_BYTE, R74 -/
  opcodes : OpcodeBytes
  /-- DC_CMD_LEVEL, R71 -/
  dcCmdLevel : Level
  /-- RESET_PULSE_MS, 41_control_and_init R135 -/
  resetPulseMs : Nat
  /-- RESET_SETTLE_MS, 41_control_and_init R135 -/
  resetSettleMs : Nat
  /-- INIT_TABLE, 41_control_and_init R138 -/
  initTable : List InitEntry
  /-- DELAY_SENTINEL, 30_encoding R75, R81: never placed on the bus -/
  delaySentinel : Byte
  /-- CLIP_BOUNDS, 44_drawing_adapter R211 -/
  clipBounds : ClipBounds
  /-- READ_MODE, 40_transport R104 to R106 -/
  readMode : ReadMode
  /-- the order of the eight data-line drives of a cycle, which 40_transport R110 leaves unspecified -/
  dataOrder : Swaps
  /-- RAMWR_OVERFLOW, 46_panel_reference R278 -/
  overflow : Overflow
  /-- MADCTL_MAP(0x40), 46_panel_reference R279 -/
  map40 : Swaps
  /-- MADCTL_MAP(0x90) -/
  map90 : Swaps
  /-- MADCTL_MAP(0x20) -/
  map20 : Swaps
  /-- MADCTL_MAP(0xF4) -/
  mapF4 : Swaps
  deriving DecidableEq, Repr

/-- The registers of the panel that the interpretation tracks (46_panel_reference R272), the display memory apart. R272 gives
the window's bounds 16 bits and the memory-write pointer no width; that the pointer is a pair of natural numbers, which never
wrap, is the model's choice (DESIGN CHOICE, log entry 40; unsafe for a claim about a pointer past row 65535). -/
structure PanelRegs where
  /-- first and last column of the window -/
  sc : U16
  ec : U16
  /-- first and last row (page) of the window -/
  sp : U16
  ep : U16
  /-- the memory-access-control byte M -/
  madctl : Byte
  /-- the pixel-format byte F -/
  colmod : Byte
  /-- the open frame: the last received command byte -/
  frameOp : Byte
  /-- the open frame: how many data bytes were received since -/
  frameCount : Nat
  /-- the parameter bytes of an open window frame received so far (R274) -/
  params : List Byte
  /-- the memory-write pointer: column and row (log entry 40) -/
  pc : Nat
  pr : Nat
  /-- the first byte of a pixel whose second has not come yet (R276) -/
  pairHi : Option Byte
  deriving DecidableEq, Repr, Inhabited

namespace Config

/-- FREE VALUE: the panel's registers wherever the spec says that they hold any value (46_panel_reference R272, R274,
R275, R276), one for each number. Log entry 19. -/
opaque freePanel : Nat → PanelRegs

/-- FREE VALUE: PANEL_RESET_STATE (46_panel_reference R270), the panel's registers before anything happened. Log
entry 19. -/
opaque panelResetState : PanelRegs

/-- FREE VALUE: whether the panel receives a cycle when chip-select is Unknown (46_panel_reference R271). Log entry 21. -/
opaque freeReceived : Nat → Bool

/-- FREE VALUE: toRaw16 (44_drawing_adapter R213), of which the block assumes nothing. Log entry 27. -/
opaque toRaw16 : Color → U16

/-- FREE VALUE: the Initialization Table of the target chip (41_control_and_init R138), before the constraints of that
rule are put on it. Log entry 5. -/
opaque rawInitTable : List InitEntry

/-- FREE VALUE: the delay sentinel (30_encoding R81), before the constraint of R75 is put on it. Log entry 5. -/
opaque rawDelaySentinel : Byte

/-- FREE VALUE: MADCTL_MAP(0x40). Log entry 28. -/
opaque map40 : Swaps

/-- FREE VALUE: MADCTL_MAP(0x90). Log entry 28. -/
opaque map90 : Swaps

/-- FREE VALUE: MADCTL_MAP(0x20). Log entry 28. -/
opaque map20 : Swaps

/-- FREE VALUE: MADCTL_MAP(0xF4). Log entry 28. -/
opaque mapF4 : Swaps

end Config

end Sys2Proof
end

