-- ==== Sys2Proof/Decode.lean ====
section
/-! DEFINITION. Decoding and encoding: the 9-bit bus cycle of 30_encoding R71 with the opcode map of R74, and the
assembler line of R85, as tokens and as text. Decoding is total and rejects by name. -/

namespace Sys2Proof

/-- Why a request of the host names no instruction. -/
inductive DecodeError where
  /-- the mnemonic is that of no operation of 00_scope R2 -/
  | unknownMnemonic
  /-- the arguments are not of the number or the kind the operation takes -/
  | wrongArguments
  /-- a number does not fit the argument's type (R10) -/
  | outOfRange
  /-- a name is that of no opcode, orientation, format or transport -/
  | unknownName
  /-- the text is no line of R85 -/
  | notALine
  deriving DecidableEq, Repr

/-! ## The opcode map -/

/-- The members of the enumeration (R73). -/
def Opcode.all : List Opcode :=
  [.nop, .swreset, .slpin, .slpout, .invoff, .invon, .dispoff, .dispon] ++
  [.caset, .paset, .ramwr, .ramrd, .madctl, .idmoff, .idmon, .colmod] ++
  [.wrdisbv, .invctr, .pwctrl1, .pwctrl2, .pwctrl3, .vmctrl1, .pgamctrl, .ngamctrl, .dgamctrl]

/-- `B(m)` of R82: the command byte of a member. -/
def OpcodeBytes.byte (B : OpcodeBytes) : Opcode → Byte
  | .nop => B.nop
  | .swreset => B.swreset
  | .slpin => B.slpin
  | .slpout => B.slpout
  | .invoff => B.invoff
  | .invon => B.invon
  | .dispoff => B.dispoff
  | .dispon => B.dispon
  | .caset => B.caset
  | .paset => B.paset
  | .ramwr => B.ramwr
  | .ramrd => B.ramrd
  | .madctl => B.madctl
  | .idmoff => B.idmoff
  | .idmon => B.idmon
  | .colmod => B.colmod
  | .wrdisbv => B.wrdisbv
  | .invctr => B.invctr
  | .pwctrl1 => B.pwctrl1
  | .pwctrl2 => B.pwctrl2
  | .pwctrl3 => B.pwctrl3
  | .vmctrl1 => B.vmctrl1
  | .pgamctrl => B.pgamctrl
  | .ngamctrl => B.ngamctrl
  | .dgamctrl => B.dgamctrl

/-- The default map of R74. PRESUMED (the spec marks it general knowledge, G1); log entry 2; unsafe for claims that
name a byte. -/
def OpcodeBytes.datasheet : OpcodeBytes where
  nop := 0x00
  swreset := 0x01
  slpin := 0x10
  slpout := 0x11
  invoff := 0x20
  invon := 0x21
  dispoff := 0x28
  dispon := 0x29
  caset := 0x2A
  paset := 0x2B
  ramwr := 0x2C
  ramrd := 0x2E
  madctl := 0x36
  idmoff := 0x38
  idmon := 0x39
  colmod := 0x3A
  wrdisbv := 0x51
  invctr := 0xB4
  pwctrl1 := 0xC0
  pwctrl2 := 0xC1
  pwctrl3 := 0xC2
  vmctrl1 := 0xC5
  pgamctrl := 0xE0
  ngamctrl := 0xE1
  dgamctrl := 0xE2

/-- The member a command byte stands for, if any. The map is injective (R75), so there is at most one. -/
def OpcodeBytes.opcode? (B : OpcodeBytes) (b : Byte) : Option Opcode :=
  Opcode.all.find? fun op => B.byte op == b

/-- The wire row of a member: the instruction that is its command cycle. -/
def Opcode.wire : Opcode → Instr
  | .nop => .nop
  | .swreset => .swreset
  | .slpin => .slpin
  | .slpout => .slpout
  | .invoff => .invoff
  | .invon => .invon
  | .dispoff => .dispoff
  | .dispon => .dispon
  | .caset => .caset
  | .paset => .paset
  | .ramwr => .ramwr
  | .ramrd => .ramrd
  | .madctl => .madctl
  | .idmoff => .idmoff
  | .idmon => .idmon
  | .colmod => .colmod
  | .wrdisbv => .wrdisbv
  | .invctr => .invctr
  | .pwctrl1 => .pwctrl1
  | .pwctrl2 => .pwctrl2
  | .pwctrl3 => .pwctrl3
  | .vmctrl1 => .vmctrl1
  | .pgamctrl => .pgamctrl
  | .ngamctrl => .ngamctrl
  | .dgamctrl => .dgamctrl

/-! ## The bus cycle -/

/-- Whether a cycle word is a data cycle: bit 8, the `c` or `d` of R70's pattern. DESIGN CHOICE (the spec gives the
field `dc` two names and no bit value); log entry 14; safe. -/
def CycleWord.isData (w : CycleWord) : Bool := w.getLsbD 8

/-- The byte of a cycle word. -/
def CycleWord.byte (w : CycleWord) : Byte := w.extractLsb' 0 8

/-- The cycle word with the given kind and byte. -/
def CycleWord.mk (isData : Bool) (b : Byte) : CycleWord :=
  BitVec.ofBool isData ++ b

/-- Decode a bus cycle (R71): a data cycle is DATA; a command cycle whose byte is a member's is that member's row; any
other command cycle is `write_command` of the byte, which "accepts any u8" (R83). DESIGN CHOICE for the last; log entry
15; safe. -/
def decodeCycle (B : OpcodeBytes) (w : CycleWord) : Instr :=
  if w.isData then .data w.byte
  else
    match B.opcode? w.byte with
    | some op => op.wire
    | none => .writeCommand w.byte

/-! ## The assembler line -/

/-- A number as a u8. -/
def asByte (n : Int) : Except DecodeError Byte :=
  if 0 ≤ n ∧ n < 256 then .ok (BitVec.ofInt 8 n) else .error .outOfRange

/-- A number as a u16. -/
def asU16 (n : Int) : Except DecodeError U16 :=
  if 0 ≤ n ∧ n < 65536 then .ok (BitVec.ofInt 16 n) else .error .outOfRange

/-- A number as a natural number. -/
def asNat (n : Int) : Except DecodeError Nat :=
  if 0 ≤ n then .ok n.toNat else .error .outOfRange

/-- Every element by `f`, or the first error. -/
def eachOk {α β : Type} (f : α → Except DecodeError β) : List α → Except DecodeError (List β)
  | [] => .ok []
  | a :: rest => do
    let b ← f a
    let bs ← eachOk f rest
    .ok (b :: bs)

/-- A list argument of bytes. -/
def asBytes : AsmArg → Except DecodeError (List Byte)
  | .nums l => eachOk asByte l
  | .rep v n => do
    let b ← asByte v
    let k ← asNat n
    .ok (List.replicate k b)
  | _ => .error .wrongArguments

/-- A list argument of words. -/
def asWords : AsmArg → Except DecodeError (List U16)
  | .nums l => eachOk asU16 l
  | .rep v n => do
    let w ← asU16 v
    let k ← asNat n
    .ok (List.replicate k w)
  | _ => .error .wrongArguments

/-- A pair of a draw list. -/
def asPixel (p : Int × Int × Int) : Except DecodeError DrawPixel := do
  let c ← asNat p.2.2
  .ok ⟨p.1, p.2.1, ⟨c⟩⟩

/-- A draw list; the empty list is written as the empty list of numbers. -/
def asPixels : AsmArg → Except DecodeError (List DrawPixel)
  | .pixels l => eachOk asPixel l
  | .nums [] => .ok []
  | _ => .error .wrongArguments

/-- The name of an opcode: its mnemonic (R73). -/
def Opcode.mnemonic : Opcode → String
  | .nop => "NOP"
  | .swreset => "SWRESET"
  | .slpin => "SLPIN"
  | .slpout => "SLPOUT"
  | .invoff => "INVOFF"
  | .invon => "INVON"
  | .dispoff => "DISPOFF"
  | .dispon => "DISPON"
  | .caset => "CASET"
  | .paset => "PASET"
  | .ramwr => "RAMWR"
  | .ramrd => "RAMRD"
  | .madctl => "MADCTL"
  | .idmoff => "IDMOFF"
  | .idmon => "IDMON"
  | .colmod => "COLMOD"
  | .wrdisbv => "WRDISBV"
  | .invctr => "INVCTR"
  | .pwctrl1 => "PWCTRL1"
  | .pwctrl2 => "PWCTRL2"
  | .pwctrl3 => "PWCTRL3"
  | .vmctrl1 => "VMCTRL1"
  | .pgamctrl => "PGAMCTRL"
  | .ngamctrl => "NGAMCTRL"
  | .dgamctrl => "DGAMCTRL"

/-- An opcode by its mnemonic. -/
def asOpcode (s : String) : Except DecodeError Opcode :=
  match Opcode.all.find? fun op => op.mnemonic == s with
  | some op => .ok op
  | none => .error .unknownName

/-- The name of an orientation. -/
def Orientation.spelling : Orientation → String
  | .portrait => "Portrait"
  | .landscape => "Landscape"
  | .portraitUpsideDown => "PortraitUpsideDown"
  | .landscapeUpsideDown => "LandscapeUpsideDown"

/-- An orientation by its name. -/
def asOrientation (s : String) : Except DecodeError Orientation :=
  match [Orientation.portrait, .landscape, .portraitUpsideDown, .landscapeUpsideDown].find? fun o => o.spelling == s with
  | some o => .ok o
  | none => .error .unknownName

/-- The name of a pixel format. -/
def PixelFormat.spelling : PixelFormat → String
  | .rgb565 => "Rgb565"
  | .rgb666 => "Rgb666"

/-- A pixel format by its name. -/
def asFormat (s : String) : Except DecodeError PixelFormat :=
  match [PixelFormat.rgb565, .rgb666].find? fun f => f.spelling == s with
  | some f => .ok f
  | none => .error .unknownName

/-- The name of a transport. -/
def Transport.spelling : Transport → String
  | .parallel8 => "Parallel8"
  | .serial => "Serial"

/-- A transport by its name. -/
def asTransport (s : String) : Except DecodeError Transport :=
  match [Transport.parallel8, .serial].find? fun t => t.spelling == s with
  | some t => .ok t
  | none => .error .unknownName

/-- The operations that take no argument, by mnemonic. -/
def nullary : List (String × Instr) :=
  [("read_status", .readStatus), ("read_data", .readData), ("assert_reset", .assertReset),
   ("deassert_reset", .deassertReset), ("enable", .enable), ("disable", .disable), ("init", .init),
   ("width", .width), ("height", .height), ("orientation", .orientation), ("size", .size)]

/-- The mnemonics of the operations that take arguments. -/
def withArguments : List String :=
  ["write_command", "write_data", "write_data_16be", "new", "send_command", "send_data", "set_window", "write_pixels"] ++
  ["fill", "set_pixel_format", "set_orientation", "set_brightness", "draw_iter", "INIT_CMD", "INIT_DELAY"]

/-- The error of a line whose arguments fit no form of its operation, or whose operation there is none of. -/
def misfit (op : String) : Except DecodeError Instr :=
  if op ∈ withArguments ∨ op ∈ nullary.map (·.1) then .error .wrongArguments else .error .unknownMnemonic

/-- Decode an assembler line (R85). DESIGN CHOICE, log entry 32, safe: `new` written alone is the parallel transport, the one
of 95_test_vectors' programs; `write_command` takes its opcode as a number (R101) or by mnemonic (R85, R86), which stands for
the member's byte; the two init entries are written with their mnemonics in the opcode table. -/
def decodeLine (B : OpcodeBytes) (l : AsmLine) : Except DecodeError Instr :=
  match l.args with
  | [] =>
    match nullary.find? fun p => p.1 == l.op with
    | some p => .ok p.2
    | none => if l.op = "new" then .ok (.new .parallel8) else misfit l.op
  | [a] =>
    match l.op, a with
    | "write_command", .num n => (asByte n).map .writeCommand
    | "write_command", .name s => (asOpcode s).map fun op => .writeCommand (B.byte op)
    | "write_data", a => (asBytes a).map .writeData
    | "write_data_16be", a => (asWords a).map .writeData16be
    | "new", .name s => (asTransport s).map .new
    | "send_command", .name s => (asOpcode s).map .sendCommand
    | "send_data", a => (asBytes a).map .sendData
    | "write_pixels", a => (asWords a).map .writePixels
    | "fill", .num n => (asU16 n).map .fill
    | "set_pixel_format", .name s => (asFormat s).map .setPixelFormat
    | "set_orientation", .name s => (asOrientation s).map .setOrientation
    | "set_brightness", .num n => (asByte n).map .setBrightness
    | "draw_iter", a => (asPixels a).map .drawIter
    | "INIT_DELAY", .num n => (asNat n).map .initDelay
    | _, _ => misfit l.op
  | [.name s, a] =>
    if l.op = "INIT_CMD" then do
      let op ← asOpcode s
      let ps ← asBytes a
      .ok (.initCmd op ps)
    else misfit l.op
  | [.num a, .num b, .num c, .num d] =>
    if l.op = "set_window" then do
      let x0 ← asU16 a
      let y0 ← asU16 b
      let x1 ← asU16 c
      let y1 ← asU16 d
      .ok (.setWindow x0 y0 x1 y1)
    else misfit l.op
  | _ => misfit l.op

/-! ## The text of a line -/

/-- A token of a line. -/
inductive Token where
  | num (n : Int)
  | ident (s : String)
  | lbrack
  | rbrack
  | lparen
  | rparen
  | comma
  | bad
  deriving DecidableEq, Repr

/-- The value of a decimal digit. -/
def decDigit (c : Char) : Option Nat :=
  if '0' ≤ c ∧ c ≤ '9' then some (c.toNat - '0'.toNat) else none

/-- The value of a hexadecimal digit. -/
def hexDigit (c : Char) : Option Nat :=
  if '0' ≤ c ∧ c ≤ '9' then some (c.toNat - '0'.toNat)
  else if 'a' ≤ c ∧ c ≤ 'f' then some (c.toNat - 'a'.toNat + 10)
  else if 'A' ≤ c ∧ c ≤ 'F' then some (c.toNat - 'A'.toNat + 10)
  else none

/-- The number a list of digits stands for, most significant first, in the given base. -/
def digitsValue (base : Nat) (digit : Char → Option Nat) : Nat → List Char → Option Nat
  | acc, [] => some acc
  | acc, c :: cs => (digit c).bind fun d => digitsValue base digit (acc * base + d) cs

/-- An unsigned number, decimal or `0x` hexadecimal (R85). -/
def unsignedValue : List Char → Option Nat
  | '0' :: 'x' :: c :: cs => digitsValue 16 hexDigit 0 (c :: cs)
  | c :: cs => digitsValue 10 decDigit 0 (c :: cs)
  | [] => none

/-- The token a word stands for: a number if it begins with a digit or a minus sign, else a name. -/
def wordToken : List Char → Token
  | '-' :: cs => ((unsignedValue cs).map fun n => Token.num (-(n : Int))).getD .bad
  | c :: cs =>
    if (decDigit c).isSome then ((unsignedValue (c :: cs)).map fun n => Token.num (n : Int)).getD .bad
    else .ident (String.ofList (c :: cs))
  | [] => .bad

/-- The token of a mark. -/
def markToken : Char → Option Token
  | '[' => some .lbrack
  | ']' => some .rbrack
  | '(' => some .lparen
  | ')' => some .rparen
  | ',' => some .comma
  | _ => none

/-- The token of the word gathered so far (kept in reverse), if there is one. -/
def flushWord : List Char → List Token
  | [] => []
  | w => [wordToken w.reverse]

/-- The tokens of a line; a comment starts with `;` (R85). -/
def tokenize : List Char → List Char → List Token
  | w, [] => flushWord w
  | w, c :: cs =>
    if c = ';' then flushWord w
    else if c = ' ' ∨ c = '\t' ∨ c = '\r' ∨ c = '\n' then flushWord w ++ tokenize [] cs
    else
      match markToken c with
      | some t => flushWord w ++ t :: tokenize [] cs
      | none =>
        if c.isAlphanum ∨ c = '_' ∨ c = '-' then tokenize (c :: w) cs
        else flushWord w ++ Token.bad :: tokenize [] cs

/-- The numbers of a list up to its closing bracket, and the tokens after it. -/
def parseNums : List Token → Option (List Int × List Token)
  | .num n :: .rbrack :: rest => some ([n], rest)
  | .num n :: .comma :: rest => (parseNums rest).map fun r => (n :: r.1, r.2)
  | _ => none

/-- The pairs of a draw list up to its closing bracket, and the tokens after it. -/
def parsePixels : List Token → Option (List (Int × Int × Int) × List Token)
  | .lparen :: .num x :: .comma :: .num y :: .comma :: .num c :: .rparen :: .rbrack :: rest => some ([(x, y, c)], rest)
  | .lparen :: .num x :: .comma :: .num y :: .comma :: .num c :: .rparen :: .comma :: rest =>
    (parsePixels rest).map fun r => ((x, y, c) :: r.1, r.2)
  | _ => none

/-- One argument, and the tokens after it. -/
def parseArg : List Token → Option (AsmArg × List Token)
  | .num n :: rest => some (.num n, rest)
  | .ident "repeat" :: .lparen :: .num v :: .comma :: .num n :: .rparen :: rest => some (.rep v n, rest)
  | .ident s :: rest => some (.name s, rest)
  | .lbrack :: .rbrack :: rest => some (.nums [], rest)
  | .lbrack :: .lparen :: rest => (parsePixels (.lparen :: rest)).map fun r => (.pixels r.1, r.2)
  | .lbrack :: rest => (parseNums rest).map fun r => (.nums r.1, r.2)
  | _ => none

/-- The arguments of a line, separated by commas; the first argument bounds how many there can be. -/
def parseArgs : Nat → List Token → Option (List AsmArg)
  | 0, _ => none
  | fuel + 1, ts =>
    match parseArg ts with
    | some (a, []) => some [a]
    | some (a, .comma :: rest) => (parseArgs fuel rest).map (a :: ·)
    | _ => none

/-- The line a text holds (R85). -/
def parseLine (s : String) : Except DecodeError AsmLine :=
  match tokenize [] s.toList with
  | [.ident op] => .ok ⟨op, []⟩
  | .ident op :: ts =>
    match parseArgs ts.length ts with
    | some args => .ok ⟨op, args⟩
    | none => .error .notALine
  | _ => .error .notALine

/-! ## Requests -/

/-- The instruction a request of the host asks for. -/
def decodeRequest (B : OpcodeBytes) : Request → Except DecodeError Instr
  | .cycle w => .ok (decodeCycle B w)
  | .line l => decodeLine B l
  | .text s => (parseLine s).bind (decodeLine B)

/-- The instruction of a wire row of spec/opcode_table.json, whose bits are numbered from the least significant bit of
the byte: bits 7..0 the byte, bit 8 the command/data select (30_encoding R70, R71), read with the default opcode map of
R74, which is the one the table's rows are written with. Every word decodes. -/
def decodeTableWord (nbits w : Nat) : Option Instr :=
  some (decodeCycle .datasheet (BitVec.ofNat 9 (w % 2 ^ nbits)))

/-! ## Encoding -/

/-- A u8 as a number. -/
def numOfByte (b : Byte) : AsmArg := .num b.toNat

/-- A u16 as a number. -/
def numOfU16 (w : U16) : AsmArg := .num w.toNat

/-- A list of bytes as an argument. -/
def numsOfBytes (l : List Byte) : AsmArg := .nums (l.map fun b => (b.toNat : Int))

/-- A list of words as an argument. -/
def numsOfWords (l : List U16) : AsmArg := .nums (l.map fun w => (w.toNat : Int))

/-- A draw list as an argument. -/
def argOfPixels (l : List DrawPixel) : AsmArg := .pixels (l.map fun p => (p.x, p.y, (p.color.code : Int)))

/-- The request that asks for an instruction: its command cycle for a wire row (R71, R74), its line for a host
operation (R85). -/
def encode (B : OpcodeBytes) : Instr → Request
  | .nop => .cycle (.mk false B.nop)
  | .swreset => .cycle (.mk false B.swreset)
  | .slpin => .cycle (.mk false B.slpin)
  | .slpout => .cycle (.mk false B.slpout)
  | .invoff => .cycle (.mk false B.invoff)
  | .invon => .cycle (.mk false B.invon)
  | .invctr => .cycle (.mk false B.invctr)
  | .dispoff => .cycle (.mk false B.dispoff)
  | .dispon => .cycle (.mk false B.dispon)
  | .caset => .cycle (.mk false B.caset)
  | .paset => .cycle (.mk false B.paset)
  | .ramwr => .cycle (.mk false B.ramwr)
  | .ramrd => .cycle (.mk false B.ramrd)
  | .madctl => .cycle (.mk false B.madctl)
  | .idmoff => .cycle (.mk false B.idmoff)
  | .idmon => .cycle (.mk false B.idmon)
  | .colmod => .cycle (.mk false B.colmod)
  | .wrdisbv => .cycle (.mk false B.wrdisbv)
  | .pwctrl1 => .cycle (.mk false B.pwctrl1)
  | .pwctrl2 => .cycle (.mk false B.pwctrl2)
  | .pwctrl3 => .cycle (.mk false B.pwctrl3)
  | .vmctrl1 => .cycle (.mk false B.vmctrl1)
  | .pgamctrl => .cycle (.mk false B.pgamctrl)
  | .ngamctrl => .cycle (.mk false B.ngamctrl)
  | .dgamctrl => .cycle (.mk false B.dgamctrl)
  | .data b => .cycle (.mk true b)
  | .writeCommand op => .line ⟨"write_command", [numOfByte op]⟩
  | .writeData bs => .line ⟨"write_data", [numsOfBytes bs]⟩
  | .writeData16be ws => .line ⟨"write_data_16be", [numsOfWords ws]⟩
  | .readStatus => .line ⟨"read_status", []⟩
  | .readData => .line ⟨"read_data", []⟩
  | .new t => .line ⟨"new", [.name t.spelling]⟩
  | .assertReset => .line ⟨"assert_reset", []⟩
  | .deassertReset => .line ⟨"deassert_reset", []⟩
  | .enable => .line ⟨"enable", []⟩
  | .disable => .line ⟨"disable", []⟩
  | .init => .line ⟨"init", []⟩
  | .sendCommand op => .line ⟨"send_command", [.name op.mnemonic]⟩
  | .sendData bs => .line ⟨"send_data", [numsOfBytes bs]⟩
  | .setWindow x0 y0 x1 y1 => .line ⟨"set_window", [numOfU16 x0, numOfU16 y0, numOfU16 x1, numOfU16 y1]⟩
  | .writePixels ws => .line ⟨"write_pixels", [numsOfWords ws]⟩
  | .fill c => .line ⟨"fill", [numOfU16 c]⟩
  | .setPixelFormat f => .line ⟨"set_pixel_format", [.name f.spelling]⟩
  | .setOrientation o => .line ⟨"set_orientation", [.name o.spelling]⟩
  | .setBrightness l => .line ⟨"set_brightness", [numOfByte l]⟩
  | .width => .line ⟨"width", []⟩
  | .height => .line ⟨"height", []⟩
  | .orientation => .line ⟨"orientation", []⟩
  | .drawIter ps => .line ⟨"draw_iter", [argOfPixels ps]⟩
  | .size => .line ⟨"size", []⟩
  | .initCmd op ps => .line ⟨"INIT_CMD", [.name op.mnemonic, numsOfBytes ps]⟩
  | .initDelay ms => .line ⟨"INIT_DELAY", [.num ms]⟩

end Sys2Proof
end

