-- ==== Sys2Proof/WellFormed.lean ====
section
/-! DEFINITION. The checks on what the model is given. An instruction is well formed by its type alone (every argument
has the type of 00_scope R10), so what has to be checked are the parameters (00_scope R9, 30_encoding R75), the
Initialization Table (41_control_and_init R138) and a Configuration (10_state R24). -/

namespace Sys2Proof

/-- Whether an entry is a delay. -/
def InitEntry.isDelay : InitEntry → Bool
  | .delay _ => true
  | .cmd _ _ => false

/-- Whether some entry sends `op` and the entry after it is a delay: a delay before the next command entry. -/
def delayedAfter (op : Opcode) : List InitEntry → Bool
  | [] => false
  | .delay _ :: rest => delayedAfter op rest
  | .cmd o _ :: rest => (o == op && rest.head?.any InitEntry.isDelay) || delayedAfter op rest

/-- Whether some entry sends `op`. -/
def sends (op : Opcode) (t : List InitEntry) : Bool :=
  t.any fun e => match e with
    | .cmd o _ => o == op
    | .delay _ => false

/-- The constraints of R138 on an Initialization Table: (a) a delay after a SWRESET, (b) a delay after a SLPOUT, (c) a
DISPON, and a delay as the last entry. Constraint (d) holds by the type of an entry. -/
def admissible (t : List InitEntry) : Bool :=
  delayedAfter .swreset t && delayedAfter .slpout t && (sends .dispon t && t.getLast?.any InitEntry.isDelay)

/-- R75: the opcode map is injective. -/
def OpcodeBytes.injective (B : OpcodeBytes) : Bool :=
  decide (Opcode.all.map B.byte).Nodup

/-- R75: the delay sentinel is no member's byte. -/
def Params.sentinelApart (P : Params) : Bool :=
  !(Opcode.all.map P.opcodes.byte).contains P.delaySentinel

/-- R9: the reset delays are u32 values, at least 2 and at least 200. -/
def Params.delaysLegal (P : Params) : Bool :=
  decide (2 ≤ P.resetPulseMs ∧ P.resetPulseMs < 2 ^ 32 ∧ 200 ≤ P.resetSettleMs ∧ P.resetSettleMs < 2 ^ 32)

/-- The parameters meet every constraint the spec puts on them. -/
def Params.wellFormed (P : Params) : Bool :=
  P.opcodes.injective && P.sentinelApart && P.delaysLegal && admissible P.initTable

/-- The class of an orientation (30_encoding R87). -/
def Orientation.class : Orientation → OrientationClass
  | .portrait => .portraitClass
  | .portraitUpsideDown => .portraitClass
  | .landscape => .landscapeClass
  | .landscapeUpsideDown => .landscapeClass

/-- `dims` of R87: width and height of a class. -/
def OrientationClass.dims : OrientationClass → U16 × U16
  | .portraitClass => (320, 480)
  | .landscapeClass => (480, 320)

/-- The second half of R24: width and height are those of the orientation's class. -/
def dimsAgree (width height : U16) (o : Orientation) : Bool :=
  (width, height) == o.class.dims

end Sys2Proof
end

