-- ==== Sys2Proof/Machine/Defaults.lean ====
section
/-! DEFINITION. The parameters at reset: the defaults of 00_scope R9 and 46_panel_reference R270 where the spec gives
them, and for the open ones the free constants of Config put under the spec's constraints. -/

namespace Sys2Proof.Machine

/-- The physical panel dimensions (00_scope R8). -/
def physW : Nat := 320

/-- The physical panel dimensions (00_scope R8). -/
def physH : Nat := 480

/-- The table `T_ex` of 95_test_vectors §2.0: illustrative only. It stands in for the free table in the one case where
that is not admissible, so that no content of the table can be proved. -/
def exampleTable : List InitEntry :=
  [.cmd .swreset [], .delay 120, .cmd .slpout [], .delay 120, .cmd .colmod [0x55], .cmd .dispon [], .delay 20]

/-- A table that meets R138: the given one if it does. -/
def orExample (t : List InitEntry) : List InitEntry :=
  if admissible t then t else exampleTable

/-- A sentinel that meets R75: the given one if it does. -/
def apart (B : OpcodeBytes) (b : Byte) : Byte :=
  if (Opcode.all.map B.byte).contains b then 0xFF else b

/-- The parameters at reset. DESIGN CHOICE and PRESUMED; log entries 2, 4, 5, 7 and 28. -/
def resetParams : Params where
  opcodes := .datasheet
  dcCmdLevel := .low
  resetPulseMs := 2
  resetSettleMs := 200
  initTable := orExample Config.rawInitTable
  delaySentinel := apart .datasheet Config.rawDelaySentinel
  clipBounds := .logical
  readMode := .stub
  dataOrder := []
  overflow := .anyValue
  map40 := Config.map40
  map90 := Config.map90
  map20 := Config.map20
  mapF4 := Config.mapF4

end Sys2Proof.Machine
end

