-- ==== Sys2Proof/Machine/Memory.lean ====
section
/-! DEFINITION. The panel's display memory (46_panel_reference R272, 20_memory R55): 153600 pixel cells keyed by their
physical position, row times 320 plus column. A cell that is not listed holds any value: reading it gives none. -/

namespace Sys2Proof.Machine

/-- A pixel of the display memory: the 16 bits of R276. -/
abbrev Pixel := BitVec 16

/-- The display memory: the cells whose value is determined, by rising position. -/
abbrev Memory := List (Nat × Pixel)

namespace Memory

/-- How many cells there are: 320 columns by 480 rows. -/
def cells : Nat := 153600

/-- The cell at a physical column and row. -/
def position (col row : Nat) : Nat := row * 320 + col

/-- What a cell holds; none where nothing determines it. DESIGN CHOICE; log entry 29; safe. -/
def read (a : Nat) : Memory → Option Pixel
  | [] => none
  | (k, v) :: rest => if k = a then some v else read a rest

/-- Write a cell, keeping the positions rising. -/
def write (a : Nat) (v : Pixel) : Memory → Memory
  | [] => [(a, v)]
  | (k, w) :: rest =>
    if a < k then (a, v) :: (k, w) :: rest
    else if a = k then (a, v) :: rest
    else (k, w) :: write a v rest

/-- Make a cell hold any value. -/
def forget (a : Nat) (m : Memory) : Memory := m.filter fun c => c.1 != a

/-- Write a cell with a value, or with any value. -/
def put (a : Nat) : Option Pixel → Memory → Memory
  | some v, m => write a v m
  | none, m => forget a m

/-- The canonical form: positions strictly rising, each one of the display memory's. What an unlisted cell reads as is
none, which no listed cell reads as. -/
abbrev wf (m : Memory) : Prop :=
  m.Pairwise (fun c d => c.1 < d.1) ∧ ∀ c ∈ m, c.1 < cells

end Memory

end Sys2Proof.Machine
end

