-- ==== Sys2Proof/Machine/State.lean ====
section
/-! DEFINITION. The state of the machine as plain data (10_state, 46_panel_reference R272), the reasons a step can stop,
and the state after reset. -/

namespace Sys2Proof.Machine

/-- A control line's level (10_state §2): Known, or Unknown before its first successful drive and after a failed one. -/
inductive LineState where
  | known (l : Level)
  | unknown
  deriving DecidableEq, Repr

/-- The output lines the block can drive (00_scope R12). -/
inductive Pin where
  | cs
  | rst
  | dc
  | wr
  | d (i : Nat)
  deriving DecidableEq, Repr

/-- The levels of the control lines (10_state R25 to R27). -/
structure Pins where
  cs : LineState
  rst : LineState
  dc : LineState
  wr : LineState
  d : Vector LineState 8
  deriving DecidableEq, Repr

/-- The two lines whose drives are events (10_state R33). -/
inductive ControlLine where
  | cs
  | rst
  deriving DecidableEq, Repr

/-- An event of the transcript (10_state R33). -/
inductive Event where
  | pin (line : ControlLine) (l : Level)
  | cmd (b : Byte)
  | dat (b : Byte)
  | delay (ms : Nat)
  deriving DecidableEq, Repr

/-- A latched bus cycle (30_encoding R71). -/
inductive Cycle where
  | cmd (b : Byte)
  | dat (b : Byte)
  deriving DecidableEq, Repr

/-- Which transfer failed (60_exceptions R300). -/
inductive Transfer where
  | command
  | data
  deriving DecidableEq, Repr

/-- The three error kinds (60_exceptions R300). -/
inductive Error where
  | cs
  | reset
  | bus (t : Transfer)
  deriving DecidableEq, Repr

/-- What an operation that succeeds returns (00_scope R13). -/
inductive Value where
  | unit
  | byte (b : Byte)
  | word (w : U16)
  | orientation (o : Orientation)
  | pair (w h : U16)
  deriving DecidableEq, Repr

/-- What the host gets back (60_exceptions R318). -/
inductive Ret where
  | ok (v : Value)
  | err (e : Error)
  deriving DecidableEq, Repr

/-- The ghost phase (10_state R29). -/
inductive Phase where
  | uninitialized
  | ready
  deriving DecidableEq, Repr

/-- The environment's draw for one drive (60_exceptions R301). -/
inductive Draw where
  | succeeds
  | fails
  deriving DecidableEq, Repr

/-- The register file (10_state R20 to R23). -/
structure Configuration where
  width : U16
  height : U16
  orientation : Orientation
  pixelFormat : Option PixelFormat
  deriving DecidableEq, Repr

/-- The panel as the interpretation of 46_panel_reference R272 tracks it. -/
structure Panel where
  regs : PanelRegs
  gram : Memory
  deriving DecidableEq, Repr

/-- The state of the machine. -/
structure State where
  /-- whether a driver instance exists (41_control_and_init R130) -/
  driver : Bool
  /-- TRANSPORT, chosen when the driver is constructed (40_transport R100) -/
  transport : Transport
  /-- the Configuration (10_state R20 to R23) -/
  cfg : Configuration
  /-- the control lines (10_state R25 to R27) -/
  pins : Pins
  /-- the sequencer's cursor (10_state R28); none while there is none -/
  seq : Option Nat
  /-- the ghost phase (10_state R29) -/
  phase : Phase
  /-- the transcript (10_state R33) -/
  trace : List Event
  /-- what the last operation returned (60_exceptions R318) -/
  ret : Ret
  /-- the panel (46_panel_reference R272) -/
  panel : Panel
  /-- the parameters (00_scope R9, 46_panel_reference R270); no operation writes them -/
  par : Params
  /-- the model's own: the environment's coming draws, the next one first; when there are none left, drives succeed -/
  draws : List Draw
  /-- the model's own: how many free values have been taken -/
  free : Nat
  /-- the model's own: what the host has asked for and the block has not begun, the first one first -/
  port : List Request
  deriving DecidableEq, Repr

/-- The ways the machine stops. -/
inductive Fault where
  /-- Raised by every operation of the Controller Driver and the Drawing Adapter but `new` when no driver instance exists
  (41_control_and_init R130: after a failed `new` "no driver exists"). Safe: there is nothing to call. -/
  | noDriver
  deriving DecidableEq, Repr

/-- The requests the model refuses. -/
inductive Refusal where
  /-- Raised by exec's arm of an instruction that has no meaning yet. Safe. -/
  | notModelled (mnemonic : String)
  /-- Raised by `read_status` and `read_data` under READ_MODE = Wired (40_transport R106: "A model refuses"). Safe. -/
  | readPathWired
  /-- Raised by step when the host's request names no instruction. Safe: the host can write no such call. -/
  | badRequest (e : DecodeError)
  deriving DecidableEq, Repr

/-- The Configuration at `new` (10_state R36). -/
def Configuration.reset : Configuration where
  width := 320
  height := 480
  orientation := .portrait
  pixelFormat := none

/-- The eight data lines, all Unknown. -/
def unknownLines : Vector LineState 8 := Vector.replicate 8 .unknown

/-- The control lines after `new` (10_state R36). -/
def Pins.reset : Pins where
  cs := .known .high
  rst := .known .high
  dc := .unknown
  wr := .unknown
  d := unknownLines

/-- The state after `new` has answered Ok: the block's reset state (10_state R36). What R36 does not give (transport,
parameters, draws, port, counter, result) stands in log entries 4, 5, 6, 14, 18 and 19. -/
def State.reset : State where
  driver := true
  transport := .parallel8
  cfg := .reset
  pins := .reset
  seq := none
  phase := .uninitialized
  trace := [.pin .cs .high, .pin .rst .high]
  ret := .ok .unit
  panel := ⟨Config.panelResetState, []⟩
  par := resetParams
  draws := []
  free := 0
  port := []

end Sys2Proof.Machine
end

