-- ==== Sys2Proof/Machine/Operands.lean ====
section
/-! DEFINITION. The operand forms: the bytes each operand goes out as (30_encoding R76 to R80, 20_memory R50), the eight
data lines of a byte (20_memory R51), and the bijections of the parameters. -/

namespace Sys2Proof.Machine

/-! ## Bytes -/

/-- `hi8` of 00_scope R11. -/
def hi8 (w : U16) : Byte := w.extractLsb' 8 8

/-- `lo8` of 00_scope R11. -/
def lo8 (w : U16) : Byte := w.extractLsb' 0 8

/-- The word of two bytes, most significant first (R50). -/
def word16 (hi lo : Byte) : U16 := hi ++ lo

/-- A word as it goes out: two bytes, most significant first (R50, R79). -/
def wordBytes (w : U16) : List Byte := [hi8 w, lo8 w]

/-- A stream of words as it goes out (R79). -/
def streamBytes (ws : List U16) : List Byte := ws.flatMap wordBytes

/-- `addr_params` of R78. -/
def addrParams (a b : U16) : List Byte := [hi8 a, lo8 a, hi8 b, lo8 b]

/-- `fmt_byte` of R76. -/
def fmtByte : PixelFormat → Byte
  | .rgb565 => 0x55
  | .rgb666 => 0x66

/-- `orient_byte` of R77. -/
def orientByte : Orientation → Byte
  | .portrait => 0x40
  | .portraitUpsideDown => 0x90
  | .landscape => 0x20
  | .landscapeUpsideDown => 0xF4

/-- `u16(x)` of 44_drawing_adapter R212: exact for a coordinate in bounds (R215). -/
def coordinate (x : Int) : U16 := BitVec.ofInt 16 x

/-- How many words `fill` streams: `w × h` as a natural number, with no wrap-around (R84). -/
def fillCount (c : Configuration) : Nat := c.width.toNat * c.height.toNat

/-! ## Bijections -/

/-- One transposition of the numbers below `n`; a pair that reaches beyond them does nothing. -/
def swapOnce (n : Nat) (p : Nat × Nat) (i : Nat) : Nat :=
  if p.1 < n ∧ p.2 < n then
    if i = p.1 then p.2 else if i = p.2 then p.1 else i
  else i

/-- The bijection of the numbers below `n` that a list of transpositions stands for. -/
def applySwaps (n : Nat) (sw : Swaps) (i : Nat) : Nat :=
  sw.foldl (fun i p => swapOnce n p i) i

/-- The order in which a cycle drives the eight data lines (40_transport R110 leaves it unspecified; log entry 7). -/
def lineOrder (sw : Swaps) : List Nat := (List.range 8).map (applySwaps 8 sw)

/-! ## Data lines -/

/-- The level of a bit. -/
def levelOf (b : Bool) : Level := if b then .high else .low

/-- The level `D[i]` takes for a byte: bit `i` (20_memory R51, D41). PRESUMED (G2); log entry 9; electrical only. -/
def dataLevel (b : Byte) (i : Nat) : Level := levelOf (b.getLsbD i)

/-- The eight lines carrying a byte. -/
def linesOf (b : Byte) : Vector LineState 8 := Vector.ofFn fun i => .known (dataLevel b i.val)

/-- The bit a line carries, if its level is known. -/
def LineState.bit? : LineState → Option Bool
  | .known .high => some true
  | .known .low => some false
  | .unknown => none

/-- The bits of a list of lines, if every level is known. -/
def bits? : List LineState → Option (List Bool)
  | [] => some []
  | l :: rest => l.bit?.bind fun b => (bits? rest).map (b :: ·)

/-- The number of a list of bits, bit 0 first. -/
def bitsValue : List Bool → Nat
  | [] => 0
  | b :: rest => b.toNat + 2 * bitsValue rest

/-- The byte on the data lines, if every level is known. -/
def sampleByte (d : Vector LineState 8) : Option Byte :=
  (bits? d.toList).map fun bs => BitVec.ofNat 8 (bitsValue bs)

/-- The cycle a latch takes from the levels of DC and D (40_transport R112), if they are known. -/
def sampleCycle (P : Params) (p : Pins) : Option Cycle :=
  match p.dc, sampleByte p.d with
  | .known l, some b => some (if l = P.dcCmdLevel then .cmd b else .dat b)
  | _, _ => none

/-- The event of a latched cycle (10_state R33). -/
def Cycle.event : Cycle → Event
  | .cmd b => .cmd b
  | .dat b => .dat b

end Sys2Proof.Machine
end

