-- ==== Sys2Proof/Machine/Flags.lean ====
section
/-! DEFINITION. The block has no condition flags and no status register (10_state R34). What stands here are the
decisions its rules take instead: the adapter's clip test (44_drawing_adapter R211), whether the panel receives a cycle
(46_panel_reference R271), and where a pixel of a memory-write frame falls (R277 to R279). -/

namespace Sys2Proof.Machine

/-! ## The clip test -/

/-- `(BW, BH)` of R211. -/
def clipExtent (P : Params) (c : Configuration) : Nat × Nat :=
  match P.clipBounds with
  | .logical => (c.width.toNat, c.height.toNat)
  | .physical => (physW, physH)

/-- Whether a pair is in bounds (R211). -/
def inBounds (P : Params) (c : Configuration) (p : DrawPixel) : Bool :=
  decide (0 ≤ p.x ∧ p.x < (clipExtent P c).1 ∧ 0 ≤ p.y ∧ p.y < (clipExtent P c).2)

/-! ## Reception -/

/-- What the panel does with a cycle (R271). -/
inductive Reception where
  | received
  | ignored
  /-- both outcomes are admitted -/
  | undetermined
  deriving DecidableEq, Repr

/-- Whether the panel receives a cycle, from the levels of CS and RST (R271). That RST Unknown admits both outcomes is
DEDUCED; log entry 21; safe. -/
def reception (p : Pins) : Reception :=
  if p.cs = .known .high ∨ p.rst = .known .low then .ignored
  else if p.cs = .known .low ∧ p.rst = .known .high then .received
  else .undetermined

/-! ## Where a pixel falls -/

/-- The bijection `MADCTL_MAP(M)` where the interpretation has one (R279). -/
def mapOf (P : Params) (m : Byte) : Option Swaps :=
  if m = 0x40 then some P.map40
  else if m = 0x90 then some P.map90
  else if m = 0x20 then some P.map20
  else if m = 0xF4 then some P.mapF4
  else none

/-- The logical columns and rows of `MADCTL_MAP(M)` (R279). -/
def logicalDims (m : Byte) : Option (Nat × Nat) :=
  if m = 0x40 ∨ m = 0x90 then some (320, 480)
  else if m = 0x20 ∨ m = 0xF4 then some (480, 320)
  else none

/-- The cell of the display memory that a logical column and row stand for under `M` (R279). -/
def physical (P : Params) (m : Byte) (col row : Nat) : Option Nat :=
  match mapOf P m, logicalDims m with
  | some sw, some (w, _) => some (applySwaps Memory.cells sw (row * w + col))
  | _, _ => none

/-- Whether the window's bounds are in order and inside the logical dimensions (R278). -/
def windowLegal (r : PanelRegs) : Bool :=
  match logicalDims r.madctl with
  | some (w, h) => decide (r.sc ≤ r.ec ∧ r.sp ≤ r.ep ∧ r.ec.toNat < w ∧ r.ep.toNat < h)
  | none => false

/-- Whether the memory-write pointer is inside the window (R277, R278). -/
def pointerInside (r : PanelRegs) : Bool :=
  decide (r.sc.toNat ≤ r.pc ∧ r.pc ≤ r.ec.toNat ∧ r.sp.toNat ≤ r.pr ∧ r.pr ≤ r.ep.toNat)

/-- Where the next pixel of a memory-write frame falls. -/
inductive Placement where
  /-- on this cell -/
  | cell (a : Nat)
  /-- beyond the window -/
  | beyond
  /-- nowhere that is determined: the window's bounds or the map are not -/
  | undetermined
  deriving DecidableEq, Repr

/-- Where the next pixel of a memory-write frame falls (R277 to R279). -/
def placement (P : Params) (r : PanelRegs) : Placement :=
  if windowLegal r then
    if pointerInside r then
      match physical P r.madctl r.pc r.pr with
      | some a => .cell a
      | none => .undetermined
    else .beyond
  else .undetermined

end Sys2Proof.Machine
end

