-- ==== Sys2Proof/Machine/Panel.lean ====
section
/-! DEFINITION. What the panel makes of a received cycle (46_panel_reference R273 to R278). A value the rules leave open
is taken from `Config.freePanel` at the number `n`, or, for a cell of the display memory, forgotten. -/

namespace Sys2Proof

/-- The registers with a newly opened frame (R273). -/
def PanelRegs.openFrame (r : PanelRegs) (b : Byte) : PanelRegs :=
  { r with frameOp := b, frameCount := 0, params := [], pairHi := none }

/-- The memory-write pointer at the start of the window (R277). -/
def PanelRegs.restart (r : PanelRegs) : PanelRegs := { r with pc := r.sc.toNat, pr := r.sp.toNat }

/-- The memory-write pointer one pixel further: columns first (R277). -/
def PanelRegs.advance (r : PanelRegs) : PanelRegs :=
  if r.pc < r.ec.toNat then { r with pc := r.pc + 1 }
  else { r with pc := r.sc.toNat, pr := r.pr + 1 }

/-- The registers with one more data byte of the open frame counted (R273). -/
def PanelRegs.counted (r : PanelRegs) : PanelRegs := { r with frameCount := r.frameCount + 1 }

/-- The bounds that four parameter bytes stand for (R274). -/
def boundsOf : List Byte → Option (U16 × U16)
  | [p0, p1, p2, p3] => some (Machine.word16 p0 p1, Machine.word16 p2 p3)
  | _ => none

/-- A data byte of a column-address frame: the bounds stand once the fourth is there, and bytes beyond it are ignored
(R274). -/
def PanelRegs.columnByte (n : Nat) (b : Byte) (r : PanelRegs) : PanelRegs :=
  if r.frameCount < 3 then { r.counted with params := r.params ++ [b] }
  else if r.frameCount = 3 then
    match boundsOf (r.params ++ [b]) with
    | some (a, z) => { r.counted with params := r.params ++ [b], sc := a, ec := z }
    | none => { r.counted with params := r.params ++ [b], sc := (Config.freePanel n).sc, ec := (Config.freePanel n).ec }
  else r.counted

/-- A data byte of a page-address frame: as for a column-address frame (R274). -/
def PanelRegs.pageByte (n : Nat) (b : Byte) (r : PanelRegs) : PanelRegs :=
  if r.frameCount < 3 then { r.counted with params := r.params ++ [b] }
  else if r.frameCount = 3 then
    match boundsOf (r.params ++ [b]) with
    | some (a, z) => { r.counted with params := r.params ++ [b], sp := a, ep := z }
    | none => { r.counted with params := r.params ++ [b], sp := (Config.freePanel n).sp, ep := (Config.freePanel n).ep }
  else r.counted

namespace Machine

/-- Every register and every cell holds any value (R272). -/
def Panel.any (n : Nat) : Panel := ⟨Config.freePanel n, []⟩

/-- One decoded pixel of a memory-write frame, with a value or with any value: written at the pointer, which then
advances (R277); beyond the window by RAMWR_OVERFLOW; with bounds or a map that are not determined, every cell any value
(R278, R279; log entry 23). That the pointer stays where it is when `Ignore` drops a pixel is the model's choice (DESIGN
CHOICE, log entry 42; unsafe for a claim about the pointer after such a pixel). -/
def Panel.pixel (P : Params) (v : Option Pixel) (p : Panel) : Panel :=
  match placement P p.regs with
  | .cell a => ⟨p.regs.advance, p.gram.put a v⟩
  | .undetermined => ⟨p.regs.advance, []⟩
  | .beyond =>
    match P.overflow with
    | .anyValue => ⟨p.regs.advance, []⟩
    | .ignore => p
    | .wrap =>
      match placement P p.regs.restart with
      | .cell a => ⟨p.regs.restart.advance, p.gram.put a v⟩
      | _ => ⟨p.regs.restart.advance, []⟩

/-- The end of a frame: a memory-write frame's unpaired last byte makes its pixel any value (R276). -/
def Panel.closeFrame (P : Params) (p : Panel) : Panel :=
  if P.opcodes.opcode? p.regs.frameOp = some .ramwr ∧ p.regs.pairHi.isSome then p.pixel P none else p

/-- The frames of the commands the interpretation does not model change everything but the open frame to any value
(R275; log entry 24). -/
def Panel.unmodelled (n : Nat) (r : PanelRegs) : Panel :=
  ⟨{ Config.freePanel n with frameOp := r.frameOp, frameCount := r.frameCount, params := r.params, pairHi := r.pairHi }, []⟩

/-- A frame newly opened by command byte `b` (R273): a window frame's bounds are any value until its fourth byte (R274;
log entry 22), a memory-write frame starts at the window's start (R277). -/
def Panel.opened (P : Params) (n : Nat) (b : Byte) (p : Panel) : Panel :=
  match P.opcodes.opcode? b with
  | some .caset =>
    ⟨{ p.regs.openFrame b with sc := (Config.freePanel n).sc, ec := (Config.freePanel n).ec }, p.gram⟩
  | some .paset =>
    ⟨{ p.regs.openFrame b with sp := (Config.freePanel n).sp, ep := (Config.freePanel n).ep }, p.gram⟩
  | some .ramwr => ⟨(p.regs.openFrame b).restart, p.gram⟩
  | some .nop => ⟨p.regs.openFrame b, p.gram⟩
  | some .madctl => ⟨p.regs.openFrame b, p.gram⟩
  | some .colmod => ⟨p.regs.openFrame b, p.gram⟩
  | some .wrdisbv => ⟨p.regs.openFrame b, p.gram⟩
  | _ => .unmodelled n (p.regs.openFrame b)

/-- A received command cycle (R273): it closes the open frame and opens one. -/
def Panel.command (P : Params) (n : Nat) (b : Byte) (p : Panel) : Panel :=
  (p.closeFrame P).opened P n b

/-- A data byte of a memory-write frame: at format 0x55 bytes are paired, most significant first; at any other format
the pixels written are any value, and the pointer and the byte-pairing state, which PIXEL_DECODE would give, any value too
(R272, R276; DESIGN CHOICE, log entry 26; safe). -/
def Panel.pixelByte (P : Params) (n : Nat) (b : Byte) (p : Panel) : Panel :=
  if p.regs.colmod = 0x55 then
    match p.regs.pairHi with
    | none => ⟨{ p.regs.counted with pairHi := some b }, p.gram⟩
    | some h => Panel.pixel P (some (word16 h b)) ⟨{ p.regs.counted with pairHi := none }, p.gram⟩
  else
    ⟨{ p.regs.counted with
        pc := (Config.freePanel n).pc, pr := (Config.freePanel n).pr, pairHi := (Config.freePanel n).pairHi }, []⟩

/-- A received data cycle (R273): parameter number `k` of the open frame. R275 gives the effect of the first byte of a MADCTL,
COLMOD or WRDISBV frame only; that the bytes after it are counted and otherwise ignored is the model's choice (DESIGN CHOICE,
log entry 41; unsafe for a claim about M or F after such a frame of more than one byte). -/
def Panel.data (P : Params) (n : Nat) (b : Byte) (p : Panel) : Panel :=
  match P.opcodes.opcode? p.regs.frameOp with
  | some .caset => ⟨p.regs.columnByte n b, p.gram⟩
  | some .paset => ⟨p.regs.pageByte n b, p.gram⟩
  | some .madctl =>
    ⟨if p.regs.frameCount = 0 then { p.regs.counted with madctl := b } else p.regs.counted, p.gram⟩
  | some .colmod =>
    ⟨if p.regs.frameCount = 0 then { p.regs.counted with colmod := b } else p.regs.counted, p.gram⟩
  | some .ramwr => p.pixelByte P n b
  | some .nop => ⟨p.regs.counted, p.gram⟩
  | some .wrdisbv => ⟨p.regs.counted, p.gram⟩
  | _ => .unmodelled n p.regs.counted

/-- A received cycle, tracked. -/
def Panel.cycle (P : Params) (n : Nat) (c : Cycle) (p : Panel) : Panel :=
  match c with
  | .cmd b => p.command P n b
  | .dat b => p.data P n b

/-- What the panel is after a cycle was put on the bus (R271, R272): unchanged if it is not received; any value outside
`Ready`; tracked in `Ready`. Log entries 19 and 21. -/
def Panel.onBus (P : Params) (pins : Pins) (ph : Phase) (n : Nat) (c : Cycle) (p : Panel) : Panel :=
  match reception pins with
  | .ignored => p
  | .received => if ph = .ready then p.cycle P n c else .any n
  | .undetermined =>
    if Config.freeReceived n then (if ph = .ready then p.cycle P n c else .any n) else p

end Machine

end Sys2Proof
end

