-- ==== Sys2Proof/Machine/Ops.lean ====
section
/-! DEFINITION. The named operations over the state: pin drives and their draws (00_scope R12, 60_exceptions R301, R317),
the latch (40_transport R112), bus cycles and bursts (R110 to R114), delays, raising an error (60_exceptions R303, R307),
and the operations that others are made of. -/

namespace Sys2Proof.Machine

/-! ## Results of a step of an operation -/

/-- A step of an operation: done, or failed with an error; the state is the one it left. -/
inductive Res where
  | ok (s : State)
  | err (e : Error) (s : State)
  deriving DecidableEq, Repr

/-- The next step, unless this one failed: fail-fast, with no rollback (R303). -/
def Res.bind : Res → (State → Res) → Res
  | .ok s, f => f s
  | .err e s, _ => .err e s

/-- A step for each element, in order, up to the first that fails. -/
def forEach {α : Type} (f : α → State → Res) : List α → State → Res
  | [], s => .ok s
  | a :: rest, s => (f a s).bind (forEach f rest)

/-! ## The phase and errors -/

/-- `phase` becomes Uninitialized, and the panel any value (10_state R30, 46_panel_reference R272). -/
def State.uninitialize (s : State) : State :=
  { s with phase := .uninitialized, panel := .any s.free, free := s.free + 1 }

/-- Taking an error, the one shared operation: `Err e` is returned to the host, `phase` becomes Uninitialized and the
panel any value; no state is saved and no control moves (60_exceptions R305, R307). There is no return from it (R306). -/
def State.raise (s : State) (e : Error) : State :=
  { s.uninitialize with ret := .err e }

/-- The end of an operation: `Ok v`, or the error of its first failing step (00_scope R13, 60_exceptions R303). -/
def finish (v : Value) : Res → Host.Outcome State Fault Refusal
  | .ok s => .next { s with ret := .ok v }
  | .err e s => .next (s.raise e)

/-- An operation of the Controller Driver or the Drawing Adapter: it needs a driver instance (41_control_and_init R130;
log entry 13). -/
def onDriver (s : State) (r : Host.Outcome State Fault Refusal) : Host.Outcome State Fault Refusal :=
  if s.driver then r else .fault .noDriver

/-! ## Events -/

/-- An event appended to the transcript (10_state R33). -/
def State.record (s : State) (e : Event) : State := { s with trace := s.trace ++ [e] }

/-- A latched cycle: recorded, and put before the panel (40_transport R112, 46_panel_reference R271). -/
def State.latched (s : State) (c : Cycle) : State :=
  { s with
    trace := s.trace ++ [c.event]
    panel := s.panel.onBus s.par s.pins s.phase s.free c
    free := s.free + 1 }

/-- `DelayMs(n)`: it cannot fail (60_exceptions R316). -/
def State.delayMs (s : State) (n : Nat) : State := s.record (.delay n)

/-! ## Pin drives -/

/-- The environment's draw for the next drive (R301); with none left, it succeeds (log entry 6). -/
def State.nextDraw (s : State) : Draw := s.draws.headD .succeeds

/-- The state with that draw taken. -/
def State.drawn (s : State) : State := { s with draws := s.draws.tail }

/-- A line at a level, known or not. -/
def Pins.set (p : Pins) (line : Pin) (v : LineState) : Pins :=
  match line with
  | .cs => { p with cs := v }
  | .rst => { p with rst := v }
  | .dc => { p with dc := v }
  | .wr => { p with wr := v }
  | .d i => { p with d := p.d.setIfInBounds i v }

/-- The state with a line at a level. -/
def State.setPin (s : State) (line : Pin) (v : LineState) : State := { s with pins := s.pins.set line v }

/-- The write strobe's rising edge: the cycle on DC and the data lines is latched (40_transport R112). In a cycle of R110
or R111 every level is known; a latch of an Unknown level has no event in the spec and leaves the panel any value. -/
def State.latch (s : State) : State :=
  { s with
    trace := s.trace ++ ((sampleCycle s.par s.pins).map Cycle.event).toList
    panel :=
      match sampleCycle s.par s.pins with
      | some c => s.panel.onBus s.par s.pins s.phase s.free c
      | none => .any s.free
    free := s.free + 1 }

/-- What a successful drive does beside setting the level: CS and RST are recorded (00_scope R12), and a rise of WR from
Known Low latches (40_transport R112). -/
def State.driven (s : State) (line : Pin) (l : Level) : State :=
  match line with
  | .cs => (s.setPin .cs (.known l)).record (.pin .cs l)
  | .rst => (s.setPin .rst (.known l)).record (.pin .rst l)
  | .dc => s.setPin .dc (.known l)
  | .wr =>
    if l = .high ∧ s.pins.wr = .known .low then (s.setPin .wr (.known l)).latch
    else s.setPin .wr (.known l)
  | .d i => s.setPin (.d i) (.known l)

/-- What an attempt to drive does whether it succeeds or not: RST Low makes `phase` Uninitialized (10_state R30). -/
def State.attempt (s : State) (line : Pin) (l : Level) : State :=
  if line = .rst ∧ l = .low then s.uninitialize else s

/-- `PinDrive(line, l)`: it succeeds or fails as the environment draws; a failed drive leaves the line Unknown (10_state
R32) and raises `e` (60_exceptions R301). -/
def drive (line : Pin) (l : Level) (e : Error) (s : State) : Res :=
  match s.nextDraw with
  | .succeeds => .ok ((s.drawn.attempt line l).driven line l)
  | .fails => .err e ((s.drawn.attempt line l).setPin line .unknown)

/-- A drive of chip-select, with its error (R301). -/
def driveCs (l : Level) (s : State) : Res := drive .cs l .cs s

/-- A drive of reset, with its error (R301). -/
def driveRst (l : Level) (s : State) : Res := drive .rst l .reset s

/-! ## Bus cycles -/

/-- The level of DC in a data cycle (40_transport R110, R111). -/
def dataDcLevel (P : Params) : Level := P.dcCmdLevel.not

/-- The eight data lines driven to a byte, in the order the parameters give (R110). -/
def driveByte (e : Error) (b : Byte) (s : State) : Res :=
  forEach (fun i => drive (.d i) (dataLevel b i) e) (lineOrder s.par.dataOrder) s

/-- The write strobe, low then high: the second drive latches the cycle (R110, R112). -/
def strobe (e : Error) (s : State) : Res :=
  (drive .wr .low e s).bind (drive .wr .high e)

/-- A byte driven and strobed. -/
def strobeByte (e : Error) (b : Byte) (s : State) : Res :=
  (driveByte e b s).bind (strobe e)

/-- A cycle of the serial transport: the same event, one draw, and no line level, which SERIAL_FRAMING would give
(40_transport R114; log entry 10). -/
def serialCycle (e : Error) (c : Cycle) (s : State) : Res :=
  match s.nextDraw with
  | .succeeds => .ok (s.drawn.latched c)
  | .fails => .err e s.drawn

/-- `BusWrite(cmd, b)` (R110, R114): `write_command`'s one cycle (R101). -/
def writeCommand (b : Byte) (s : State) : Res :=
  match s.transport with
  | .parallel8 =>
    (drive .dc s.par.dcCmdLevel (.bus .command) s).bind fun s =>
    (strobeByte (.bus .command) b s).bind fun s =>
    drive .dc (dataDcLevel s.par) (.bus .command) s
  | .serial => serialCycle (.bus .command) (.cmd b) s

/-- The start of a burst on the parallel transport: DC to the data level, once (R111). -/
def beginBurst (s : State) : Res :=
  match s.transport with
  | .parallel8 => drive .dc (dataDcLevel s.par) (.bus .data) s
  | .serial => .ok s

/-- One data cycle of a burst (R111, R114). -/
def dataCycle (b : Byte) (s : State) : Res :=
  match s.transport with
  | .parallel8 => strobeByte (.bus .data) b s
  | .serial => serialCycle (.bus .data) (.dat b) s

/-- `write_data` (R102, R111): one burst; an empty one drives nothing. -/
def writeData (bs : List Byte) (s : State) : Res :=
  match bs with
  | [] => .ok s
  | b :: rest => (beginBurst s).bind (forEach dataCycle (b :: rest))

/-- The two cycles of a word, most significant byte first (R103). -/
def wordCycles (w : U16) (s : State) : Res :=
  (dataCycle (hi8 w) s).bind (dataCycle (lo8 w))

/-- `write_data_16be` (R103): one burst carrying each word as two bytes; an empty one drives nothing. -/
def writeWords (ws : List U16) (s : State) : Res :=
  match ws with
  | [] => .ok s
  | w :: rest => (beginBurst s).bind (forEach wordCycles (w :: rest))

/-! ## Operations that others are made of -/

/-- `send_command` (42_window_and_pixels R160). -/
def sendCommand (op : Opcode) (s : State) : Res := writeCommand (s.par.opcodes.byte op) s

/-- A command of the enumeration and its parameter bytes: a frame (30_encoding R72). -/
def sendFrame (op : Opcode) (params : List Byte) (s : State) : Res :=
  (sendCommand op s).bind (writeData params)

/-- `set_window` (42_window_and_pixels R162). -/
def setWindow (x0 y0 x1 y1 : U16) (s : State) : Res :=
  (sendFrame .caset (addrParams x0 x1) s).bind (sendFrame .paset (addrParams y0 y1))

/-- `write_pixels` (42_window_and_pixels R163). -/
def writePixels (ws : List U16) (s : State) : Res :=
  (sendCommand .ramwr s).bind (writeWords ws)

/-- `run_entry` (41_control_and_init R137). -/
def runEntry (e : InitEntry) (s : State) : Res :=
  match e with
  | .cmd op params => sendFrame op params s
  | .delay ms => .ok (s.delayMs ms)

end Sys2Proof.Machine
end

