-- ==== Sys2Proof/Machine/Adapter.lean ====
section
/-! DEFINITION. The Drawing Adapter (44_drawing_adapter R210 to R216). -/

namespace Sys2Proof.Machine

/-- One pair of a drawing request (R212): a single-pixel windowed write if it is in bounds, else nothing. -/
def drawPixel (p : DrawPixel) (s : State) : Res :=
  if inBounds s.par s.cfg p then
    (setWindow (coordinate p.x) (coordinate p.y) (coordinate p.x) (coordinate p.y) s).bind
      (writePixels [Config.toRaw16 p.color])
  else .ok s

/-- `draw_iter` (R212). -/
def execDrawIter (pixels : List DrawPixel) (s : State) : Host.Outcome State Fault Refusal :=
  onDriver s (finish .unit (forEach drawPixel pixels s))

/-- `size` (R214): the physical dimensions, whatever the orientation. -/
def execSize (s : State) : Host.Outcome State Fault Refusal :=
  onDriver s (finish (.pair (BitVec.ofNat 16 physW) (BitVec.ofNat 16 physH)) (.ok s))

end Sys2Proof.Machine
end

