-- ==== Sys2Proof/Machine/BusTransport.lean ====
section
/-! DEFINITION. The five operations of the Bus Transport (40_transport R100 to R106). They drive neither CS nor RST and
check neither (R107). -/

namespace Sys2Proof.Machine

/-- `write_command` (R101): one command cycle, whatever the byte. -/
def execWriteCommand (op : Byte) (s : State) : Host.Outcome State Fault Refusal :=
  finish .unit (writeCommand op s)

/-- `write_data` (R102): one burst. -/
def execWriteData (bytes : List Byte) (s : State) : Host.Outcome State Fault Refusal :=
  finish .unit (writeData bytes s)

/-- `write_data_16be` (R103): one burst of big-endian words. -/
def execWriteData16be (words : List U16) (s : State) : Host.Outcome State Fault Refusal :=
  finish .unit (writeWords words s)

/-- A read (R104, R105): 0 under READ_MODE = Stub, with nothing driven; refused under Wired (R106). -/
def readStub (s : State) : Host.Outcome State Fault Refusal :=
  match s.par.readMode with
  | .stub => finish (.byte 0) (.ok s)
  | .wired => .refused .readPathWired

/-- `read_status` (R104). -/
def execReadStatus (s : State) : Host.Outcome State Fault Refusal := readStub s

/-- `read_data` (R105). -/
def execReadData (s : State) : Host.Outcome State Fault Refusal := readStub s

end Sys2Proof.Machine
end

