-- ==== Sys2Proof/Machine/Control.lean ====
section
/-! DEFINITION. Construction, control lines and bring-up (41_control_and_init R130 to R140), and the two init entries the
sequencer runs (R137). -/

namespace Sys2Proof.Machine

/-! ## Construction -/

/-- The state once `new` has driven both lines: every piece of block state as R36 and R330 say. -/
def constructed (t : Transport) (s : State) : State :=
  { s.uninitialize with
    driver := true
    transport := t
    cfg := .reset
    pins := { s.pins with dc := .unknown, wr := .unknown, d := unknownLines }
    seq := none
    ret := .ok .unit }

/-- `new` (R130): CS High, then RST High; an error leaves no driver instance. What it does where one exists already, and that
a `new` that fails leaves the transport, the Configuration, the cursor and the transport's lines what they were, so that the
transport's operations go on with the transport there was, is the model's choice (DESIGN CHOICE, log entry 12; unsafe for a
claim about line levels after it). -/
def execNew (t : Transport) (s : State) : Host.Outcome State Fault Refusal :=
  match (driveCs .high s).bind (driveRst .high) with
  | .ok s => .next (constructed t s)
  | .err e s => .next { s.raise e with driver := false }

/-! ## Control lines -/

/-- `assert_reset` (R131); the drive itself makes `phase` Uninitialized, whether it succeeds or not. -/
def execAssertReset (s : State) : Host.Outcome State Fault Refusal :=
  onDriver s (finish .unit (driveRst .low s))

/-- `deassert_reset` (R132). -/
def execDeassertReset (s : State) : Host.Outcome State Fault Refusal :=
  onDriver s (finish .unit (driveRst .high s))

/-- `enable` (R133). -/
def execEnable (s : State) : Host.Outcome State Fault Refusal :=
  onDriver s (finish .unit (driveCs .low s))

/-- `disable` (R134). -/
def execDisable (s : State) : Host.Outcome State Fault Refusal :=
  onDriver s (finish .unit (driveCs .high s))

/-! ## Bring-up -/

/-- One turn of the sequencer (R135, R137): the entry, then the cursor one further (10_state R28). -/
def sequence (e : InitEntry) (s : State) : Res :=
  (runEntry e s).bind fun s => .ok { s with seq := s.seq.map (· + 1) }

/-- The bring-up protocol before the table (R135): disable, assert reset, hold, deassert reset, hold, enable. -/
def resetPulse (s : State) : Res :=
  (driveCs .high s).bind fun s =>
  (driveRst .low s).bind fun s =>
  (driveRst .high (s.delayMs s.par.resetPulseMs)).bind fun s =>
  driveCs .low (s.delayMs s.par.resetSettleMs)

/-- The table, from a cursor at 0 (R135), and `Ready` at its end (R136); the cursor exists only while `init` runs
(10_state R28; log entry 11). -/
def runTable (s : State) : Res :=
  (forEach sequence s.par.initTable { s with seq := some 0 }).bind fun s =>
  .ok { s with seq := none, phase := .ready }

/-- The bring-up protocol (R135). -/
def bringUp (s : State) : Res :=
  (resetPulse { s.uninitialize with seq := none }).bind runTable

/-- `init` (R135, R136, R140). -/
def execInit (s : State) : Host.Outcome State Fault Refusal :=
  onDriver s (finish .unit (bringUp s))

/-- INIT_CMD (R137): the command, then its parameter bytes. -/
def execInitCmd (op : Opcode) (params : List Byte) (s : State) : Host.Outcome State Fault Refusal :=
  finish .unit (runEntry (.cmd op params) s)

/-- INIT_DELAY (R137): the delay provider is asked, and nothing goes to the bus. -/
def execInitDelay (ms : Nat) (s : State) : Host.Outcome State Fault Refusal :=
  finish .unit (runEntry (.delay ms) s)

end Sys2Proof.Machine
end

