-- ==== Sys2Proof/Machine/Drawing.lean ====
section
/-! DEFINITION. Raw dispatch, the addressing window, pixel streaming and the full-screen fill (42_window_and_pixels R160 to
R169). -/

namespace Sys2Proof.Machine

/-- `send_command` (R160). -/
def execSendCommand (op : Opcode) (s : State) : Host.Outcome State Fault Refusal :=
  onDriver s (finish .unit (sendCommand op s))

/-- `send_data` (R161). -/
def execSendData (bytes : List Byte) (s : State) : Host.Outcome State Fault Refusal :=
  onDriver s (finish .unit (writeData bytes s))

/-- `set_window` (R162). -/
def execSetWindow (x0 y0 x1 y1 : U16) (s : State) : Host.Outcome State Fault Refusal :=
  onDriver s (finish .unit (setWindow x0 y0 x1 y1 s))

/-- `write_pixels` (R163). -/
def execWritePixels (words : List U16) (s : State) : Host.Outcome State Fault Refusal :=
  onDriver s (finish .unit (writePixels words s))

/-- The full-screen fill (R167): the window of the logical dimensions, a memory-write command, `width × height` copies of
the colour, and the no-op that ends the frame. -/
def fillScreen (color : U16) (s : State) : Res :=
  (setWindow 0 0 (s.cfg.width - 1) (s.cfg.height - 1) s).bind fun s₁ =>
  (sendCommand .ramwr s₁).bind fun s₂ =>
  (writeWords (List.replicate (fillCount s.cfg) color) s₂).bind fun s₃ =>
  sendCommand .nop s₃

/-- `fill` (R167). -/
def execFill (color : U16) (s : State) : Host.Outcome State Fault Refusal :=
  onDriver s (finish .unit (fillScreen color s))

end Sys2Proof.Machine
end

