-- ==== Sys2Proof/Machine/Settings.lean ====
section
/-! DEFINITION. The operations on Configuration and its accessors (43_configuration R190 to R198). -/

namespace Sys2Proof.Machine

/-- The frame of a pixel format, and then the Configuration (R190, D13). -/
def setPixelFormat (f : PixelFormat) (s : State) : Res :=
  (sendFrame .colmod [fmtByte f] s).bind fun s =>
  .ok { s with cfg := { s.cfg with pixelFormat := some f } }

/-- `set_pixel_format` (R190). -/
def execSetPixelFormat (f : PixelFormat) (s : State) : Host.Outcome State Fault Refusal :=
  onDriver s (finish .unit (setPixelFormat f s))

/-- The Configuration with an orientation: width and height assigned from its class (R193). -/
def Configuration.oriented (c : Configuration) (o : Orientation) : Configuration :=
  { c with width := o.class.dims.1, height := o.class.dims.2, orientation := o }

/-- The Configuration, and then the frame of an orientation (R192, D13). -/
def setOrientation (o : Orientation) (s : State) : Res :=
  sendFrame .madctl [orientByte o] { s with cfg := s.cfg.oriented o }

/-- `set_orientation` (R192). -/
def execSetOrientation (o : Orientation) (s : State) : Host.Outcome State Fault Refusal :=
  onDriver s (finish .unit (setOrientation o s))

/-- `set_brightness` (R195). -/
def execSetBrightness (level : Byte) (s : State) : Host.Outcome State Fault Refusal :=
  onDriver s (finish .unit (sendFrame .wrdisbv [level] s))

/-- `width` (R196). -/
def execWidth (s : State) : Host.Outcome State Fault Refusal :=
  onDriver s (finish (.word s.cfg.width) (.ok s))

/-- `height` (R197). -/
def execHeight (s : State) : Host.Outcome State Fault Refusal :=
  onDriver s (finish (.word s.cfg.height) (.ok s))

/-- `orientation` (R198). -/
def execOrientation (s : State) : Host.Outcome State Fault Refusal :=
  onDriver s (finish (.orientation s.cfg.orientation) (.ok s))

end Sys2Proof.Machine
end

