-- ==== Sys2Proof/Machine/Wire.lean ====
section
/-! DEFINITION. The wire rows of the opcode table (45_wire_commands, 30_encoding R71): each is one cycle the transport puts
on the bus, and what the panel makes of it. The block's obligation for a command is to send its cycle (45_wire_commands);
log entry 16. -/

namespace Sys2Proof.Machine

/-- The command cycle of a member of the enumeration. -/
def wireCommand (op : Opcode) (s : State) : Host.Outcome State Fault Refusal :=
  finish .unit (sendCommand op s)

/-- NOP (R230): `Cmd(B(NOP))`; as a command cycle it ends an open memory-write frame and changes nothing else of the panel. -/
def execNop (s : State) : Host.Outcome State Fault Refusal :=
  wireCommand .nop s

/-- SWRESET (R231): `Cmd(B(SWRESET))`; `phase` is not changed; the panel's state after it is any value. -/
def execSwreset (s : State) : Host.Outcome State Fault Refusal :=
  wireCommand .swreset s

/-- SLPIN (R232): `Cmd(B(SLPIN))`; the block keeps no sleep state; the panel's state after it is any value. -/
def execSlpin (s : State) : Host.Outcome State Fault Refusal :=
  wireCommand .slpin s

/-- SLPOUT (R233): `Cmd(B(SLPOUT))`; the block keeps no sleep state; the panel's state after it is any value. -/
def execSlpout (s : State) : Host.Outcome State Fault Refusal :=
  wireCommand .slpout s

/-- INVOFF (R234): `Cmd(B(INVOFF))`; the panel's state after it is any value. -/
def execInvoff (s : State) : Host.Outcome State Fault Refusal :=
  wireCommand .invoff s

/-- INVON (R235): `Cmd(B(INVON))`; the panel's state after it is any value. -/
def execInvon (s : State) : Host.Outcome State Fault Refusal :=
  wireCommand .invon s

/-- INVCTR (R236): `Cmd(B(INVCTR))`; the panel's state after it is any value. -/
def execInvctr (s : State) : Host.Outcome State Fault Refusal :=
  wireCommand .invctr s

/-- DISPOFF (R237): `Cmd(B(DISPOFF))`; the panel's state after it is any value. -/
def execDispoff (s : State) : Host.Outcome State Fault Refusal :=
  wireCommand .dispoff s

/-- DISPON (R238): `Cmd(B(DISPON))`; the panel's state after it is any value. -/
def execDispon (s : State) : Host.Outcome State Fault Refusal :=
  wireCommand .dispon s

/-- CASET (R239): `Cmd(B(CASET))`; it opens a column-address frame. -/
def execCaset (s : State) : Host.Outcome State Fault Refusal :=
  wireCommand .caset s

/-- PASET (R240): `Cmd(B(PASET))`; it opens a page-address frame. -/
def execPaset (s : State) : Host.Outcome State Fault Refusal :=
  wireCommand .paset s

/-- RAMWR (R241): `Cmd(B(RAMWR))`; it opens a memory-write frame at the window's start. -/
def execRamwr (s : State) : Host.Outcome State Fault Refusal :=
  wireCommand .ramwr s

/-- RAMRD (R242): `Cmd(B(RAMRD))`; the block cannot read the reply (the read path is a stub); the panel's state after it is any value. -/
def execRamrd (s : State) : Host.Outcome State Fault Refusal :=
  wireCommand .ramrd s

/-- MADCTL (R243): `Cmd(B(MADCTL))`; it opens a memory-access-control frame. -/
def execMadctl (s : State) : Host.Outcome State Fault Refusal :=
  wireCommand .madctl s

/-- IDMOFF (R244): `Cmd(B(IDMOFF))`; the panel's state after it is any value. -/
def execIdmoff (s : State) : Host.Outcome State Fault Refusal :=
  wireCommand .idmoff s

/-- IDMON (R245): `Cmd(B(IDMON))`; the panel's state after it is any value. -/
def execIdmon (s : State) : Host.Outcome State Fault Refusal :=
  wireCommand .idmon s

/-- COLMOD (R246): `Cmd(B(COLMOD))`; it opens a pixel-format frame. -/
def execColmod (s : State) : Host.Outcome State Fault Refusal :=
  wireCommand .colmod s

/-- WRDISBV (R247): `Cmd(B(WRDISBV))`; it opens a brightness frame, which the interpretation does not track. -/
def execWrdisbv (s : State) : Host.Outcome State Fault Refusal :=
  wireCommand .wrdisbv s

/-- PWCTRL1 (R248): `Cmd(B(PWCTRL1))`; the panel's state after it is any value. -/
def execPwctrl1 (s : State) : Host.Outcome State Fault Refusal :=
  wireCommand .pwctrl1 s

/-- PWCTRL2 (R249): `Cmd(B(PWCTRL2))`; the panel's state after it is any value. -/
def execPwctrl2 (s : State) : Host.Outcome State Fault Refusal :=
  wireCommand .pwctrl2 s

/-- PWCTRL3 (R250): `Cmd(B(PWCTRL3))`; the panel's state after it is any value. -/
def execPwctrl3 (s : State) : Host.Outcome State Fault Refusal :=
  wireCommand .pwctrl3 s

/-- VMCTRL1 (R251): `Cmd(B(VMCTRL1))`; the panel's state after it is any value. -/
def execVmctrl1 (s : State) : Host.Outcome State Fault Refusal :=
  wireCommand .vmctrl1 s

/-- PGAMCTRL (R252): `Cmd(B(PGAMCTRL))`; the panel's state after it is any value. -/
def execPgamctrl (s : State) : Host.Outcome State Fault Refusal :=
  wireCommand .pgamctrl s

/-- NGAMCTRL (R253): `Cmd(B(NGAMCTRL))`; the panel's state after it is any value. -/
def execNgamctrl (s : State) : Host.Outcome State Fault Refusal :=
  wireCommand .ngamctrl s

/-- DGAMCTRL (R254): `Cmd(B(DGAMCTRL))`; the panel's state after it is any value. -/
def execDgamctrl (s : State) : Host.Outcome State Fault Refusal :=
  wireCommand .dgamctrl s

/-- DATA (R71): one data cycle with any byte, as a burst of one (40_transport R111). -/
def execData (b : Byte) (s : State) : Host.Outcome State Fault Refusal :=
  finish .unit (writeData [b] s)

end Sys2Proof.Machine
end

