-- ==== Sys2Proof/Machine/Dispatch.lean ====
section
/-! DEFINITION. One arm for each instruction: a direct call of its meaning. -/

namespace Sys2Proof.Machine

def exec (i : Instr) (s : State) : Host.Outcome State Fault Refusal :=
  match i with
  | .nop => Sys2Proof.Machine.execNop s
  | .swreset => Sys2Proof.Machine.execSwreset s
  | .slpin => Sys2Proof.Machine.execSlpin s
  | .slpout => Sys2Proof.Machine.execSlpout s
  | .invoff => Sys2Proof.Machine.execInvoff s
  | .invon => Sys2Proof.Machine.execInvon s
  | .invctr => Sys2Proof.Machine.execInvctr s
  | .dispoff => Sys2Proof.Machine.execDispoff s
  | .dispon => Sys2Proof.Machine.execDispon s
  | .caset => Sys2Proof.Machine.execCaset s
  | .paset => Sys2Proof.Machine.execPaset s
  | .ramwr => Sys2Proof.Machine.execRamwr s
  | .ramrd => Sys2Proof.Machine.execRamrd s
  | .madctl => Sys2Proof.Machine.execMadctl s
  | .idmoff => Sys2Proof.Machine.execIdmoff s
  | .idmon => Sys2Proof.Machine.execIdmon s
  | .colmod => Sys2Proof.Machine.execColmod s
  | .wrdisbv => Sys2Proof.Machine.execWrdisbv s
  | .pwctrl1 => Sys2Proof.Machine.execPwctrl1 s
  | .pwctrl2 => Sys2Proof.Machine.execPwctrl2 s
  | .pwctrl3 => Sys2Proof.Machine.execPwctrl3 s
  | .vmctrl1 => Sys2Proof.Machine.execVmctrl1 s
  | .pgamctrl => Sys2Proof.Machine.execPgamctrl s
  | .ngamctrl => Sys2Proof.Machine.execNgamctrl s
  | .dgamctrl => Sys2Proof.Machine.execDgamctrl s
  | .data b => Sys2Proof.Machine.execData b s
  | .writeCommand op => Sys2Proof.Machine.execWriteCommand op s
  | .writeData bytes => Sys2Proof.Machine.execWriteData bytes s
  | .writeData16be words => Sys2Proof.Machine.execWriteData16be words s
  | .readStatus => Sys2Proof.Machine.execReadStatus s
  | .readData => Sys2Proof.Machine.execReadData s
  | .new transport => Sys2Proof.Machine.execNew transport s
  | .assertReset => Sys2Proof.Machine.execAssertReset s
  | .deassertReset => Sys2Proof.Machine.execDeassertReset s
  | .enable => Sys2Proof.Machine.execEnable s
  | .disable => Sys2Proof.Machine.execDisable s
  | .init => Sys2Proof.Machine.execInit s
  | .sendCommand op => Sys2Proof.Machine.execSendCommand op s
  | .sendData bytes => Sys2Proof.Machine.execSendData bytes s
  | .setWindow x0 y0 x1 y1 => Sys2Proof.Machine.execSetWindow x0 y0 x1 y1 s
  | .writePixels words => Sys2Proof.Machine.execWritePixels words s
  | .fill color => Sys2Proof.Machine.execFill color s
  | .setPixelFormat format => Sys2Proof.Machine.execSetPixelFormat format s
  | .setOrientation orientation => Sys2Proof.Machine.execSetOrientation orientation s
  | .setBrightness level => Sys2Proof.Machine.execSetBrightness level s
  | .width => Sys2Proof.Machine.execWidth s
  | .height => Sys2Proof.Machine.execHeight s
  | .orientation => Sys2Proof.Machine.execOrientation s
  | .drawIter pixels => Sys2Proof.Machine.execDrawIter pixels s
  | .size => Sys2Proof.Machine.execSize s
  | .initCmd op params => Sys2Proof.Machine.execInitCmd op params s
  | .initDelay ms => Sys2Proof.Machine.execInitDelay ms s

end Sys2Proof.Machine
end

