-- ==== Sys2Proof/Machine/Step.lean ====
section
/-! DEFINITION. One step: the block begins the next operation the host has asked for and runs it to completion (00_scope
R16). There is no program and no program counter (10_state R28). -/

namespace Sys2Proof.Machine

/-- The state with its first request taken. -/
def State.taken (s : State) : State := { s with port := s.port.tail }

/-- One step. With nothing asked for, the block waits (70_reset_and_hazards R331). -/
def step (s : State) : Host.Outcome State Fault Refusal :=
  match s.port with
  | [] => .next s
  | r :: _ =>
    match decodeRequest s.par.opcodes r with
    | .ok i => exec i s.taken
    | .error e => .refused (.badRequest e)

/-- The state with a bus cycle as the host's next request, numbered as the opcode table numbers a wire row: bits 7..0 the
byte, bit 8 the command/data select. -/
def State.withFetchWord (s : State) (nbits w : Nat) : State :=
  { s with port := .cycle (BitVec.ofNat 9 (w % 2 ^ nbits)) :: s.port }

end Sys2Proof.Machine
end

