-- ==== Sys2Proof/Safety.lean ====
section
/-! DEFINITION. The terms the claims are stated in: what each operation puts on the bus (30_encoding R82), what an operation
on the bus leaves unchanged, what it can raise (60_exceptions R302), and when the panel's memory is determined
(46_panel_reference R280). -/

namespace Sys2Proof.Machine

/-! ## What the environment does -/

/-- Every coming pin drive succeeds. -/
abbrev State.pinsHold (s : State) : Prop := ∀ d ∈ s.draws, d = Draw.succeeds

/-! ## What each operation sends -/

/-- A frame (30_encoding R72): a command cycle and its data cycles. -/
def frameCycles (B : OpcodeBytes) (op : Opcode) (params : List Byte) : List Cycle :=
  .cmd (B.byte op) :: params.map .dat

/-- The two frames of `set_window` (R82). -/
def windowCycles (B : OpcodeBytes) (x0 y0 x1 y1 : U16) : List Cycle :=
  frameCycles B .caset (addrParams x0 x1) ++ frameCycles B .paset (addrParams y0 y1)

/-- The frame of `write_pixels` (R82). -/
def pixelCycles (B : OpcodeBytes) (ws : List U16) : List Cycle :=
  frameCycles B .ramwr (streamBytes ws)

/-- The frames of `fill` (R82). -/
def fillCycles (B : OpcodeBytes) (c : Configuration) (color : U16) : List Cycle :=
  windowCycles B 0 0 (c.width - 1) (c.height - 1) ++
    (pixelCycles B (List.replicate (fillCount c) color) ++ frameCycles B .nop [])

/-- The frames of one pair of `draw_iter` (R82): none if it is out of bounds. -/
def drawCycles (P : Params) (c : Configuration) (p : DrawPixel) : List Cycle :=
  if inBounds P c p then
    windowCycles P.opcodes (coordinate p.x) (coordinate p.y) (coordinate p.x) (coordinate p.y) ++
      pixelCycles P.opcodes [Config.toRaw16 p.color]
  else []

/-- The events of an init entry (R82). -/
def entryEvents (B : OpcodeBytes) : InitEntry → List Event
  | .cmd op params => (frameCycles B op params).map Cycle.event
  | .delay ms => [.delay ms]

/-- The events of `init` before the table (41_control_and_init R135). -/
def pulseEvents (P : Params) : List Event :=
  [.pin .cs .high, .pin .rst .low, .delay P.resetPulseMs, .pin .rst .high, .delay P.resetSettleMs, .pin .cs .low]

/-- The events of a list of init entries (R82). -/
def tableEvents (B : OpcodeBytes) (t : List InitEntry) : List Event := t.flatMap (entryEvents B)

/-- The events of `init` (41_control_and_init R135). -/
def bringUpEvents (P : Params) : List Event := pulseEvents P ++ tableEvents P.opcodes P.initTable

/-- The cycles an operation that only drives the bus sends, with the Configuration it begins with (R82); none for the
other operations. -/
def busCycles (P : Params) (c : Configuration) : Instr → List Cycle
  | .nop => frameCycles P.opcodes .nop []
  | .swreset => frameCycles P.opcodes .swreset []
  | .slpin => frameCycles P.opcodes .slpin []
  | .slpout => frameCycles P.opcodes .slpout []
  | .invoff => frameCycles P.opcodes .invoff []
  | .invon => frameCycles P.opcodes .invon []
  | .invctr => frameCycles P.opcodes .invctr []
  | .dispoff => frameCycles P.opcodes .dispoff []
  | .dispon => frameCycles P.opcodes .dispon []
  | .caset => frameCycles P.opcodes .caset []
  | .paset => frameCycles P.opcodes .paset []
  | .ramwr => frameCycles P.opcodes .ramwr []
  | .ramrd => frameCycles P.opcodes .ramrd []
  | .madctl => frameCycles P.opcodes .madctl []
  | .idmoff => frameCycles P.opcodes .idmoff []
  | .idmon => frameCycles P.opcodes .idmon []
  | .colmod => frameCycles P.opcodes .colmod []
  | .wrdisbv => frameCycles P.opcodes .wrdisbv []
  | .pwctrl1 => frameCycles P.opcodes .pwctrl1 []
  | .pwctrl2 => frameCycles P.opcodes .pwctrl2 []
  | .pwctrl3 => frameCycles P.opcodes .pwctrl3 []
  | .vmctrl1 => frameCycles P.opcodes .vmctrl1 []
  | .pgamctrl => frameCycles P.opcodes .pgamctrl []
  | .ngamctrl => frameCycles P.opcodes .ngamctrl []
  | .dgamctrl => frameCycles P.opcodes .dgamctrl []
  | .data b => [.dat b]
  | .writeCommand op => [.cmd op]
  | .writeData bytes => bytes.map .dat
  | .writeData16be words => (streamBytes words).map .dat
  | .sendCommand op => frameCycles P.opcodes op []
  | .sendData bytes => bytes.map .dat
  | .setWindow x0 y0 x1 y1 => windowCycles P.opcodes x0 y0 x1 y1
  | .writePixels words => pixelCycles P.opcodes words
  | .fill color => fillCycles P.opcodes c color
  | .setPixelFormat f => frameCycles P.opcodes .colmod [fmtByte f]
  | .setOrientation o => frameCycles P.opcodes .madctl [orientByte o]
  | .setBrightness level => frameCycles P.opcodes .wrdisbv [level]
  | .drawIter pixels => pixels.flatMap (drawCycles P c)
  | .initCmd op params => frameCycles P.opcodes op params
  | .initDelay _ => []
  | .readStatus => []
  | .readData => []
  | .new _ => []
  | .assertReset => []
  | .deassertReset => []
  | .enable => []
  | .disable => []
  | .init => []
  | .width => []
  | .height => []
  | .orientation => []
  | .size => []

/-- The events of an operation that succeeds (R82; 41_control_and_init R130 to R137), with the Configuration it begins
with. -/
def emits (P : Params) (c : Configuration) (i : Instr) : List Event :=
  match i with
  | .new _ => [.pin .cs .high, .pin .rst .high]
  | .assertReset => [.pin .rst .low]
  | .deassertReset => [.pin .rst .high]
  | .enable => [.pin .cs .low]
  | .disable => [.pin .cs .high]
  | .init => bringUpEvents P
  | .initDelay ms => [.delay ms]
  | i => (busCycles P c i).map Cycle.event

/-- What an operation that succeeds returns (00_scope R13), with the Configuration it begins with. -/
def gives (c : Configuration) (i : Instr) : Value :=
  match i with
  | .readStatus => .byte 0
  | .readData => .byte 0
  | .width => .word c.width
  | .height => .word c.height
  | .orientation => .orientation c.orientation
  | .size => .pair 320 480
  | _ => .unit

/-- The errors an operation can raise (60_exceptions R302); for the wire rows and the init entries, which R302 does not
list, those of the transport's operation that sends them. -/
def mayRaise (i : Instr) : List Error :=
  match i with
  | .new _ => [.cs, .reset]
  | .assertReset => [.reset]
  | .deassertReset => [.reset]
  | .enable => [.cs]
  | .disable => [.cs]
  | .init => [.cs, .reset, .bus .command, .bus .data]
  | .writeCommand _ => [.bus .command]
  | .sendCommand _ => [.bus .command]
  | .writeData _ => [.bus .data]
  | .writeData16be _ => [.bus .data]
  | .sendData _ => [.bus .data]
  | .data _ => [.bus .data]
  | .setWindow _ _ _ _ => [.bus .command, .bus .data]
  | .writePixels _ => [.bus .command, .bus .data]
  | .setPixelFormat _ => [.bus .command, .bus .data]
  | .setOrientation _ => [.bus .command, .bus .data]
  | .setBrightness _ => [.bus .command, .bus .data]
  | .fill _ => [.bus .command, .bus .data]
  | .drawIter _ => [.bus .command, .bus .data]
  | .initCmd _ _ => [.bus .command, .bus .data]
  | .initDelay _ => []
  | .readStatus => []
  | .readData => []
  | .width => []
  | .height => []
  | .orientation => []
  | .size => []
  | _ => [.bus .command]

/-! ## Which operations do what -/

/-- The operations of the Controller Driver and the Drawing Adapter but `new`: they are called on a driver instance. -/
def callsDriver (i : Instr) : Bool :=
  match i with
  | .assertReset => true
  | .deassertReset => true
  | .enable => true
  | .disable => true
  | .init => true
  | .sendCommand _ => true
  | .sendData _ => true
  | .setWindow _ _ _ _ => true
  | .writePixels _ => true
  | .fill _ => true
  | .setPixelFormat _ => true
  | .setOrientation _ => true
  | .setBrightness _ => true
  | .width => true
  | .height => true
  | .orientation => true
  | .drawIter _ => true
  | .size => true
  | _ => false

/-- The operations that drive chip-select or reset (41_control_and_init). -/
def drivesControl (i : Instr) : Bool :=
  match i with
  | .new _ => true
  | .assertReset => true
  | .deassertReset => true
  | .enable => true
  | .disable => true
  | .init => true
  | _ => false

/-- The operations that write the Configuration: `new` creates it, and it is "mutated only by" the other two
(41_control_and_init R139). -/
def writesConfiguration (i : Instr) : Bool :=
  match i with
  | .new _ => true
  | .setPixelFormat _ => true
  | .setOrientation _ => true
  | _ => false

/-- The Configuration after an operation, whether it succeeded or not (43_configuration R190, R192; 41 R130). -/
def configurationAfter (c : Configuration) (ok : Bool) (i : Instr) : Configuration :=
  match i with
  | .new _ => if ok then .reset else c
  | .setPixelFormat f => if ok then { c with pixelFormat := some f } else c
  | .setOrientation o => c.oriented o
  | _ => c

/-- Whether an operation succeeded. -/
def Ret.isOk : Ret → Bool
  | .ok _ => true
  | .err _ => false

/-! ## What an operation on the bus leaves -/

/-- The transcript-level reading of a list of cycles: each is recorded and put before the panel (10_state R33,
46_panel_reference R271), with no line driven. -/
def State.heard (s : State) (l : List Cycle) : State := l.foldl State.latched s

/-- `t` is `s` after the cycles `l` were put on the bus: they are the new end of the transcript, the panel has heard
them, draws have been used, the transport's lines may have changed, and nothing else has. -/
structure Sent (l : List Cycle) (s t : State) : Prop where
  driver : t.driver = s.driver
  transport : t.transport = s.transport
  cfg : t.cfg = s.cfg
  cs : t.pins.cs = s.pins.cs
  rst : t.pins.rst = s.pins.rst
  seq : t.seq = s.seq
  phase : t.phase = s.phase
  ret : t.ret = s.ret
  par : t.par = s.par
  port : t.port = s.port
  trace : t.trace = s.trace ++ l.map Cycle.event
  panel : t.panel = (s.heard l).panel
  free : t.free = s.free + l.length
  draws : t.draws <:+ s.draws

/-- Where an error of the bus stops an operation that sends the cycles `l`, after `k` of them (40_transport R113,
60_exceptions R301): a command cycle's failure is tagged Command and stops it before that cycle or, at the DC restore,
after its latch; a data cycle's failure is tagged Data and stops it before that cycle. -/
def failsAt (e : Error) (k l : List Cycle) : Prop :=
  (e = .bus .command ∧ k <+: l ∧ ((∃ b rest, l = k ++ .cmd b :: rest) ∨ ∃ b first, k = first ++ [.cmd b])) ∨
  (e = .bus .data ∧ ∃ b rest, l = k ++ .dat b :: rest)

/-! ## The acts of an operation -/

/-- One act of an operation: a drive of a line, the error that its failure raises (60_exceptions R301) and the event that its
success appends, if any (00_scope R12, 40_transport R112); or a delay, which cannot fail (60_exceptions R316). A cycle of the
serial transport is one drive with no line, since its lines are not modelled (40_transport R114, log entry 10). -/
inductive Act where
  | drive (line : Option Pin) (error : Error) (event : Option Event)
  | delay (ms : Nat)
  deriving DecidableEq, Repr

/-- Whether an act takes a draw of the environment. -/
def Act.isDrive : Act → Bool
  | .drive _ _ _ => true
  | .delay _ => false

/-- The events of an act that succeeds. -/
def Act.events : Act → List Event
  | .drive _ _ event => event.toList
  | .delay ms => [.delay ms]

/-- How many draws a list of acts takes. -/
def driveCount (l : List Act) : Nat := l.countP Act.isDrive

/-- The acts that put a byte on the data lines and strobe it: the last latches the cycle (40_transport R110 to R112). -/
def byteActs (P : Params) (e : Error) (c : Cycle) : List Act :=
  (lineOrder P.dataOrder).map (fun i => .drive (some (.d i)) e none) ++
    [.drive (some .wr) e none, .drive (some .wr) e (some c.event)]

/-- The acts of a list of cycles, in order (40_transport R110, R111, R114): a command cycle drives DC before and after its
byte; a data cycle drives DC first unless a burst is open. -/
def cycleActs (k : Transport) (P : Params) : Bool → List Cycle → List Act
  | _, [] => []
  | _, .cmd b :: rest =>
    (match k with
      | .parallel8 =>
        .drive (some .dc) (.bus .command) none ::
          (byteActs P (.bus .command) (.cmd b) ++ [.drive (some .dc) (.bus .command) none])
      | .serial => [.drive none (.bus .command) (some (.cmd b))]) ++ cycleActs k P false rest
  | burst, .dat b :: rest =>
    (match k with
      | .parallel8 => (if burst then [] else [.drive (some .dc) (.bus .data) none]) ++ byteActs P (.bus .data) (.dat b)
      | .serial => [.drive none (.bus .data) (some (.dat b))]) ++ cycleActs k P true rest

/-- The act of a drive of chip-select (41_control_and_init R133, R134). -/
def csAct (l : Level) : Act := .drive (some .cs) .cs (some (.pin .cs l))

/-- The act of a drive of reset (41_control_and_init R131, R132). -/
def rstAct (l : Level) : Act := .drive (some .rst) .reset (some (.pin .rst l))

/-- The acts of an init entry (41_control_and_init R137). -/
def entryActs (k : Transport) (P : Params) : InitEntry → List Act
  | .cmd op params => cycleActs k P false (frameCycles P.opcodes op params)
  | .delay ms => [.delay ms]

/-- The acts of an operation, in order, if none fails, with the Configuration it begins with (00_scope R12,
41_control_and_init R130 to R137). -/
def actsOf (k : Transport) (P : Params) (c : Configuration) (i : Instr) : List Act :=
  match i with
  | .new _ => [csAct .high, rstAct .high]
  | .assertReset => [rstAct .low]
  | .deassertReset => [rstAct .high]
  | .enable => [csAct .low]
  | .disable => [csAct .high]
  | .init =>
    [csAct .high, rstAct .low, .delay P.resetPulseMs, rstAct .high, .delay P.resetSettleMs, csAct .low] ++
      P.initTable.flatMap (entryActs k P)
  | .initDelay ms => [.delay ms]
  | i => cycleActs k P false (busCycles P c i)

/-- The level of a line (there are eight data lines). -/
def Pins.level? (p : Pins) : Pin → Option LineState
  | .cs => some p.cs
  | .rst => some p.rst
  | .dc => some p.dc
  | .wr => some p.wr
  | .d i => p.d[i]?

/-- How an operation with the acts `l` stopped from `s` with the error `e`: at the first drive whose draw fails, with that
drive's error; the acts before it have appended their events and nothing more is appended; its line is Unknown (10_state R32,
40_transport R113, 60_exceptions R303, R305). -/
def stoppedAt (l : List Act) (s : State) (e : Error) (t : State) : Prop :=
  ∃ done line event rest, l = done ++ .drive line e event :: rest ∧
    s.draws = List.replicate (driveCount done) .succeeds ++ .fails :: t.draws ∧
    t.trace = s.trace ++ done.flatMap Act.events ∧ ∀ p, line = some p → t.pins.level? p = some .unknown

/-- How an operation with the acts `l` ran from `s` to its end: none of its draws fails, they alone are used, and its acts'
events are appended. -/
def ranThrough (l : List Act) (s t : State) : Prop :=
  (∀ d ∈ s.draws.take (driveCount l), d = .succeeds) ∧ t.draws = s.draws.drop (driveCount l) ∧
    t.trace = s.trace ++ l.flatMap Act.events

/-! ## Operations on the bus -/

/-- Everything an operation on the bus can do at `s`: it answers a next state; if the pins hold it succeeds; if it
succeeds it has sent the cycles `l`, from `done` (the state before, with what it writes on success), and no draw of its drives
failed; if not, it has sent those before the failure, from `failed` (the state before, with what it writes first), it stopped
at the first drive whose draw fails, which settles what those are, and the error is taken. -/
def BusOperation (i : Instr) (l : List Cycle) (s done failed : State) : Prop :=
  ∃ t, exec i s = .next t ∧ (s.pinsHold → t.ret = .ok .unit) ∧
    ((t.ret = .ok .unit ∧ Sent l done t ∧ ranThrough (cycleActs s.transport s.par false l) s t) ∨
      ∃ e k u, failsAt e k l ∧ Sent k failed u ∧ stoppedAt (cycleActs s.transport s.par false l) s e u ∧ t = u.raise e)

/-! ## After an operation -/

/-- The state with the result `Ok ()` and nothing else changed. -/
def State.okay (s : State) : State := { s with ret := .ok .unit }

/-- The transport's lines after a successful command cycle on the parallel transport (40_transport R110). -/
def Pins.afterCommand (p : Pins) (P : Params) (b : Byte) : Pins :=
  { p with dc := .known (dataDcLevel P), wr := .known .high, d := linesOf b }

/-! ## Invariants -/

/-- The Configuration invariant of 10_state R24. -/
abbrev Configuration.legal (c : Configuration) : Prop :=
  c.width.toNat * c.height.toNat = 153600 ∧ (c.width, c.height) = c.orientation.class.dims

/-- The last drive of a control line that the transcript records. -/
def lastDrive (line : ControlLine) (tr : List Event) : Option Level :=
  tr.reverse.findSome? fun e => match e with
    | .pin k l => if k = line then some l else none
    | _ => none

/-- A Known level of CS or RST is that of the last drive recorded. -/
abbrev State.linesFollow (s : State) : Prop :=
  (∀ l, s.pins.cs = .known l → lastDrive .cs s.trace = some l) ∧
  (∀ l, s.pins.rst = .known l → lastDrive .rst s.trace = some l)

/-- What holds of a Ready block: a driver exists, the reset line is Known High, and the sequencer does not run. -/
abbrev State.readySound (s : State) : Prop :=
  s.phase = .ready → s.driver = true ∧ s.pins.rst = .known .high ∧ s.seq = none

/-- The cursor, where there is one, stands on an entry of the table (10_state R28). -/
abbrev State.cursorSound (s : State) : Prop :=
  ∀ i, s.seq = some i → i < s.par.initTable.length

/-! ## When the panel's memory is determined -/

/-- The panel hears the block and is tracked: `Ready`, selected, and not in reset (46_panel_reference R271, R280). -/
abbrev State.listening (s : State) : Prop :=
  s.phase = .ready ∧ s.pins.cs = .known .low ∧ s.pins.rst = .known .high

/-- No pixel of the open frame waits for its second byte (46_panel_reference R276). -/
abbrev Panel.settled (P : Params) (p : Panel) : Prop :=
  P.opcodes.opcode? p.regs.frameOp = some .ramwr → p.regs.pairHi = none

/-- The first byte of a pixel waits in an open memory-write frame, and the pixel's cell is `a` (46_panel_reference R276). -/
abbrev Panel.awaits (P : Params) (p : Panel) (a : Nat) : Prop :=
  P.opcodes.opcode? p.regs.frameOp = some .ramwr ∧ p.regs.pairHi.isSome ∧ placement P p.regs = .cell a

/-- The conditions of 46_panel_reference R280 on the panel: format 0x55, and the memory-access-control byte of the
Configuration's orientation. -/
abbrev State.panelAgrees (s : State) : Prop :=
  s.panel.regs.colmod = 0x55 ∧ s.panel.regs.madctl = orientByte s.cfg.orientation

/-- The display memory with one pair of a drawing request painted, if it is in bounds (46_panel_reference R281). -/
def painted (P : Params) (c : Configuration) (m : Byte) (g : Memory) (p : DrawPixel) : Memory :=
  if inBounds P c p then
    match physical P m p.x.toNat p.y.toNat with
    | some a => g.write a (Config.toRaw16 p.color)
    | none => g
  else g

/-- The commands whose frames the interpretation does not model (46_panel_reference R275). -/
def unmodelledOpcodes : List Opcode :=
  [.swreset, .slpin, .slpout, .invoff, .invon, .invctr, .dispoff, .dispon, .ramrd] ++
  [.idmoff, .idmon, .pwctrl1, .pwctrl2, .pwctrl3, .vmctrl1, .pgamctrl, .ngamctrl, .dgamctrl]

/-! ## Outcomes without the panel -/

/-- The state with the panel, and the count of the free values it took, left out. -/
def State.block (s : State) : State := { s with panel := ⟨default, []⟩, free := 0 }

/-- An outcome with the panel left out. -/
def blockOutcome : Host.Outcome State Fault Refusal → Host.Outcome State Fault Refusal
  | .next s => .next s.block
  | .fault r => .fault r
  | .refused r => .refused r

end Sys2Proof.Machine
end

