-- ==== Sys2Proof/Certificates/Slice0/Obligations.lean ====
section
/-! DEFINITION. The statements for the provers, from the numbered rules of spec/. Each docstring names the rule; the terms are
those of Sys2Proof/Safety.lean. -/

open Sys2Proof Sys2Proof.Machine

/-! ## Fetching, decoding, reset -/

/-- 60_exceptions R318, 70_reset_and_hazards R331: a step runs the instruction the host's next request decodes to, with that
request taken; a request that decodes to none is refused by name; with no request the block waits. The port of requests is
the model's choice (log entry 14). -/
def Obligations.StepRunsDecodedRequest : Prop :=
  (∀ (s : State) (r : Request) (rest : List Request) (i : Instr), s.port = r :: rest →
    decodeRequest s.par.opcodes r = .ok i → step s = exec i { s with port := rest }) ∧
  (∀ (s : State) (r : Request) (rest : List Request) (e : DecodeError), s.port = r :: rest →
    decodeRequest s.par.opcodes r = .error e → step s = .refused (.badRequest e)) ∧
  (∀ s : State, s.port = [] → step s = .next s)

/-- Words written out from the bit patterns of the opcode table (30_encoding R70, R74) and lines from R85. The bytes are the
default map of R74 (log entry 2), bit 8 is the model's choice (log entry 14), and the details of the text are those of log
entry 32. -/
def Obligations.WrittenOutWordsDecode : Prop :=
  decodeTableWord 8 0b00000000 = some .nop ∧ decodeTableWord 8 0b00101010 = some .caset ∧
  decodeTableWord 8 0b00101011 = some .paset ∧ decodeTableWord 8 0b00101100 = some .ramwr ∧
  decodeTableWord 8 0b00110110 = some .madctl ∧ decodeTableWord 8 0b11100010 = some .dgamctrl ∧
  decodeTableWord 9 0b100101100 = some (.data 0x2C) ∧
  decodeRequest .datasheet (.text "set_window 10, 20, 11, 21") = .ok (.setWindow 10 20 11 21) ∧
  decodeRequest .datasheet (.text "send_command NOP          ; close the memory-write frame") = .ok (.sendCommand .nop) ∧
  decodeRequest .datasheet (.text "write_pixels [0xF800, 0x07E0, 0x001F, 0xFFFF]") =
    .ok (.writePixels [0xF800, 0x07E0, 0x001F, 0xFFFF])

/-- 30_encoding R70, R71, R75, R85: with an injective opcode map, decoding what an instruction is encoded as gives it back,
for every instruction and every operand. The two init entries' lines are the model's choice (log entry 32). -/
def Obligations.DecodeOfEncodeIsIdentity : Prop :=
  ∀ (B : OpcodeBytes) (i : Instr), B.injective = true → decodeRequest B (encode B i) = .ok i

/-- 30_encoding R71, R74, R83: every 9-bit cycle word is the data cycle of its byte, the command cycle of the member its row
stands for, or the command cycle of a byte that is no member's. Reading the last as `write_command` is the model's choice
(log entry 15). -/
def Obligations.EveryCycleWordIsReadWhole : Prop :=
  ∀ (B : OpcodeBytes) (w : CycleWord),
    (decodeCycle B w = .data w.byte ∧ w = CycleWord.mk true w.byte) ∨
    (∃ op, decodeCycle B w = op.wire ∧ w = CycleWord.mk false (B.byte op)) ∨
    (decodeCycle B w = .writeCommand w.byte ∧ w = CycleWord.mk false w.byte ∧ ∀ op, B.byte op ≠ w.byte)

/-- 10_state R36: the values of the table after `new` returned Ok. The panel is the free value of PANEL_RESET_STATE, with no
cell determined (log entries 19 and 29). -/
def Obligations.ResetIsTheStateAfterNew : Prop :=
  State.reset.cfg.width = 320 ∧ State.reset.cfg.height = 480 ∧ State.reset.cfg.orientation = .portrait ∧
  State.reset.cfg.pixelFormat = none ∧ State.reset.pins.cs = .known .high ∧ State.reset.pins.rst = .known .high ∧
  State.reset.pins.dc = .unknown ∧ State.reset.pins.wr = .unknown ∧
  (∀ i, ∀ h : i < 8, State.reset.pins.d[i] = .unknown) ∧ State.reset.seq = none ∧
  State.reset.phase = .uninitialized ∧ State.reset.trace = [.pin .cs .high, .pin .rst .high] ∧
  State.reset.par.readMode = .stub ∧ State.reset.panel.regs = Config.panelResetState ∧
  ∀ a, State.reset.panel.gram.read a = none

/-- The model's choice (log entries 2, 4 and 5) of the parameters at reset meets the constraints of 00_scope R9, 30_encoding
R75 and 41_control_and_init R138. -/
def Obligations.ResetParametersMeetTheirConstraints : Prop :=
  State.reset.par.wellFormed = true

/-! ## Invariants of every step -/

/-- 10_state §1 (R20, R21, R22) and 43_configuration R193: the Configuration invariant, which R24 states and marks in part
as its own inference, holds at reset and every step keeps it. -/
def Obligations.ConfigurationInvariantIsKept : Prop :=
  State.reset.cfg.legal ∧ ∀ s t : State, s.cfg.legal → step s = .next t → t.cfg.legal

/-- 46_panel_reference R272: the display memory is in its canonical form, with cells of the panel only, at reset and after
every step. The form is the model's choice (log entry 29). -/
def Obligations.DisplayMemoryStaysCanonical : Prop :=
  Memory.wf State.reset.panel.gram ∧
  ∀ s t : State, Memory.wf s.panel.gram → step s = .next t → Memory.wf t.panel.gram

/-- 10_state R28, R29, R30: a Ready block has a driver, its reset line Known High, and no running sequencer; at reset, and
kept by every step. That the cursor is absent after an `init` that succeeds is log entry 11. -/
def Obligations.ReadyStateIsSound : Prop :=
  State.reset.readySound ∧ ∀ s t : State, s.readySound → step s = .next t → t.readySound

/-- 00_scope R12, 10_state R32, R33, 46_panel_reference R271: a Known level of chip-select or reset is that of the last
drive of it the transcript records; at reset, and kept by every step. -/
def Obligations.KnownLevelsFollowTheTranscript : Prop :=
  State.reset.linesFollow ∧ ∀ s t : State, s.linesFollow → step s = .next t → t.linesFollow

/-- 10_state R28: the sequencer's cursor, where there is one, stands on an entry of the table; at reset, and kept by every
step (log entry 11). -/
def Obligations.CursorStaysInTheTable : Prop :=
  State.reset.cursorSound ∧ ∀ s t : State, s.cursorSound → step s = .next t → t.cursorSound

/-- 10_state R33: events are only ever appended to the transcript. -/
def Obligations.TranscriptOnlyGrows : Prop :=
  ∀ s t : State, step s = .next t → s.trace <+: t.trace

/-- 00_scope R9, 20_memory R57: no step writes a parameter, the Initialization Table among them. That State carries them is
log entry 1. -/
def Obligations.ParametersAreNeverWritten : Prop :=
  ∀ s t : State, step s = .next t → t.par = s.par

/-! ## All instructions -/

/-- 30_encoding R82, 60_exceptions R303, R305: whatever the draws, an operation appends a first part of its events, and all
of them if it succeeds. The events of the wire rows and of the init entries rest on log entries 16 and 17. -/
def Obligations.FailedTranscriptIsAPrefix : Prop :=
  ∀ (i : Instr) (s t : State), exec i s = .next t →
    ∃ p, t.trace = s.trace ++ p ∧ p <+: emits s.par s.cfg i ∧ (t.ret.isOk = true → p = emits s.par s.cfg i)

/-- Every instruction completes: with a driver instance, pins that hold and the read stub, each of the 52 answers a next
state with its own events, result and Configuration (30_encoding R82, 41 R130 to R137, 43 R190 to R198, 44 R212, R214). That
no more draws means success is log entry 6; what the wire rows and the init entries mean as instructions, log entries 16 and
17. With an instance there already, `new` is here a second `new`, whose effect is the model's choice (log entry 12, DESIGN
CHOICE); the first, where none exists, is in `NewBindsADriver`. -/
def Obligations.EveryInstructionCompletes : Prop :=
  ∀ (i : Instr) (s : State), s.pinsHold → s.driver = true → s.par.readMode = .stub →
    ∃ t, exec i s = .next t ∧ t.ret = .ok (gives s.cfg i) ∧ t.trace = s.trace ++ emits s.par s.cfg i ∧
      t.cfg = configurationAfter s.cfg true i ∧ t.driver = true ∧ t.port = s.port

/-- 40_transport R106, 41_control_and_init R130: an instruction stops only where no driver instance exists and it needs one,
or where it reads under READ_MODE = Wired; everywhere else it answers a next state. Which operations need a driver instance
is log entry 13; that a wired read stops, log entry 31. -/
def Obligations.StopsOnlyWithoutDriverOrWiredRead : Prop :=
  ∀ (i : Instr) (s : State),
    (callsDriver i = true ∧ s.driver = false ∧ exec i s = .fault .noDriver) ∨
    ((i = .readStatus ∨ i = .readData) ∧ s.par.readMode = .wired ∧ exec i s = .refused .readPathWired) ∨
    ((callsDriver i = true → s.driver = true) ∧ (i = .readStatus ∨ i = .readData → s.par.readMode = .stub) ∧
      ∃ t, exec i s = .next t)

/-- 43_configuration R190, R192, 41_control_and_init R130, R139: the Configuration after each operation, succeeding or not:
only `new`, `set_pixel_format` and `set_orientation` write it. R139 is the spec's own inference ("derived"); what `new` does
where a driver exists is log entry 12. -/
def Obligations.ConfigurationAfterEachOperation : Prop :=
  ∀ (i : Instr) (s t : State), exec i s = .next t → t.cfg = configurationAfter s.cfg t.ret.isOk i

/-- 10_state R29, R30, 41_control_and_init R136, 60_exceptions R306: the phase after each operation: Uninitialized after an
error, `assert_reset` and `new`; Ready after an `init` that succeeded; else what it was. -/
def Obligations.PhaseAfterEachOperation : Prop :=
  ∀ (i : Instr) (s t : State), exec i s = .next t →
    t.phase =
      if t.ret.isOk = false then .uninitialized
      else match i with
        | .assertReset => .uninitialized
        | .new _ => .uninitialized
        | .init => .ready
        | _ => s.phase

/-- 60_exceptions R301 and the pseudocode of 40 to 44: the errors each operation can raise, the table of R302, which that
rule marks as inferred. For the wire rows and the init entries, which it does not list: log entries 16 and 17. -/
def Obligations.ErrorsByOperation : Prop :=
  ∀ (i : Instr) (s t : State) (e : Error), exec i s = .next t → t.ret = .err e → e ∈ mayRaise i

/-- 60_exceptions R307, R301, R303, R305, 40_transport R113, 10_state R32: an operation that returned Ok met no failing
drive and appended the events of all its acts; one that returned an error stopped at the first drive that failed, with that
drive's error, the events of the acts before it and no other (a command's cycle is there when the restore of DC after its
latch failed, and not when a drive before the latch did) and its line Unknown, and left the block Uninitialized, the
Configuration what had been written before, and the panel any value. The acts of each operation are R110 to R112 and
41_control_and_init R130 to R137; the draws, the order of the data drives, that the failing line alone is Unknown, the
latching edge, a serial cycle's one draw and the free values are log entries 6, 7, 8, 9, 10 and 19; the wire rows and the
init entries, log entries 16 and 17. -/
def Obligations.StateAfterAnError : Prop :=
  ∀ (i : Instr) (s t : State), exec i s = .next t →
    (t.ret.isOk = true → ranThrough (actsOf s.transport s.par s.cfg i) s t) ∧
    ∀ e, t.ret = .err e →
      stoppedAt (actsOf s.transport s.par s.cfg i) s e t ∧ t.phase = .uninitialized ∧
      t.cfg = configurationAfter s.cfg false i ∧ ∃ n, t.panel = Panel.any n

/-- 46_panel_reference R270, 20_memory R54: the panel does not act on the block: with another panel, an instruction does the
same but for the panel. The panel stands in State by the model's choice (log entry 19). -/
def Obligations.PanelDoesNotActOnTheBlock : Prop :=
  ∀ (i : Instr) (s : State) (p : Panel) (n : Nat),
    blockOutcome (exec i { s with panel := p, free := n }) = blockOutcome (exec i s)

/-- 40_transport R100, R114: the parallel transport, down to its lines, and the serial one show the host and the panel the
same, for every instruction but `new`, which chooses the transport. The latch's level-to-byte reading is log entry 9, the
serial cycle's one draw log entry 10. -/
def Obligations.TransportsAgree : Prop :=
  ∀ (i : Instr) (s : State), (∀ k, i ≠ .new k) → s.pinsHold → s.driver = true → s.par.readMode = .stub →
    ∃ t u, exec i { s with transport := .parallel8 } = .next t ∧ exec i { s with transport := .serial } = .next u ∧
      t.trace = u.trace ∧ t.ret = u.ret ∧ t.cfg = u.cfg ∧ t.phase = u.phase ∧ t.seq = u.seq ∧ t.panel = u.panel ∧
      t.pins.cs = u.pins.cs ∧ t.pins.rst = u.pins.rst

/-- 41_control_and_init R141: only `init`, and a delay entry of its table, asks for a delay. -/
def Obligations.OnlyInitDelays : Prop :=
  ∀ (i : Instr) (s t : State), exec i s = .next t → i ≠ .init → (∀ ms, i ≠ .initDelay ms) →
    ∀ ms, Event.delay ms ∉ t.trace.drop s.trace.length

/-! ## The wire rows and the Bus Transport -/

/-- 45_wire_commands R255, 30_encoding R71, R74: each wire command (NOP, SWRESET, SLPIN, SLPOUT, INVOFF, INVON, INVCTR,
DISPOFF, DISPON, CASET, PASET, RAMWR, RAMRD, MADCTL, IDMOFF, IDMON, COLMOD, WRDISBV, PWCTRL1, PWCTRL2, PWCTRL3, VMCTRL1,
PGAMCTRL, NGAMCTRL, DGAMCTRL) puts its one command cycle on the bus and changes nothing else of the block. That a wire row
means its cycle on the transport is the model's choice (log entry 16). -/
def Obligations.WireCommandsSendTheirCycle : Prop :=
  ∀ (op : Opcode) (s : State), BusOperation op.wire [.cmd (s.par.opcodes.byte op)] s s.okay s

/-- 30_encoding R71, 40_transport R111: DATA puts one data cycle on the bus, whatever the byte. That it is a burst of one is
the model's choice (log entry 16). -/
def Obligations.DataRowSendsItsByte : Prop :=
  ∀ (b : Byte) (s : State), BusOperation (.data b) [.dat b] s s.okay s

/-- 40_transport R101, R110, R113, R114: `write_command` sends one command cycle, whatever the byte and the level of CS; on
the parallel transport it leaves DC at the data level, WR High and the byte on the data lines. Of its twelve drives there
the first that fails decides: up to the eleventh, whose success latches, nothing is appended; at the restore of DC after it,
the cycle is there and DC Unknown; a failure after the twelfth is not its own. On the serial transport one drive sends the
cycle or fails with nothing appended. Which bit a line carries and the latching edge are log entry 9 (PRESUMED), the serial
cycle's one draw log entry 10, and that no more draws means success log entry 6. -/
def Obligations.WriteCommandSendsOneCycle : Prop :=
  ∀ (b : Byte) (s : State), BusOperation (.writeCommand b) [.cmd b] s s.okay s ∧
    (∀ t, exec (.writeCommand b) s = .next t → t.ret = .ok .unit →
      s.transport = .parallel8 → t.pins = s.pins.afterCommand s.par b) ∧
    ∀ n ds, s.draws = List.replicate n .succeeds ++ .fails :: ds → ∃ t, exec (.writeCommand b) s = .next t ∧
      (s.transport = .parallel8 →
        (n < 11 → t.ret = .err (.bus .command) ∧ t.trace = s.trace ∧ t.draws = ds) ∧
        (n = 11 → t.ret = .err (.bus .command) ∧ t.trace = s.trace ++ [.cmd b] ∧ t.draws = ds ∧ t.pins.dc = .unknown) ∧
        (11 < n → t.ret = .ok .unit ∧ t.trace = s.trace ++ [.cmd b])) ∧
      (s.transport = .serial →
        (n = 0 → t.ret = .err (.bus .command) ∧ t.trace = s.trace ∧ t.draws = ds) ∧
        (0 < n → t.ret = .ok .unit ∧ t.trace = s.trace ++ [.cmd b]))

/-- 40_transport R102, R111, R113: `write_data` sends its bytes in order, one cycle a byte; an empty list drives no line; a
burst that is not empty leaves DC at the data level, WR High and the last byte on the parallel transport's data lines. Which
bit a line carries is log entry 9 (PRESUMED). -/
def Obligations.WriteDataSendsItsBytes : Prop :=
  (∀ (bs : List Byte) (s : State), BusOperation (.writeData bs) (bs.map .dat) s s.okay s) ∧
  (∀ s : State, exec (.writeData []) s = .next s.okay) ∧
  (∀ (bs : List Byte) (b : Byte) (s t : State), exec (.writeData (bs ++ [b])) s = .next t → t.ret = .ok .unit →
    s.transport = .parallel8 →
      t.pins = { s.pins with dc := .known (dataDcLevel s.par), wr := .known .high, d := linesOf b })

/-- 40_transport R102, R103: `write_data_16be` sends each word as two cycles, most significant byte first, in one burst;
that it is `write_data` of the bytes, whatever the draws, is what R103 infers from R102 and itself. -/
def Obligations.WordStreamIsItsBytes : Prop :=
  (∀ (ws : List U16) (s : State),
    BusOperation (.writeData16be ws) ((ws.flatMap fun w => [hi8 w, lo8 w]).map .dat) s s.okay s) ∧
  (∀ (ws : List U16) (s : State),
    exec (.writeData16be ws) s = exec (.writeData (ws.flatMap fun w => [hi8 w, lo8 w])) s) ∧
  (∀ w : U16, (hi8 w).toNat = w.toNat / 256 ∧ (lo8 w).toNat = w.toNat % 256)

/-- 40_transport R104, R105, R106: under Stub both reads return 0 and do nothing else; under Wired both are refused. -/
def Obligations.ReadsReturnZeroOrAreRefused : Prop :=
  ∀ s : State,
    (s.par.readMode = .stub → exec .readStatus s = .next { s with ret := .ok (.byte 0) } ∧
      exec .readData s = .next { s with ret := .ok (.byte 0) }) ∧
    (s.par.readMode = .wired → exec .readStatus s = .refused .readPathWired ∧
      exec .readData s = .refused .readPathWired)

/-- 40_transport R107: no transport operation drives CS or RST, and none checks their levels: with any other levels it sends
the same and returns the same. -/
def Obligations.TransportLeavesControlLines : Prop :=
  ∀ (i : Instr) (s t : State) (v w : LineState),
    (∃ b, i = .writeCommand b) ∨ (∃ bs, i = .writeData bs) ∨ (∃ ws, i = .writeData16be ws) ∨ i = .readStatus ∨ i = .readData →
    exec i s = .next t →
      t.pins.cs = s.pins.cs ∧ t.pins.rst = s.pins.rst ∧
      (∀ e ∈ t.trace.drop s.trace.length, ∀ k l, e ≠ .pin k l) ∧
      ∃ u, exec i { s with pins := { s.pins with cs := v, rst := w } } = .next u ∧ u.trace = t.trace ∧ u.ret = t.ret

/-- 40_transport R110, R111: the pin drives a successful operation of the parallel transport makes: 12 for a command cycle;
for a burst 10 a byte and one of DC, none for an empty one. The order of the eight data drives does not matter to it (log
entry 7). -/
def Obligations.DrivesOfTheParallelTransport : Prop :=
  ∀ (s t : State), s.transport = .parallel8 → t.ret = .ok .unit →
    (∀ b, exec (.writeCommand b) s = .next t → t.draws = s.draws.drop 12) ∧
    (∀ b bs, exec (.writeData (b :: bs)) s = .next t → t.draws = s.draws.drop (1 + 10 * (bs.length + 1))) ∧
    (exec (.writeData []) s = .next t → t.draws = s.draws)

/-! ## Construction, control lines, bring-up -/

/-- 41_control_and_init R130: `new` drives CS High and then RST High and leaves every field of 10_state R36; where a drive
fails, the later one is not made, no driver instance exists, and the events before it stay. It says the same where an
instance exists already: the model's choice (log entry 12). -/
def Obligations.NewBindsADriver : Prop :=
  ∀ (k : Transport) (s : State),
    (s.pinsHold → ∃ t, exec (.new k) s = .next t ∧ t.ret = .ok .unit ∧ t.driver = true ∧ t.transport = k ∧
      t.cfg = ⟨320, 480, .portrait, none⟩ ∧ t.pins.cs = .known .high ∧ t.pins.rst = .known .high ∧
      t.pins.dc = .unknown ∧ t.pins.wr = .unknown ∧ (∀ i, ∀ h : i < 8, t.pins.d[i] = .unknown) ∧
      t.seq = none ∧ t.phase = .uninitialized ∧ t.par = s.par ∧ t.port = s.port ∧
      t.trace = s.trace ++ [.pin .cs .high, .pin .rst .high]) ∧
    (∀ ds, s.draws = .fails :: ds → ∃ t, exec (.new k) s = .next t ∧ t.ret = .err .cs ∧ t.driver = false ∧
      t.trace = s.trace ∧ t.pins = { s.pins with cs := .unknown } ∧ t.phase = .uninitialized ∧ t.draws = ds) ∧
    (∀ ds, s.draws = .succeeds :: .fails :: ds → ∃ t, exec (.new k) s = .next t ∧ t.ret = .err .reset ∧
      t.driver = false ∧ t.trace = s.trace ++ [.pin .cs .high] ∧
      t.pins = { s.pins with cs := .known .high, rst := .unknown } ∧ t.phase = .uninitialized ∧ t.draws = ds)

/-- 41_control_and_init R131, R132, R133, R134: the four control-line operations: one drive, its event if it succeeds, the
line's error if it fails, and nothing else; a drive of RST Low makes the block Uninitialized either way. -/
def Obligations.ControlLineOperations : Prop :=
  ∀ s : State, s.driver = true →
    (s.nextDraw = .succeeds →
      exec .assertReset s = .next { s.uninitialize with
        draws := s.draws.tail, pins := { s.pins with rst := .known .low }, trace := s.trace ++ [.pin .rst .low], ret := .ok .unit } ∧
      exec .deassertReset s = .next { s with
        draws := s.draws.tail, pins := { s.pins with rst := .known .high }, trace := s.trace ++ [.pin .rst .high], ret := .ok .unit } ∧
      exec .enable s = .next { s with
        draws := s.draws.tail, pins := { s.pins with cs := .known .low }, trace := s.trace ++ [.pin .cs .low], ret := .ok .unit } ∧
      exec .disable s = .next { s with
        draws := s.draws.tail, pins := { s.pins with cs := .known .high }, trace := s.trace ++ [.pin .cs .high], ret := .ok .unit }) ∧
    (s.nextDraw = .fails →
      exec .assertReset s = .next (State.raise { s.uninitialize with
        draws := s.draws.tail, pins := { s.pins with rst := .unknown } } .reset) ∧
      exec .deassertReset s = .next (State.raise { s with
        draws := s.draws.tail, pins := { s.pins with rst := .unknown } } .reset) ∧
      exec .enable s = .next (State.raise { s with draws := s.draws.tail, pins := { s.pins with cs := .unknown } } .cs) ∧
      exec .disable s = .next (State.raise { s with draws := s.draws.tail, pins := { s.pins with cs := .unknown } } .cs))

/-- 41_control_and_init R135, R136, R139, R140, 10_state R28: `init` runs the bring-up protocol and the table in order and
ends Ready, selected and out of reset with no cursor, or with an error and Uninitialized, after a first part of the events;
which error, and where it stops, is `InitFailsAtItsCursor`. The Configuration is not written either way, which R139 infers.
It answers from every phase. That no cursor is left after success is the model's reading (log entry 11). -/
def Obligations.InitRunsTheBringUp : Prop :=
  ∀ s : State, s.driver = true → ∃ t, exec .init s = .next t ∧ (s.pinsHold → t.ret = .ok .unit) ∧
    t.cfg = s.cfg ∧ t.driver = true ∧ t.transport = s.transport ∧ t.par = s.par ∧ t.port = s.port ∧
    ((t.ret = .ok .unit ∧ t.phase = .ready ∧ t.pins.cs = .known .low ∧ t.pins.rst = .known .high ∧ t.seq = none ∧
        t.trace = s.trace ++ bringUpEvents s.par) ∨
      ((∃ e, t.ret = .err e) ∧ t.phase = .uninitialized ∧ ∃ p, p <+: bringUpEvents s.par ∧ t.trace = s.trace ++ p))

/-- 41_control_and_init R135, R137, 60_exceptions R301, R303, 10_state R28: an `init` that fails returns the error of its
first failing step, and no step after it left an event. Before the table there is no cursor, and the step is a drive of
chip-select after 0 or 5 events, or of reset after 1 or 3; in the table the cursor stands on the failing command entry,
after the events of every entry before it and those of its own cycles that the error lets through. That the cursor then
stays readable is the model's reading (log entry 11). -/
def Obligations.InitFailsAtItsCursor : Prop :=
  ∀ s t : State, s.driver = true → exec .init s = .next t → t.ret.isOk = false →
    (t.seq = none ∧ ∃ n, t.trace = s.trace ++ (pulseEvents s.par).take n ∧
      ((t.ret = .err .cs ∧ (n = 0 ∨ n = 5)) ∨ (t.ret = .err .reset ∧ (n = 1 ∨ n = 3)))) ∨
    ∃ n op ps e k, t.seq = some n ∧ s.par.initTable[n]? = some (.cmd op ps) ∧ t.ret = .err e ∧
      failsAt e k (frameCycles s.par.opcodes op ps) ∧
      t.trace = s.trace ++ (pulseEvents s.par ++ tableEvents s.par.opcodes (s.par.initTable.take n) ++ k.map Cycle.event)

/-- 41_control_and_init R137: a command entry sends its command and its parameters; a delay entry asks for its delay and
sends nothing. That a host can run one entry is the model's choice (log entry 17). -/
def Obligations.InitEntriesRun : Prop :=
  (∀ (op : Opcode) (ps : List Byte) (s : State),
    BusOperation (.initCmd op ps) (.cmd (s.par.opcodes.byte op) :: ps.map .dat) s s.okay s) ∧
  (∀ (ms : Nat) (s : State), exec (.initDelay ms) s = .next { s with trace := s.trace ++ [.delay ms], ret := .ok .unit })

/-- 70_reset_and_hazards R332: inside `init`, RST is Low for at least 2 ms and High for at least 200 ms before the first
command cycle, with CS High throughout and driven Low after. -/
def Obligations.InitHoldsReset : Prop :=
  ∀ s t : State, s.driver = true → s.par.delaysLegal = true → exec .init s = .next t → t.ret = .ok .unit →
    ∃ p q rest, 2 ≤ p ∧ 200 ≤ q ∧
      t.trace = s.trace ++ ([.pin .cs .high, .pin .rst .low, .delay p, .pin .rst .high, .delay q, .pin .cs .low] ++ rest) ∧
      ∀ e ∈ rest, ∀ k l, e ≠ .pin k l

/-! ## Commands, window, pixels, fill -/

/-- 42_window_and_pixels R160, R161: `send_command` sends its member's command cycle and `send_data` its bytes. -/
def Obligations.RawDispatchSendsWhatItIsGiven : Prop :=
  ∀ s : State, s.driver = true →
    (∀ op, BusOperation (.sendCommand op) [.cmd (s.par.opcodes.byte op)] s s.okay s) ∧
    (∀ bs, BusOperation (.sendData bs) (bs.map .dat) s s.okay s)

/-- 42_window_and_pixels R162: `set_window` sends exactly two commands, each followed by exactly four bytes, the big-endian
bounds, unchecked. -/
def Obligations.SetWindowSendsTwoFrames : Prop :=
  ∀ (x0 y0 x1 y1 : U16) (s : State), s.driver = true →
    BusOperation (.setWindow x0 y0 x1 y1)
      [.cmd (s.par.opcodes.byte .caset), .dat (hi8 x0), .dat (lo8 x0), .dat (hi8 x1), .dat (lo8 x1),
       .cmd (s.par.opcodes.byte .paset), .dat (hi8 y0), .dat (lo8 y0), .dat (hi8 y1), .dat (lo8 y1)] s s.okay s

/-- 42_window_and_pixels R163, R165: `write_pixels` sends the memory-write command and two bytes a word, whatever the pixel
format, and nothing after them. -/
def Obligations.WritePixelsStreamsWords : Prop :=
  ∀ (ws : List U16) (s : State), s.driver = true →
    BusOperation (.writePixels ws)
      (.cmd (s.par.opcodes.byte .ramwr) :: ws.flatMap fun w => [.dat (hi8 w), .dat (lo8 w)]) s s.okay s

/-- 42_window_and_pixels R167, 30_encoding R84: `fill` sends the window of the logical dimensions, one memory-write command,
the colour width × height times, and a no-op; with the Configuration invariant that is the whole screen, 153600 times. -/
def Obligations.FillStreamsTheScreen : Prop :=
  ∀ (color : U16) (s : State), s.driver = true →
    BusOperation (.fill color) (fillCycles s.par.opcodes s.cfg color) s s.okay s ∧
    (s.cfg.legal → ∃ x1 y1, (x1, y1) = (if s.cfg.orientation.class = .portraitClass then (319, 479) else (479, 319)) ∧
      fillCycles s.par.opcodes s.cfg color =
        windowCycles s.par.opcodes 0 0 x1 y1 ++ .cmd (s.par.opcodes.byte .ramwr) ::
          ((List.replicate 153600 [.dat (hi8 color), .dat (lo8 color)]).flatten ++ [.cmd (s.par.opcodes.byte .nop)]))

/-- 30_encoding R82: the cycle counts, which 70_reset_and_hazards R348 infers from it. -/
def Obligations.CycleCounts : Prop :=
  ∀ s : State, s.pinsHold → s.driver = true →
    (∀ x0 y0 x1 y1, ∃ t, exec (.setWindow x0 y0 x1 y1) s = .next t ∧ t.trace.length = s.trace.length + 10) ∧
    (∀ ws, ∃ t, exec (.writePixels ws) s = .next t ∧ t.trace.length = s.trace.length + (1 + 2 * ws.length)) ∧
    (∀ f, ∃ t, exec (.setPixelFormat f) s = .next t ∧ t.trace.length = s.trace.length + 2) ∧
    (∀ o, ∃ t, exec (.setOrientation o) s = .next t ∧ t.trace.length = s.trace.length + 2) ∧
    (∀ l, ∃ t, exec (.setBrightness l) s = .next t ∧ t.trace.length = s.trace.length + 2) ∧
    (s.cfg.legal → ∀ c, ∃ t, exec (.fill c) s = .next t ∧ t.trace.length = s.trace.length + 307212) ∧
    (∀ ps, ∃ t, exec (.drawIter ps) s = .next t ∧
      t.trace.length = s.trace.length + 13 * (ps.filter (inBounds s.par s.cfg)).length) ∧
    (∃ t, exec .init s = .next t ∧ t.trace.length = s.trace.length + 6 +
      (s.par.initTable.map fun e => match e with
        | .cmd _ ps => 1 + ps.length
        | .delay _ => 1).sum)

/-! ## Configuration -/

/-- 43_configuration R190, 30_encoding R76: `set_pixel_format` sends COLMOD and the format's byte, and writes the format
only when both cycles succeeded. -/
def Obligations.SetPixelFormatSendsThenWrites : Prop :=
  ∀ (f : PixelFormat) (s : State), s.driver = true →
    BusOperation (.setPixelFormat f)
      [.cmd (s.par.opcodes.byte .colmod), .dat (match f with | .rgb565 => 0x55 | .rgb666 => 0x66)] s
      { s.okay with cfg := { s.cfg with pixelFormat := some f } } s

/-- 43_configuration R192, R194, 30_encoding R77: `set_orientation` writes the orientation and its class's dimensions first,
and sends MADCTL and the orientation's byte. -/
def Obligations.SetOrientationWritesThenSends : Prop :=
  ∀ (o : Orientation) (s : State), s.driver = true →
    BusOperation (.setOrientation o)
      [.cmd (s.par.opcodes.byte .madctl), .dat (match o with
        | .portrait => 0x40
        | .portraitUpsideDown => 0x90
        | .landscape => 0x20
        | .landscapeUpsideDown => 0xF4)] s
      { s.okay with cfg := { s.cfg with
          width := (if o.class = .portraitClass then 320 else 480), height := (if o.class = .portraitClass then 480 else 320),
          orientation := o } }
      { s with cfg := { s.cfg with
          width := (if o.class = .portraitClass then 320 else 480), height := (if o.class = .portraitClass then 480 else 320),
          orientation := o } }

/-- 43_configuration R193, R191, 30_encoding R87: after `set_orientation`, `width()` and `height()` return the dimensions of
the class, whatever they were before; their product is 153600. -/
def Obligations.OrientationFixesTheDimensions : Prop :=
  ∀ (o : Orientation) (s : State), s.driver = true → ∃ (t : State) (w h : U16), exec (.setOrientation o) s = .next t ∧
    (w, h) = (match o with
      | .portrait => (320, 480)
      | .portraitUpsideDown => (320, 480)
      | .landscape => (480, 320)
      | .landscapeUpsideDown => (480, 320)) ∧
    exec .width t = .next { t with ret := .ok (.word w) } ∧ exec .height t = .next { t with ret := .ok (.word h) } ∧
    exec .orientation t = .next { t with ret := .ok (.orientation o) } ∧ w.toNat * h.toNat = 153600

/-- 43_configuration R195, 30_encoding R80: `set_brightness` sends WRDISBV and the level, whatever it is, and stores
nothing. -/
def Obligations.SetBrightnessSendsTheLevel : Prop :=
  ∀ (l : Byte) (s : State), s.driver = true →
    BusOperation (.setBrightness l) [.cmd (s.par.opcodes.byte .wrdisbv), .dat l] s s.okay s

/-- 43_configuration R196, R197, R198, 44_drawing_adapter R214: the pure accessors: `width`, `height`, `orientation` return
the Configuration's field and `size` the fixed (320, 480); nothing else changes. -/
def Obligations.AccessorsReadAndChangeNothing : Prop :=
  ∀ s : State, s.driver = true →
    exec .width s = .next { s with ret := .ok (.word s.cfg.width) } ∧
    exec .height s = .next { s with ret := .ok (.word s.cfg.height) } ∧
    exec .orientation s = .next { s with ret := .ok (.orientation s.cfg.orientation) } ∧
    exec .size s = .next { s with ret := .ok (.pair 320 480) }

/-! ## The Drawing Adapter -/

/-- 44_drawing_adapter R212, R211: `draw_iter` sends, for each pair in bounds and in order, the single-pixel window and the
pixel, 13 cycles, and for a pair out of bounds nothing. -/
def Obligations.DrawIterSendsInBoundsPixels : Prop :=
  ∀ (ps : List DrawPixel) (s : State), s.driver = true →
    BusOperation (.drawIter ps) (ps.flatMap fun p =>
      if 0 ≤ p.x ∧ p.x < ((clipExtent s.par s.cfg).1 : Int) ∧ 0 ≤ p.y ∧ p.y < ((clipExtent s.par s.cfg).2 : Int) then
        windowCycles s.par.opcodes (coordinate p.x) (coordinate p.y) (coordinate p.x) (coordinate p.y) ++
          [.cmd (s.par.opcodes.byte .ramwr), .dat (hi8 (Config.toRaw16 p.color)), .dat (lo8 (Config.toRaw16 p.color))]
      else []) s s.okay s

/-- 44_drawing_adapter R211, R212, from which R215 infers it: a pair is in bounds exactly when its coordinates are between 0
and the last of the clip bounds, and they then convert to u16 exactly (with the Configuration invariant). -/
def Obligations.InBoundsCoordinatesAreExact : Prop :=
  ∀ (P : Params) (c : Configuration) (p : DrawPixel),
    (inBounds P c p = true ↔ 0 ≤ p.x ∧ p.x ≤ (clipExtent P c).1 - 1 ∧ 0 ≤ p.y ∧ p.y ≤ (clipExtent P c).2 - 1) ∧
    (c.legal → inBounds P c p = true →
      ((coordinate p.x).toNat : Int) = p.x ∧ ((coordinate p.y).toNat : Int) = p.y ∧
      (coordinate p.x).toNat < (clipExtent P c).1 ∧ (coordinate p.y).toNat < (clipExtent P c).2)

/-! ## The panel -/

/-- 46_panel_reference R279: for each of the four memory-access-control bytes the map is a bijection from its logical space
onto the display memory; for any other byte there is no determined cell. The maps are free products of transpositions (log
entry 28). -/
def Obligations.AddressMapsAreBijections : Prop :=
  ∀ (P : Params) (m : Byte),
    (∀ w h : Nat, ((m = 0x40 ∨ m = 0x90) ∧ w = 320 ∧ h = 480) ∨ ((m = 0x20 ∨ m = 0xF4) ∧ w = 480 ∧ h = 320) →
      (∀ col row, col < w → row < h → ∃ a, a < 153600 ∧ physical P m col row = some a) ∧
      (∀ col row col' row' a, col < w → row < h → col' < w → row' < h → physical P m col row = some a →
        physical P m col' row' = some a → col = col' ∧ row = row') ∧
      (∀ a, a < 153600 → ∃ col row, col < w ∧ row < h ∧ physical P m col row = some a)) ∧
    (m ≠ 0x40 → m ≠ 0x90 → m ≠ 0x20 → m ≠ 0xF4 → ∀ col row, physical P m col row = none)

/-- 46_panel_reference R271, R272: what the panel makes of what an instruction that succeeds sends (all but those that drive
the control lines): with no cycle sent, or with CS Known High or RST Low, it is what it was; outside Ready it is what it was
or any value, and any value if CS is Known Low, RST Known High and some cycle is sent. RST Low is the spec's general
knowledge; the free values are log entry 19, Unknown levels log entry 21. What it makes of a cycle received in Ready are the
statements below (log entry 38). -/
def Obligations.DeselectedPanelHearsNothing : Prop :=
  ∀ (i : Instr) (s : State), s.pinsHold → s.driver = true → s.par.readMode = .stub → drivesControl i = false →
    ∃ t, exec i s = .next t ∧
      (busCycles s.par s.cfg i = [] → t.panel = s.panel) ∧
      (s.pins.cs = .known .high ∨ s.pins.rst = .known .low → t.panel = s.panel) ∧
      (s.phase ≠ .ready → t.panel = s.panel ∨ ∃ n, t.panel = Panel.any n) ∧
      (s.phase ≠ .ready → s.pins.cs = .known .low → s.pins.rst = .known .high → busCycles s.par s.cfg i ≠ [] →
        ∃ n, t.panel = Panel.any n)

/-- 46_panel_reference R274, R276: heard by the panel, `set_window` sets the four bounds and leaves the
memory-access-control and pixel-format bytes; the display memory too, but a pixel whose second byte was awaited in a
memory-write frame becomes any value on its cell. How the bounds are latched and a frame is closed rests on log entry 38
(PRESUMED, the spec's G5), and the waiting byte's cell on log entry 25. -/
def Obligations.SetWindowReachesThePanel : Prop :=
  ∀ (x0 y0 x1 y1 : U16) (s : State), s.pinsHold → s.driver = true → s.listening → s.par.opcodes.injective = true →
    ∃ t, exec (.setWindow x0 y0 x1 y1) s = .next t ∧
      t.panel.regs.sc = x0 ∧ t.panel.regs.ec = x1 ∧ t.panel.regs.sp = y0 ∧ t.panel.regs.ep = y1 ∧
      t.panel.regs.madctl = s.panel.regs.madctl ∧ t.panel.regs.colmod = s.panel.regs.colmod ∧
      (s.panel.settled s.par → t.panel.gram = s.panel.gram) ∧
      (∀ a, s.panel.awaits s.par a →
        t.panel.gram.read a = none ∧ ∀ x, x ≠ a → t.panel.gram.read x = s.panel.gram.read x)

/-- 46_panel_reference R273, R274, R275: heard by the panel, `set_orientation` sets the memory-access-control byte and
`set_pixel_format` the pixel-format byte, and each leaves the other and the window. DATA counts one more byte of the open
frame and does no more than this: in a CASET or PASET frame it is kept while fewer than three were, the fourth sets the
frame's two bounds from the four, most significant first, and later ones are ignored; the first of a MADCTL or COLMOD frame
sets its byte; later ones, and those of WRDISBV and NOP frames, set nothing; one of a frame that the interpretation does not
model makes every cell any value. The reading of frames rests on log entry 38 (PRESUMED, G5), the bounds before the fourth
byte on log entry 22, the open frame of an unmodelled command on log entry 24, later bytes of MADCTL, COLMOD and WRDISBV
frames on log entry 41, and DATA as a cycle on log entry 16. -/
def Obligations.SettingsReachThePanel : Prop :=
  (∀ s : State, s.pinsHold → s.driver = true → s.listening → s.par.opcodes.injective = true →
    (∀ o, ∃ t, exec (.setOrientation o) s = .next t ∧ t.panel.regs.madctl = orientByte o ∧
      t.panel.regs.colmod = s.panel.regs.colmod ∧ t.panel.regs.sc = s.panel.regs.sc ∧ t.panel.regs.ec = s.panel.regs.ec ∧
      t.panel.regs.sp = s.panel.regs.sp ∧ t.panel.regs.ep = s.panel.regs.ep) ∧
    (∀ f, ∃ t, exec (.setPixelFormat f) s = .next t ∧ t.panel.regs.colmod = fmtByte f ∧
      t.panel.regs.madctl = s.panel.regs.madctl ∧ t.panel.regs.sc = s.panel.regs.sc ∧ t.panel.regs.ec = s.panel.regs.ec ∧
      t.panel.regs.sp = s.panel.regs.sp ∧ t.panel.regs.ep = s.panel.regs.ep)) ∧
  ∀ (b : Byte) (s : State) (r : PanelRegs) (frame : Option Opcode), s.pinsHold → s.listening →
    r = { s.panel.regs with frameCount := s.panel.regs.frameCount + 1 } →
    frame = s.par.opcodes.opcode? s.panel.regs.frameOp →
    ∃ t, exec (.data b) s = .next t ∧
      (frame = some .caset ∨ frame = some .paset →
        (s.panel.regs.frameCount < 3 → t.panel = ⟨{ r with params := s.panel.regs.params ++ [b] }, s.panel.gram⟩) ∧
        (∀ p0 p1 p2, s.panel.regs.frameCount = 3 → s.panel.regs.params = [p0, p1, p2] → ∃ first last : U16,
          first.toNat = p0.toNat * 256 + p1.toNat ∧ last.toNat = p2.toNat * 256 + b.toNat ∧
          (frame = some .caset → t.panel = ⟨{ r with params := [p0, p1, p2, b], sc := first, ec := last }, s.panel.gram⟩) ∧
          (frame = some .paset → t.panel = ⟨{ r with params := [p0, p1, p2, b], sp := first, ep := last }, s.panel.gram⟩)) ∧
        (3 < s.panel.regs.frameCount → t.panel = ⟨r, s.panel.gram⟩)) ∧
      (frame = some .madctl →
        t.panel = ⟨if s.panel.regs.frameCount = 0 then { r with madctl := b } else r, s.panel.gram⟩) ∧
      (frame = some .colmod →
        t.panel = ⟨if s.panel.regs.frameCount = 0 then { r with colmod := b } else r, s.panel.gram⟩) ∧
      (frame = some .wrdisbv ∨ frame = some .nop → t.panel = ⟨r, s.panel.gram⟩) ∧
      (frame = none ∨ (∃ op ∈ unmodelledOpcodes, frame = some op) →
        (∀ a, t.panel.gram.read a = none) ∧ t.panel.regs.frameOp = s.panel.regs.frameOp ∧
        t.panel.regs.frameCount = s.panel.regs.frameCount + 1)

/-- 46_panel_reference R273 to R276: the operations that store no pixel: NOP, CASET, PASET, RAMWR (which only opens its
frame), MADCTL, COLMOD, WRDISBV, `set_window`, `set_pixel_format`, `set_orientation` and `set_brightness`, heard by the
panel, leave every cell of the display memory, but for the cell of a pixel whose second byte was awaited in the memory-write
frame they close: that becomes any value. The frames rest on log entry 38 (PRESUMED, G5), the waiting byte's cell on log
entry 25. -/
def Obligations.SettingsStoreNoPixel : Prop :=
  ∀ (i : Instr) (s : State), s.pinsHold → s.driver = true → s.listening → s.par.opcodes.injective = true →
    (i ∈ [Instr.nop, .caset, .paset, .ramwr, .madctl, .colmod, .wrdisbv] ∨ (∃ x0 y0 x1 y1, i = .setWindow x0 y0 x1 y1) ∨
      (∃ f, i = .setPixelFormat f) ∨ (∃ o, i = .setOrientation o) ∨ ∃ l, i = .setBrightness l) →
    ∃ t, exec i s = .next t ∧
      (s.panel.settled s.par → ∀ a, t.panel.gram.read a = s.panel.gram.read a) ∧
      (∀ a, s.panel.awaits s.par a →
        t.panel.gram.read a = none ∧ ∀ x, x ≠ a → t.panel.gram.read x = s.panel.gram.read x)

/-- 46_panel_reference R276, R277: the second byte of a pixel of a memory-write frame at format 0x55 stores the pixel, most
significant byte first, on the cell of the pointer, and leaves every other cell; the pointer goes one further, columns
first. The pairing and the row-major pointer rest on log entry 38 (PRESUMED, G5; unsafe for the display memory). -/
def Obligations.DataByteStoresOnePixel : Prop :=
  ∀ (b h : Byte) (a : Nat) (s : State), s.pinsHold → s.listening →
    s.par.opcodes.opcode? s.panel.regs.frameOp = some .ramwr → s.panel.regs.colmod = 0x55 →
    s.panel.regs.pairHi = some h → placement s.par s.panel.regs = .cell a →
    ∃ t, exec (.data b) s = .next t ∧ t.panel.gram.read a = some (BitVec.ofNat 16 (h.toNat * 256 + b.toNat)) ∧
      (∀ x, x ≠ a → t.panel.gram.read x = s.panel.gram.read x) ∧ t.panel.regs.pairHi = none ∧
      (t.panel.regs.pc, t.panel.regs.pr) =
        (if s.panel.regs.pc < s.panel.regs.ec.toNat then (s.panel.regs.pc + 1, s.panel.regs.pr)
         else (s.panel.regs.sc.toNat, s.panel.regs.pr + 1))

/-- 46_panel_reference R276, R278: the corners of a memory-write frame: at another format every cell is any value; with a
pixel beyond the window RAMWR_OVERFLOW decides (any value, wrap to the window's start, ignore); with bounds out of order or
of the logical dimensions, or an unknown map, every cell is any value; a first byte stores nothing. Which of these
RAMWR_OVERFLOW governs is log entry 23; another format, log entry 26; the pairing at 0x55, the window's start, Wrap and
Ignore rest on log entry 38 (PRESUMED, G5). -/
def Obligations.CornersOfAMemoryWriteFrame : Prop :=
  ∀ (b : Byte) (s : State), s.pinsHold → s.listening → s.par.opcodes.opcode? s.panel.regs.frameOp = some .ramwr →
    ∃ t, exec (.data b) s = .next t ∧
      (s.panel.regs.colmod ≠ 0x55 → ∀ x, t.panel.gram.read x = none) ∧
      (s.panel.regs.colmod = 0x55 → s.panel.regs.pairHi = none →
        t.panel.gram = s.panel.gram ∧ t.panel.regs.pairHi = some b) ∧
      (∀ h, s.panel.regs.colmod = 0x55 → s.panel.regs.pairHi = some h →
        (placement s.par s.panel.regs = .undetermined → ∀ x, t.panel.gram.read x = none) ∧
        (placement s.par s.panel.regs = .beyond →
          (s.par.overflow = .anyValue → ∀ x, t.panel.gram.read x = none) ∧
          (s.par.overflow = .ignore → t.panel.gram = s.panel.gram) ∧
          (s.par.overflow = .wrap → ∃ a, physical s.par s.panel.regs.madctl s.panel.regs.sc.toNat s.panel.regs.sp.toNat = some a ∧
            t.panel.gram.read a = some (word16 h b) ∧ ∀ x, x ≠ a → t.panel.gram.read x = s.panel.gram.read x)))

/-- 46_panel_reference R273, R275, 45_wire_commands R230: heard by a panel with no pixel waiting, NOP opens its frame and
changes nothing else; a command that the interpretation does not model makes every cell any value, whatever waited. That a
command closes the open frame and opens its own rests on log entry 38 (PRESUMED, G5); that an unmodelled command's frame
stays open is the model's reading (log entry 24). What NOP does to a waiting pixel is in `SettingsStoreNoPixel`. -/
def Obligations.NopClosesAndOthersForget : Prop :=
  ∀ s : State, s.pinsHold → s.listening → s.par.opcodes.injective = true →
    (s.panel.settled s.par → ∃ t, exec .nop s = .next t ∧ t.panel.gram = s.panel.gram ∧
      t.panel.regs = { s.panel.regs with frameOp := s.par.opcodes.nop, frameCount := 0, params := [], pairHi := none }) ∧
    (∀ op ∈ unmodelledOpcodes, ∃ t, exec op.wire s = .next t ∧ (∀ a, t.panel.gram.read a = none) ∧
      t.panel.regs.frameOp = s.par.opcodes.byte op ∧ t.panel.regs.frameCount = 0)

/-- 46_panel_reference R277: pixel `j` of a stream that fits its window is stored at column SC + j mod w and row SP + j div
w of the logical space, and no other cell changes. The pairing and the row-major order rest on log entry 38 (PRESUMED,
G5). -/
def Obligations.WritePixelsFillsTheWindow : Prop :=
  ∀ (ws : List U16) (s : State), s.pinsHold → s.driver = true → s.listening → s.par.opcodes.injective = true →
    s.panel.settled s.par → s.panel.regs.colmod = 0x55 → windowLegal s.panel.regs = true →
    ws.length ≤ (s.panel.regs.ec.toNat - s.panel.regs.sc.toNat + 1) * (s.panel.regs.ep.toNat - s.panel.regs.sp.toNat + 1) →
    ∃ t, exec (.writePixels ws) s = .next t ∧
      (∀ j, ∀ hj : j < ws.length, ∃ a,
        physical s.par s.panel.regs.madctl
          (s.panel.regs.sc.toNat + j % (s.panel.regs.ec.toNat - s.panel.regs.sc.toNat + 1))
          (s.panel.regs.sp.toNat + j / (s.panel.regs.ec.toNat - s.panel.regs.sc.toNat + 1)) = some a ∧
        t.panel.gram.read a = some ws[j]) ∧
      (∀ x, (∀ j, j < ws.length →
        physical s.par s.panel.regs.madctl
          (s.panel.regs.sc.toNat + j % (s.panel.regs.ec.toNat - s.panel.regs.sc.toNat + 1))
          (s.panel.regs.sp.toNat + j / (s.panel.regs.ec.toNat - s.panel.regs.sc.toNat + 1)) ≠ some x) →
        t.panel.gram.read x = s.panel.gram.read x)

/-- 42_window_and_pixels R167 and 46_panel_reference R271, R274, R276, R277, R279, from which R280 infers it: after `fill`
returned Ok, every cell of the display memory holds the colour, if the block is Ready and heard, the panel's format is 0x55
and its memory-access-control byte is that of the Configuration's orientation. The panel's reading rests on log entry 38
(PRESUMED, G5). -/
def Obligations.FillPaintsEveryCell : Prop :=
  ∀ (color : U16) (s : State), s.pinsHold → s.driver = true → s.listening → s.par.opcodes.injective = true →
    s.cfg.legal → s.panelAgrees →
    ∃ t, exec (.fill color) s = .next t ∧ t.ret = .ok .unit ∧ ∀ a, a < 153600 → t.panel.gram.read a = some color

/-- 44_drawing_adapter R212 and 46_panel_reference R274, R277, R278, R279, from which R281 infers it: under the conditions
of R280 and with logical clip bounds, `draw_iter` writes each in-bounds pair on its cell in order, so that the last write to
a cell wins, and changes no cell that no pair names. The panel's reading rests on log entry 38 (PRESUMED, G5). -/
def Obligations.DrawIterPaintsItsPixels : Prop :=
  ∀ (ps : List DrawPixel) (s : State), s.pinsHold → s.driver = true → s.listening → s.par.opcodes.injective = true →
    s.cfg.legal → s.panelAgrees → s.par.clipBounds = .logical → s.panel.settled s.par →
    ∃ t, exec (.drawIter ps) s = .next t ∧
      t.panel.gram = ps.foldl (painted s.par s.cfg s.panel.regs.madctl) s.panel.gram
end

