-- ==== Sys2Proof/Laws/State.lean ====
section
/-! SUPPORT. One lemma for each field of State under each update of it, all true by unfolding. -/

namespace Sys2Proof.Machine

/-! ## uninitialize -/

@[simp] theorem State.uninitialize_driver (s : State) : (s.uninitialize).driver = s.driver := rfl
@[simp] theorem State.uninitialize_transport (s : State) : (s.uninitialize).transport = s.transport := rfl
@[simp] theorem State.uninitialize_cfg (s : State) : (s.uninitialize).cfg = s.cfg := rfl
@[simp] theorem State.uninitialize_pins (s : State) : (s.uninitialize).pins = s.pins := rfl
@[simp] theorem State.uninitialize_seq (s : State) : (s.uninitialize).seq = s.seq := rfl
@[simp] theorem State.uninitialize_phase (s : State) : (s.uninitialize).phase = .uninitialized := rfl
@[simp] theorem State.uninitialize_trace (s : State) : (s.uninitialize).trace = s.trace := rfl
@[simp] theorem State.uninitialize_ret (s : State) : (s.uninitialize).ret = s.ret := rfl
@[simp] theorem State.uninitialize_panel (s : State) : (s.uninitialize).panel = .any s.free := rfl
@[simp] theorem State.uninitialize_par (s : State) : (s.uninitialize).par = s.par := rfl
@[simp] theorem State.uninitialize_draws (s : State) : (s.uninitialize).draws = s.draws := rfl
@[simp] theorem State.uninitialize_free (s : State) : (s.uninitialize).free = s.free + 1 := rfl
@[simp] theorem State.uninitialize_port (s : State) : (s.uninitialize).port = s.port := rfl

/-! ## raise -/

@[simp] theorem State.raise_driver (s : State) (e : Error) : (s.raise e).driver = s.driver := rfl
@[simp] theorem State.raise_transport (s : State) (e : Error) : (s.raise e).transport = s.transport := rfl
@[simp] theorem State.raise_cfg (s : State) (e : Error) : (s.raise e).cfg = s.cfg := rfl
@[simp] theorem State.raise_pins (s : State) (e : Error) : (s.raise e).pins = s.pins := rfl
@[simp] theorem State.raise_seq (s : State) (e : Error) : (s.raise e).seq = s.seq := rfl
@[simp] theorem State.raise_phase (s : State) (e : Error) : (s.raise e).phase = .uninitialized := rfl
@[simp] theorem State.raise_trace (s : State) (e : Error) : (s.raise e).trace = s.trace := rfl
@[simp] theorem State.raise_ret (s : State) (e : Error) : (s.raise e).ret = .err e := rfl
@[simp] theorem State.raise_panel (s : State) (e : Error) : (s.raise e).panel = .any s.free := rfl
@[simp] theorem State.raise_par (s : State) (e : Error) : (s.raise e).par = s.par := rfl
@[simp] theorem State.raise_draws (s : State) (e : Error) : (s.raise e).draws = s.draws := rfl
@[simp] theorem State.raise_free (s : State) (e : Error) : (s.raise e).free = s.free + 1 := rfl
@[simp] theorem State.raise_port (s : State) (e : Error) : (s.raise e).port = s.port := rfl

/-! ## record -/

@[simp] theorem State.record_driver (s : State) (e : Event) : (s.record e).driver = s.driver := rfl
@[simp] theorem State.record_transport (s : State) (e : Event) : (s.record e).transport = s.transport := rfl
@[simp] theorem State.record_cfg (s : State) (e : Event) : (s.record e).cfg = s.cfg := rfl
@[simp] theorem State.record_pins (s : State) (e : Event) : (s.record e).pins = s.pins := rfl
@[simp] theorem State.record_seq (s : State) (e : Event) : (s.record e).seq = s.seq := rfl
@[simp] theorem State.record_phase (s : State) (e : Event) : (s.record e).phase = s.phase := rfl
@[simp] theorem State.record_trace (s : State) (e : Event) : (s.record e).trace = s.trace ++ [e] := rfl
@[simp] theorem State.record_ret (s : State) (e : Event) : (s.record e).ret = s.ret := rfl
@[simp] theorem State.record_panel (s : State) (e : Event) : (s.record e).panel = s.panel := rfl
@[simp] theorem State.record_par (s : State) (e : Event) : (s.record e).par = s.par := rfl
@[simp] theorem State.record_draws (s : State) (e : Event) : (s.record e).draws = s.draws := rfl
@[simp] theorem State.record_free (s : State) (e : Event) : (s.record e).free = s.free := rfl
@[simp] theorem State.record_port (s : State) (e : Event) : (s.record e).port = s.port := rfl

/-! ## latched -/

@[simp] theorem State.latched_driver (s : State) (c : Cycle) : (s.latched c).driver = s.driver := rfl
@[simp] theorem State.latched_transport (s : State) (c : Cycle) : (s.latched c).transport = s.transport := rfl
@[simp] theorem State.latched_cfg (s : State) (c : Cycle) : (s.latched c).cfg = s.cfg := rfl
@[simp] theorem State.latched_pins (s : State) (c : Cycle) : (s.latched c).pins = s.pins := rfl
@[simp] theorem State.latched_seq (s : State) (c : Cycle) : (s.latched c).seq = s.seq := rfl
@[simp] theorem State.latched_phase (s : State) (c : Cycle) : (s.latched c).phase = s.phase := rfl
@[simp] theorem State.latched_trace (s : State) (c : Cycle) : (s.latched c).trace = s.trace ++ [c.event] := rfl
@[simp] theorem State.latched_ret (s : State) (c : Cycle) : (s.latched c).ret = s.ret := rfl
@[simp] theorem State.latched_panel (s : State) (c : Cycle) : (s.latched c).panel = s.panel.onBus s.par s.pins s.phase s.free c := rfl
@[simp] theorem State.latched_par (s : State) (c : Cycle) : (s.latched c).par = s.par := rfl
@[simp] theorem State.latched_draws (s : State) (c : Cycle) : (s.latched c).draws = s.draws := rfl
@[simp] theorem State.latched_free (s : State) (c : Cycle) : (s.latched c).free = s.free + 1 := rfl
@[simp] theorem State.latched_port (s : State) (c : Cycle) : (s.latched c).port = s.port := rfl

/-! ## delayMs -/

@[simp] theorem State.delayMs_driver (s : State) (n : Nat) : (s.delayMs n).driver = s.driver := rfl
@[simp] theorem State.delayMs_transport (s : State) (n : Nat) : (s.delayMs n).transport = s.transport := rfl
@[simp] theorem State.delayMs_cfg (s : State) (n : Nat) : (s.delayMs n).cfg = s.cfg := rfl
@[simp] theorem State.delayMs_pins (s : State) (n : Nat) : (s.delayMs n).pins = s.pins := rfl
@[simp] theorem State.delayMs_seq (s : State) (n : Nat) : (s.delayMs n).seq = s.seq := rfl
@[simp] theorem State.delayMs_phase (s : State) (n : Nat) : (s.delayMs n).phase = s.phase := rfl
@[simp] theorem State.delayMs_trace (s : State) (n : Nat) : (s.delayMs n).trace = s.trace ++ [.delay n] := rfl
@[simp] theorem State.delayMs_ret (s : State) (n : Nat) : (s.delayMs n).ret = s.ret := rfl
@[simp] theorem State.delayMs_panel (s : State) (n : Nat) : (s.delayMs n).panel = s.panel := rfl
@[simp] theorem State.delayMs_par (s : State) (n : Nat) : (s.delayMs n).par = s.par := rfl
@[simp] theorem State.delayMs_draws (s : State) (n : Nat) : (s.delayMs n).draws = s.draws := rfl
@[simp] theorem State.delayMs_free (s : State) (n : Nat) : (s.delayMs n).free = s.free := rfl
@[simp] theorem State.delayMs_port (s : State) (n : Nat) : (s.delayMs n).port = s.port := rfl

/-! ## drawn -/

@[simp] theorem State.drawn_driver (s : State) : (s.drawn).driver = s.driver := rfl
@[simp] theorem State.drawn_transport (s : State) : (s.drawn).transport = s.transport := rfl
@[simp] theorem State.drawn_cfg (s : State) : (s.drawn).cfg = s.cfg := rfl
@[simp] theorem State.drawn_pins (s : State) : (s.drawn).pins = s.pins := rfl
@[simp] theorem State.drawn_seq (s : State) : (s.drawn).seq = s.seq := rfl
@[simp] theorem State.drawn_phase (s : State) : (s.drawn).phase = s.phase := rfl
@[simp] theorem State.drawn_trace (s : State) : (s.drawn).trace = s.trace := rfl
@[simp] theorem State.drawn_ret (s : State) : (s.drawn).ret = s.ret := rfl
@[simp] theorem State.drawn_panel (s : State) : (s.drawn).panel = s.panel := rfl
@[simp] theorem State.drawn_par (s : State) : (s.drawn).par = s.par := rfl
@[simp] theorem State.drawn_draws (s : State) : (s.drawn).draws = s.draws.tail := rfl
@[simp] theorem State.drawn_free (s : State) : (s.drawn).free = s.free := rfl
@[simp] theorem State.drawn_port (s : State) : (s.drawn).port = s.port := rfl

/-! ## setPin -/

@[simp] theorem State.setPin_driver (s : State) (line : Pin) (v : LineState) : (s.setPin line v).driver = s.driver := rfl
@[simp] theorem State.setPin_transport (s : State) (line : Pin) (v : LineState) : (s.setPin line v).transport = s.transport := rfl
@[simp] theorem State.setPin_cfg (s : State) (line : Pin) (v : LineState) : (s.setPin line v).cfg = s.cfg := rfl
@[simp] theorem State.setPin_pins (s : State) (line : Pin) (v : LineState) : (s.setPin line v).pins = s.pins.set line v := rfl
@[simp] theorem State.setPin_seq (s : State) (line : Pin) (v : LineState) : (s.setPin line v).seq = s.seq := rfl
@[simp] theorem State.setPin_phase (s : State) (line : Pin) (v : LineState) : (s.setPin line v).phase = s.phase := rfl
@[simp] theorem State.setPin_trace (s : State) (line : Pin) (v : LineState) : (s.setPin line v).trace = s.trace := rfl
@[simp] theorem State.setPin_ret (s : State) (line : Pin) (v : LineState) : (s.setPin line v).ret = s.ret := rfl
@[simp] theorem State.setPin_panel (s : State) (line : Pin) (v : LineState) : (s.setPin line v).panel = s.panel := rfl
@[simp] theorem State.setPin_par (s : State) (line : Pin) (v : LineState) : (s.setPin line v).par = s.par := rfl
@[simp] theorem State.setPin_draws (s : State) (line : Pin) (v : LineState) : (s.setPin line v).draws = s.draws := rfl
@[simp] theorem State.setPin_free (s : State) (line : Pin) (v : LineState) : (s.setPin line v).free = s.free := rfl
@[simp] theorem State.setPin_port (s : State) (line : Pin) (v : LineState) : (s.setPin line v).port = s.port := rfl

/-! ## taken -/

@[simp] theorem State.taken_driver (s : State) : (s.taken).driver = s.driver := rfl
@[simp] theorem State.taken_transport (s : State) : (s.taken).transport = s.transport := rfl
@[simp] theorem State.taken_cfg (s : State) : (s.taken).cfg = s.cfg := rfl
@[simp] theorem State.taken_pins (s : State) : (s.taken).pins = s.pins := rfl
@[simp] theorem State.taken_seq (s : State) : (s.taken).seq = s.seq := rfl
@[simp] theorem State.taken_phase (s : State) : (s.taken).phase = s.phase := rfl
@[simp] theorem State.taken_trace (s : State) : (s.taken).trace = s.trace := rfl
@[simp] theorem State.taken_ret (s : State) : (s.taken).ret = s.ret := rfl
@[simp] theorem State.taken_panel (s : State) : (s.taken).panel = s.panel := rfl
@[simp] theorem State.taken_par (s : State) : (s.taken).par = s.par := rfl
@[simp] theorem State.taken_draws (s : State) : (s.taken).draws = s.draws := rfl
@[simp] theorem State.taken_free (s : State) : (s.taken).free = s.free := rfl
@[simp] theorem State.taken_port (s : State) : (s.taken).port = s.port.tail := rfl

/-! ## latch -/

@[simp] theorem State.latch_driver (s : State) : s.latch.driver = s.driver := rfl
@[simp] theorem State.latch_transport (s : State) : s.latch.transport = s.transport := rfl
@[simp] theorem State.latch_cfg (s : State) : s.latch.cfg = s.cfg := rfl
@[simp] theorem State.latch_pins (s : State) : s.latch.pins = s.pins := rfl
@[simp] theorem State.latch_seq (s : State) : s.latch.seq = s.seq := rfl
@[simp] theorem State.latch_phase (s : State) : s.latch.phase = s.phase := rfl
@[simp] theorem State.latch_ret (s : State) : s.latch.ret = s.ret := rfl
@[simp] theorem State.latch_par (s : State) : s.latch.par = s.par := rfl
@[simp] theorem State.latch_draws (s : State) : s.latch.draws = s.draws := rfl
@[simp] theorem State.latch_port (s : State) : s.latch.port = s.port := rfl

/-- A latch whose levels are known is a latched cycle. -/
theorem State.latch_of_sample (s : State) (c : Cycle) (h : sampleCycle s.par s.pins = some c) : s.latch = s.latched c := by
  simp [State.latch, State.latched, h]

/-! ## The control lines -/

@[simp] theorem Pins.set_dc_cs (p : Pins) (v : LineState) : (p.set .dc v).cs = p.cs := rfl
@[simp] theorem Pins.set_dc_rst (p : Pins) (v : LineState) : (p.set .dc v).rst = p.rst := rfl
@[simp] theorem Pins.set_dc_dc (p : Pins) (v : LineState) : (p.set .dc v).dc = v := rfl
@[simp] theorem Pins.set_dc_wr (p : Pins) (v : LineState) : (p.set .dc v).wr = p.wr := rfl
@[simp] theorem Pins.set_dc_d (p : Pins) (v : LineState) : (p.set .dc v).d = p.d := rfl
@[simp] theorem Pins.set_wr_cs (p : Pins) (v : LineState) : (p.set .wr v).cs = p.cs := rfl
@[simp] theorem Pins.set_wr_rst (p : Pins) (v : LineState) : (p.set .wr v).rst = p.rst := rfl
@[simp] theorem Pins.set_wr_dc (p : Pins) (v : LineState) : (p.set .wr v).dc = p.dc := rfl
@[simp] theorem Pins.set_wr_wr (p : Pins) (v : LineState) : (p.set .wr v).wr = v := rfl
@[simp] theorem Pins.set_wr_d (p : Pins) (v : LineState) : (p.set .wr v).d = p.d := rfl
@[simp] theorem Pins.set_d_cs (p : Pins) (i : Nat) (v : LineState) : (p.set (.d i) v).cs = p.cs := rfl
@[simp] theorem Pins.set_d_rst (p : Pins) (i : Nat) (v : LineState) : (p.set (.d i) v).rst = p.rst := rfl
@[simp] theorem Pins.set_d_dc (p : Pins) (i : Nat) (v : LineState) : (p.set (.d i) v).dc = p.dc := rfl
@[simp] theorem Pins.set_d_wr (p : Pins) (i : Nat) (v : LineState) : (p.set (.d i) v).wr = p.wr := rfl
@[simp] theorem Pins.set_d_d (p : Pins) (i : Nat) (v : LineState) : (p.set (.d i) v).d = p.d.setIfInBounds i v := rfl
@[simp] theorem Pins.set_cs_cs (p : Pins) (v : LineState) : (p.set .cs v).cs = v := rfl
@[simp] theorem Pins.set_cs_rst (p : Pins) (v : LineState) : (p.set .cs v).rst = p.rst := rfl
@[simp] theorem Pins.set_rst_cs (p : Pins) (v : LineState) : (p.set .rst v).cs = p.cs := rfl
@[simp] theorem Pins.set_rst_rst (p : Pins) (v : LineState) : (p.set .rst v).rst = v := rfl

end Sys2Proof.Machine
end

