-- ==== Sys2Proof/Laws/Bus.lean ====
section
/-! SUPPORT. What the operations on the bus can do, said once for each: whatever the draws, the state they leave is the one
before with a first part of their cycles sent (all of them if they succeed), and with pins that hold they succeed. -/

namespace Sys2Proof.Machine

/-! ## Sending -/

/-- The panel hears the same from two states that agree on what it depends on. -/
theorem heard_congr (l : List Cycle) : ∀ s t : State, t.panel = s.panel → t.free = s.free → t.par = s.par →
    t.phase = s.phase → t.pins.cs = s.pins.cs → t.pins.rst = s.pins.rst → (t.heard l).panel = (s.heard l).panel := by
  induction l with
  | nil => intro s t hp _ _ _ _ _; exact hp
  | cons c rest ih =>
    intro s t hp hf hP hph hcs hrst
    refine ih (s.latched c) (t.latched c) ?_ ?_ ?_ ?_ ?_ ?_ <;> simp [*, Panel.onBus, reception]

theorem heard_append (s : State) (a b : List Cycle) : s.heard (a ++ b) = (s.heard a).heard b := by
  simp [State.heard]

@[simp] theorem heard_nil (s : State) : s.heard [] = s := rfl

theorem heard_cons (s : State) (c : Cycle) (l : List Cycle) : s.heard (c :: l) = (s.latched c).heard l := rfl

/-- Hearing cycles changes the transcript, the panel and the count, and nothing else. -/
theorem heard_frame (l : List Cycle) : ∀ s : State,
    s.heard l = { s with trace := s.trace ++ l.map Cycle.event, panel := (s.heard l).panel, free := s.free + l.length } := by
  induction l with
  | nil => intro s; simp
  | cons c rest ih =>
    intro s
    rw [heard_cons, ih]
    simp [State.latched, Nat.add_comm, Nat.add_left_comm]

theorem Sent.refl (s : State) : Sent [] s s :=
  ⟨rfl, rfl, rfl, rfl, rfl, rfl, rfl, rfl, rfl, rfl, by simp, rfl, rfl, List.suffix_refl _⟩

theorem Sent.trans {a b : List Cycle} {s t u : State} (h : Sent a s t) (k : Sent b t u) : Sent (a ++ b) s u where
  driver := k.driver.trans h.driver
  transport := k.transport.trans h.transport
  cfg := k.cfg.trans h.cfg
  cs := k.cs.trans h.cs
  rst := k.rst.trans h.rst
  seq := k.seq.trans h.seq
  phase := k.phase.trans h.phase
  ret := k.ret.trans h.ret
  par := k.par.trans h.par
  port := k.port.trans h.port
  trace := by rw [k.trace, h.trace]; simp
  panel := by
    rw [k.panel, heard_append]
    have hf := heard_frame a s
    refine heard_congr b _ _ h.panel ?_ ?_ ?_ ?_ ?_
    · rw [h.free, hf]
    · rw [h.par, hf]
    · rw [h.phase, hf]
    · rw [h.cs, hf]
    · rw [h.rst, hf]
  free := by rw [k.free, h.free]; simp [Nat.add_assoc]
  draws := k.draws.trans h.draws

theorem Sent.drawn (s : State) : Sent [] s s.drawn :=
  ⟨rfl, rfl, rfl, rfl, rfl, rfl, rfl, rfl, rfl, rfl, by simp, rfl, rfl, List.tail_suffix _⟩

theorem Sent.latched (s : State) (c : Cycle) : Sent [c] s (s.latched c) :=
  ⟨rfl, rfl, rfl, rfl, rfl, rfl, rfl, rfl, rfl, rfl, by simp, rfl, rfl, List.suffix_refl _⟩

/-- The transport's own lines. -/
abbrev Pin.ofTransport : Pin → Prop
  | .cs => False
  | .rst => False
  | _ => True

theorem Sent.setPin (s : State) {line : Pin} (hl : line.ofTransport) (v : LineState) : Sent [] s (s.setPin line v) := by
  cases line <;> first | exact hl.elim |
    exact ⟨rfl, rfl, rfl, rfl, rfl, rfl, rfl, rfl, rfl, rfl, by simp, rfl, rfl, List.suffix_refl _⟩

/-- After the cycles are sent, a state whose pins hold still has pins that hold. -/
theorem Sent.pinsHold {l : List Cycle} {s t : State} (h : Sent l s t) (hs : s.pinsHold) : t.pinsHold :=
  fun d hd => hs d (h.draws.mem hd)

/-! ## Results -/

/-- The state a step left. -/
def Res.state : Res → State
  | .ok s => s
  | .err _ s => s

/-- The step sends a first part of the cycles `l`, and all of them if it succeeds. -/
def Res.sends (l : List Cycle) (s : State) : Res → Prop
  | .ok t => Sent l s t
  | .err _ t => ∃ k, k <+: l ∧ Sent k s t

@[simp] theorem Res.bind_ok (s : State) (f : State → Res) : (Res.ok s).bind f = f s := rfl
@[simp] theorem Res.bind_err (e : Error) (s : State) (f : State → Res) : (Res.err e s).bind f = .err e s := rfl

theorem Res.bind_assoc (r : Res) (f g : State → Res) : (r.bind f).bind g = r.bind fun s => (f s).bind g := by
  cases r <;> rfl

/-- A step that succeeded before another did. -/
theorem Res.bind_eq_ok {r : Res} {f : State → Res} {u : State} (h : r.bind f = .ok u) :
    ∃ t, r = .ok t ∧ f t = .ok u := by
  cases r with
  | ok t => exact ⟨t, rfl, h⟩
  | err e t => cases h

/-- A failure of two steps is the first one's, or the second one's after the first succeeded. -/
theorem Res.bind_eq_err {r : Res} {f : State → Res} {e : Error} {u : State} (h : r.bind f = .err e u) :
    r = .err e u ∨ ∃ t, r = .ok t ∧ f t = .err e u := by
  cases r with
  | ok t => exact .inr ⟨t, rfl, h⟩
  | err e t => exact .inl h

theorem Res.sends_bind {a b : List Cycle} {s : State} {r : Res} {f : State → Res} (h : r.sends a s)
    (k : ∀ t, r = .ok t → (f t).sends b t) : (r.bind f).sends (a ++ b) s := by
  cases r with
  | err e t =>
    obtain ⟨p, hp, hs⟩ := h
    exact ⟨p, hp.trans (List.prefix_append a b), hs⟩
  | ok t =>
    have hk := k t rfl
    rw [Res.bind_ok]
    cases hr : f t with
    | ok u => rw [hr] at hk; exact h.trans hk
    | err e u =>
      rw [hr] at hk
      obtain ⟨p, hp, hs⟩ := hk
      exact ⟨a ++ p, (List.prefix_append_right_inj a).mpr hp, h.trans hs⟩

/-- A step for each element sends each element's cycles, if some property of the state that holds at the start is kept
and makes every single step do so. -/
theorem forEach_sends {α : Type} (f : α → State → Res) (g : α → List Cycle) (I : State → Prop) (l : List α)
    (h : ∀ a ∈ l, ∀ t, I t → (f a t).sends (g a) t) (k : ∀ a ∈ l, ∀ t u, I t → f a t = .ok u → I u) :
    ∀ s : State, I s → (forEach f l s).sends (l.flatMap g) s := by
  induction l with
  | nil => intro s _; exact Sent.refl s
  | cons a rest ih =>
    intro s hs
    rw [List.flatMap_cons]
    exact Res.sends_bind (h a (by simp) s hs) fun t ht =>
      ih (fun b hb => h b (by simp [hb])) (fun b hb => k b (by simp [hb])) t (k a (by simp) s t hs ht)

/-- A property of the state that every step keeps is kept. -/
theorem forEach_keeps {α : Type} (f : α → State → Res) (I : State → Prop) (l : List α)
    (k : ∀ a ∈ l, ∀ t u, I t → f a t = .ok u → I u) : ∀ s u : State, I s → forEach f l s = .ok u → I u := by
  induction l with
  | nil => intro s u hs h; cases h; exact hs
  | cons a rest ih =>
    intro s u hs h
    obtain ⟨t, ht, hu⟩ := Res.bind_eq_ok h
    exact ih (fun b hb => k b (by simp [hb])) t u (k a (by simp) s t hs ht) hu

/-- Two lists, one after the other. -/
theorem forEach_append {α : Type} (f : α → State → Res) (a b : List α) : ∀ s : State,
    forEach f (a ++ b) s = (forEach f a s).bind (forEach f b) := by
  induction a with
  | nil => intro s; rfl
  | cons x rest ih =>
    intro s
    simp only [List.cons_append, forEach, Res.bind_assoc]
    congr 1
    funext t
    exact ih t

/-! ## Drives -/

theorem nextDraw_of_pinsHold {s : State} (h : s.pinsHold) : s.nextDraw = .succeeds := by
  unfold State.nextDraw
  cases hd : s.draws with
  | nil => rfl
  | cons d ds => exact h d (by simp [hd])

/-- A drive whose pins hold succeeds. -/
theorem drive_of_pinsHold {s : State} (h : s.pinsHold) (line : Pin) (l : Level) (e : Error) :
    drive line l e s = .ok ((s.drawn.attempt line l).driven line l) := by
  simp [drive, nextDraw_of_pinsHold h]

/-- Everything a drive can do: it succeeds and sets the line, or fails, leaves the line Unknown and raises its error. -/
theorem drive_cases (line : Pin) (l : Level) (e : Error) (s : State) :
    drive line l e s = .ok ((s.drawn.attempt line l).driven line l) ∨
    drive line l e s = .err e ((s.drawn.attempt line l).setPin line .unknown) := by
  unfold drive
  cases s.nextDraw
  · exact .inl rfl
  · exact .inr rfl

theorem attempt_of_transport (s : State) {line : Pin} (hl : line.ofTransport) (l : Level) : s.attempt line l = s := by
  cases line <;> first | exact hl.elim | rfl

/-- A drive of a transport line that does not latch: nothing is sent. -/
theorem drive_sends_nothing {line : Pin} {l : Level} {e : Error} {s : State} (hl : line.ofTransport)
    (hw : ¬ (line = .wr ∧ l = .high)) : (drive line l e s).sends [] s := by
  rcases drive_cases line l e s with h | h <;> rw [h, attempt_of_transport _ hl]
  · have hd : s.drawn.driven line l = s.drawn.setPin line (.known l) := by
      cases line <;> first | exact hl.elim | rfl | skip
      have : l ≠ .high := fun hh => hw ⟨rfl, hh⟩
      simp [State.driven, this]
    rw [hd]
    exact (Sent.drawn s).trans (Sent.setPin _ hl _)
  · exact ⟨[], List.prefix_refl _, (Sent.drawn s).trans (Sent.setPin _ hl _)⟩

/-- What a successful drive of a transport line that does not latch leaves on the lines. -/
theorem drive_pins {line : Pin} {l : Level} {e : Error} {s t : State} (hl : line.ofTransport)
    (hw : ¬ (line = .wr ∧ l = .high)) (h : drive line l e s = .ok t) : t.pins = s.pins.set line (.known l) := by
  rcases drive_cases line l e s with k | k <;> rw [k, attempt_of_transport _ hl] at h
  · cases h
    cases line <;> first | exact hl.elim | rfl | skip
    have : l ≠ .high := fun hh => hw ⟨rfl, hh⟩
    simp [State.driven, this]
  · cases h

/-! ## The data lines -/

/-- The levels of the data lines after some of them were driven to a byte. -/
def linesAfter (b : Byte) (l : List Nat) (d : Vector LineState 8) : Vector LineState 8 :=
  l.foldl (fun d i => d.setIfInBounds i (.known (dataLevel b i))) d

theorem linesAfter_get (b : Byte) (l : List Nat) : ∀ (d : Vector LineState 8) (i : Nat) (hi : i < 8),
    (linesAfter b l d)[i] = if i ∈ l then .known (dataLevel b i) else d[i] := by
  induction l with
  | nil => intro d i hi; simp [linesAfter]
  | cons j rest ih =>
    intro d i hi
    have := ih (d.setIfInBounds j (.known (dataLevel b j))) i hi
    rw [show linesAfter b (j :: rest) d = linesAfter b rest (d.setIfInBounds j (.known (dataLevel b j))) from rfl, this]
    by_cases hm : i ∈ rest
    · simp [hm]
    · by_cases hij : j = i
      · subst hij; simp
      · simp [hm, hij, Ne.symm hij]

/-! ## Bijections -/

theorem swapOnce_lt {n : Nat} (p : Nat × Nat) {i : Nat} (hi : i < n) : swapOnce n p i < n := by
  unfold swapOnce
  split
  · split
    · omega
    · split
      · omega
      · exact hi
  · exact hi

theorem swapOnce_swapOnce (n : Nat) (p : Nat × Nat) (i : Nat) : swapOnce n p (swapOnce n p i) = i := by
  unfold swapOnce
  split <;> simp_all
  split <;> simp_all

theorem applySwaps_lt {n : Nat} (sw : Swaps) : ∀ {i : Nat}, i < n → applySwaps n sw i < n := by
  induction sw with
  | nil => intro i hi; exact hi
  | cons p rest ih => intro i hi; exact ih (swapOnce_lt p hi)

theorem applySwaps_injective (n : Nat) (sw : Swaps) : Function.Injective (applySwaps n sw) := by
  induction sw with
  | nil => intro i j h; exact h
  | cons p rest ih =>
    intro i j h
    have := ih (a₁ := swapOnce n p i) (a₂ := swapOnce n p j) h
    simpa [swapOnce_swapOnce] using congrArg (swapOnce n p) this

theorem applySwaps_append (n : Nat) (a b : Swaps) (i : Nat) : applySwaps n (a ++ b) i = applySwaps n b (applySwaps n a i) := by
  simp [applySwaps]

/-- Every number below `n` is taken: the transpositions in reverse lead back. -/
theorem applySwaps_surjective (n : Nat) (sw : Swaps) : ∀ i, applySwaps n sw (applySwaps n sw.reverse i) = i := by
  induction sw with
  | nil => intro i; rfl
  | cons p rest ih =>
    intro i
    rw [List.reverse_cons, applySwaps_append]
    show applySwaps n rest (swapOnce n p (swapOnce n p (applySwaps n rest.reverse i))) = i
    rw [swapOnce_swapOnce]
    exact ih i

/-- Every data line is in the order of the drives. -/
theorem mem_lineOrder (sw : Swaps) {i : Nat} (hi : i < 8) : i ∈ lineOrder sw :=
  List.mem_map.mpr ⟨applySwaps 8 sw.reverse i, List.mem_range.mpr (applySwaps_lt _ hi), applySwaps_surjective 8 sw i⟩

/-- Every line of the order is a data line. -/
theorem lineOrder_lt (sw : Swaps) {i : Nat} (hi : i ∈ lineOrder sw) : i < 8 := by
  obtain ⟨j, hj, rfl⟩ := List.mem_map.mp hi
  exact applySwaps_lt _ (List.mem_range.mp hj)

/-- Driven in any order, the eight lines carry the byte. -/
theorem linesAfter_lineOrder (b : Byte) (sw : Swaps) (d : Vector LineState 8) : linesAfter b (lineOrder sw) d = linesOf b := by
  ext i hi
  rw [linesAfter_get b _ d i hi]
  simp [mem_lineOrder sw hi, linesOf]

/-- The number of a byte's bits, bit 0 first, is the byte. -/
theorem bitsValue_bits : ∀ b : Byte, BitVec.ofNat 8 (bitsValue [b.getLsbD 0, b.getLsbD 1, b.getLsbD 2, b.getLsbD 3,
    b.getLsbD 4, b.getLsbD 5, b.getLsbD 6, b.getLsbD 7]) = b := by
  decide

/-- The byte on the lines is the byte they were driven to. -/
theorem sampleByte_linesOf (b : Byte) : sampleByte (linesOf b) = some b := by
  have h : (linesOf b).toList = (List.range 8).map fun i => LineState.known (dataLevel b i) := rfl
  have hb : ∀ i, (LineState.known (dataLevel b i)).bit? = some (b.getLsbD i) := by
    intro i
    unfold dataLevel levelOf
    cases b.getLsbD i <;> rfl
  unfold sampleByte
  rw [h]
  simp only [List.range_succ, List.range_zero, List.nil_append, List.map_cons, List.map_nil, List.cons_append, bits?, hb,
    Option.bind_some, Option.map_some, bitsValue_bits]

/-! ## Success and failure -/

/-- If the pins hold, the step succeeds and they still do. -/
def Res.fine (s : State) (r : Res) : Prop := s.pinsHold → ∃ t, r = .ok t ∧ t.pinsHold

theorem Res.fine_ok (s t : State) (h : t.draws = s.draws) : (Res.ok t).fine s :=
  fun hs => ⟨t, rfl, by unfold State.pinsHold; rw [h]; exact hs⟩

theorem Res.fine_bind {s : State} {r : Res} {f : State → Res} (h : r.fine s) (k : ∀ t, (f t).fine t) : (r.bind f).fine s := by
  intro hs
  obtain ⟨t, rfl, ht⟩ := h hs
  exact k t ht

theorem forEach_fine {α : Type} (f : α → State → Res) (h : ∀ a t, (f a t).fine t) (l : List α) : ∀ s, (forEach f l s).fine s := by
  induction l with
  | nil => intro s; exact Res.fine_ok s s rfl
  | cons a rest ih => intro s; exact Res.fine_bind (h a s) ih

theorem driven_draws (s : State) (line : Pin) (l : Level) : (s.driven line l).draws = s.draws := by
  cases line <;> first | rfl | skip
  unfold State.driven
  dsimp only
  split <;> rfl

theorem attempt_draws (s : State) (line : Pin) (l : Level) : (s.attempt line l).draws = s.draws := by
  unfold State.attempt
  split <;> rfl

theorem drive_fine (line : Pin) (l : Level) (e : Error) (s : State) : (drive line l e s).fine s := by
  intro hs
  refine ⟨_, drive_of_pinsHold hs line l e, fun d hd => hs d ?_⟩
  rw [driven_draws, attempt_draws] at hd
  exact List.mem_of_mem_tail hd

/-- A failing step leaves an error and a state with the property `p`. -/
def Res.onErr (p : Error → State → Prop) : Res → Prop
  | .ok _ => True
  | .err e t => p e t

theorem Res.onErr_bind {p : Error → State → Prop} {r : Res} {f : State → Res} (h : r.onErr p)
    (k : ∀ t, r = .ok t → (f t).onErr p) : (r.bind f).onErr p := by
  cases r with
  | ok t => exact k t rfl
  | err e t => exact h

theorem Res.onErr_mono {p q : Error → State → Prop} {r : Res} (h : r.onErr p) (k : ∀ e t, p e t → q e t) : r.onErr q := by
  cases r with
  | ok t => trivial
  | err e t => exact k e t h

theorem forEach_onErr {α : Type} {p : Error → State → Prop} (f : α → State → Res) (l : List α)
    (h : ∀ a ∈ l, ∀ t, (f a t).onErr p) : ∀ s, (forEach f l s).onErr p := by
  induction l with
  | nil => intro s; trivial
  | cons a rest ih =>
    intro s
    exact Res.onErr_bind (h a (by simp) s) fun t _ => ih (fun b hb => h b (by simp [hb])) t

theorem drive_onErr {p : Error → State → Prop} (line : Pin) (l : Level) (e : Error) (s : State)
    (h : p e ((s.drawn.attempt line l).setPin line .unknown)) : (drive line l e s).onErr p := by
  rcases drive_cases line l e s with k | k <;> rw [k]
  · trivial
  · exact h

/-! ## Bus cycles -/

theorem driveByte_sends (e : Error) (b : Byte) (s : State) : (driveByte e b s).sends [] s := by
  have h := forEach_sends (fun i => drive (.d i) (dataLevel b i) e) (fun _ => []) (fun _ => True) (lineOrder s.par.dataOrder)
    (fun i _ t _ => drive_sends_nothing trivial (by simp)) (fun _ _ _ _ _ _ => trivial) s trivial
  rwa [show (lineOrder s.par.dataOrder).flatMap (fun _ => ([] : List Cycle)) = [] by simp] at h

theorem driveByte_pins {e : Error} {b : Byte} {s t : State} (h : driveByte e b s = .ok t) :
    t.pins = { s.pins with d := linesOf b } := by
  suffices H : ∀ (l : List Nat) (s t : State), forEach (fun i => drive (.d i) (dataLevel b i) e) l s = .ok t →
      t.pins = { s.pins with d := linesAfter b l s.pins.d } by
    rw [H _ _ _ h, linesAfter_lineOrder]
  intro l
  induction l with
  | nil => intro s t h; cases h; rfl
  | cons i rest ih =>
    intro s t h
    obtain ⟨u, hu, ht⟩ := Res.bind_eq_ok h
    have hp := drive_pins (line := .d i) trivial (by simp) hu
    rw [ih u t ht, hp]
    rfl

theorem driveByte_fine (e : Error) (b : Byte) (s : State) : (driveByte e b s).fine s :=
  forEach_fine _ (fun _ _ => drive_fine _ _ _ _) _ _

/-- The cycle that DC at `dl` and the byte make (R112). -/
def cycleAt (P : Params) (dl : Level) (b : Byte) : Cycle := if dl = P.dcCmdLevel then .cmd b else .dat b

theorem cycleAt_cmd (P : Params) (b : Byte) : cycleAt P P.dcCmdLevel b = .cmd b := if_pos rfl

theorem cycleAt_dat (P : Params) (b : Byte) : cycleAt P (dataDcLevel P) b = .dat b := by
  unfold cycleAt dataDcLevel
  cases P.dcCmdLevel <;> rfl

/-- A successful rise of WR from Low latches the cycle that stands on DC and the data lines. -/
theorem driven_wr_latches {b : Byte} {dl : Level} {s : State} (hw : s.pins.wr = .known .low) (hdc : s.pins.dc = .known dl)
    (hd : s.pins.d = linesOf b) :
    s.driven .wr .high = (s.setPin .wr (.known .high)).latched (cycleAt s.par dl b) := by
  have hc : sampleCycle (s.setPin .wr (.known .high)).par (s.setPin .wr (.known .high)).pins = some (cycleAt s.par dl b) := by
    simp [sampleCycle, hdc, hd, sampleByte_linesOf, cycleAt]
    rfl
  simp only [State.driven, hw, and_self, if_true]
  exact State.latch_of_sample _ _ hc

/-- A strobe latches the cycle that stands on DC and the data lines, and nothing if it fails. -/
theorem strobe_sends {e : Error} {b : Byte} {dl : Level} {s : State} (hdc : s.pins.dc = .known dl) (hd : s.pins.d = linesOf b) :
    (strobe e s).sends [cycleAt s.par dl b] s := by
  have h := Res.sends_bind (a := []) (b := [cycleAt s.par dl b]) (r := drive .wr .low e s) (f := drive .wr .high e)
    (drive_sends_nothing trivial (by simp)) ?_
  · exact h
  intro t ht
  have hp := drive_pins (line := .wr) trivial (by simp) ht
  have hs : Sent [] s t := by
    have := drive_sends_nothing (line := .wr) (l := .low) (e := e) (s := s) trivial (by simp)
    rwa [ht] at this
  rcases drive_cases .wr .high e t with k | k <;> rw [k, attempt_of_transport (line := .wr) _ trivial]
  · rw [driven_wr_latches (s := t.drawn) (b := b) (dl := dl) (by simp [hp]) (by simp [hp, hdc]) (by simp [hp, hd]), ← hs.par]
    exact ((Sent.drawn t).trans (Sent.setPin _ (line := .wr) trivial _)).trans (Sent.latched _ _)
  · exact ⟨[], List.nil_prefix, (Sent.drawn t).trans (Sent.setPin _ (line := .wr) trivial _)⟩

theorem strobe_pins {e : Error} {s t : State} (h : strobe e s = .ok t) : t.pins = { s.pins with wr := .known .high } := by
  obtain ⟨u, hu, ht⟩ := Res.bind_eq_ok h
  have hp := drive_pins (line := .wr) trivial (by simp) hu
  rcases drive_cases .wr .high e u with k | k <;> rw [k, attempt_of_transport (line := .wr) _ trivial] at ht
  · cases ht
    simp only [State.driven, State.drawn_pins, hp, Pins.set_wr_wr, and_self, if_true, State.latch_pins, State.setPin_pins]
    rfl
  · cases ht

theorem strobeByte_sends {e : Error} {b : Byte} {dl : Level} {s : State} (hdc : s.pins.dc = .known dl) :
    (strobeByte e b s).sends [cycleAt s.par dl b] s := by
  have h := Res.sends_bind (a := []) (b := [cycleAt s.par dl b]) (r := driveByte e b s) (f := strobe e) (driveByte_sends e b s) ?_
  · exact h
  intro t ht
  have hp := driveByte_pins ht
  have hs : Sent [] s t := by
    have := driveByte_sends e b s
    rwa [ht] at this
  rw [← hs.par]
  exact strobe_sends (by rw [hp]; exact hdc) (by rw [hp])

theorem strobeByte_pins {e : Error} {b : Byte} {s t : State} (h : strobeByte e b s = .ok t) :
    t.pins = { s.pins with wr := .known .high, d := linesOf b } := by
  obtain ⟨u, hu, ht⟩ := Res.bind_eq_ok h
  rw [strobe_pins ht, driveByte_pins hu]

theorem strobeByte_fine (e : Error) (b : Byte) (s : State) : (strobeByte e b s).fine s :=
  Res.fine_bind (driveByte_fine e b s) fun t => Res.fine_bind (drive_fine _ _ _ t) fun u => drive_fine _ _ _ u

theorem serialCycle_sends (e : Error) (c : Cycle) (s : State) : (serialCycle e c s).sends [c] s := by
  unfold serialCycle
  cases s.nextDraw
  · exact (Sent.drawn s).trans (Sent.latched _ c)
  · exact ⟨[], List.nil_prefix, Sent.drawn s⟩

theorem serialCycle_fine (e : Error) (c : Cycle) (s : State) : (serialCycle e c s).fine s := by
  intro hs
  refine ⟨s.drawn.latched c, by simp [serialCycle, nextDraw_of_pinsHold hs], fun d hd => hs d (List.mem_of_mem_tail hd)⟩

/-! ## Steps of whole cycles -/

/-- The step sends the cycles `l`, or fails after some of them as `failsAt` says. -/
def Res.transfers (l : List Cycle) (s : State) : Res → Prop
  | .ok t => Sent l s t
  | .err e t => ∃ k, failsAt e k l ∧ Sent k s t

theorem failsAt_prefix {e : Error} {k l : List Cycle} (h : failsAt e k l) : k <+: l := by
  rcases h with ⟨_, h, _⟩ | ⟨_, b, rest, rfl⟩
  · exact h
  · exact List.prefix_append _ _

/-- Failing in the first of two lists. -/
theorem failsAt_left {e : Error} {k a : List Cycle} (b : List Cycle) (h : failsAt e k a) : failsAt e k (a ++ b) := by
  rcases h with ⟨he, hp, ⟨c, rest, rfl⟩ | hc⟩ | ⟨he, c, rest, rfl⟩
  · exact .inl ⟨he, hp.trans (List.prefix_append _ _), .inl ⟨c, rest ++ b, by simp⟩⟩
  · exact .inl ⟨he, hp.trans (List.prefix_append _ _), .inr hc⟩
  · exact .inr ⟨he, c, rest ++ b, by simp⟩

/-- Failing in the second of two lists. -/
theorem failsAt_right {e : Error} {k b : List Cycle} (a : List Cycle) (h : failsAt e k b) : failsAt e (a ++ k) (a ++ b) := by
  rcases h with ⟨he, hp, ⟨c, rest, rfl⟩ | ⟨c, first, rfl⟩⟩ | ⟨he, c, rest, rfl⟩
  · exact .inl ⟨he, (List.prefix_append_right_inj a).mpr hp, .inl ⟨c, rest, by simp⟩⟩
  · exact .inl ⟨he, (List.prefix_append_right_inj a).mpr hp, .inr ⟨c, a ++ first, by simp⟩⟩
  · exact .inr ⟨he, c, rest, by simp⟩

theorem Res.transfers_bind {a b : List Cycle} {s : State} {r : Res} {f : State → Res} (h : r.transfers a s)
    (k : ∀ t, r = .ok t → (f t).transfers b t) : (r.bind f).transfers (a ++ b) s := by
  cases r with
  | err e t =>
    obtain ⟨p, hp, hs⟩ := h
    exact ⟨p, failsAt_left b hp, hs⟩
  | ok t =>
    have hk := k t rfl
    rw [Res.bind_ok]
    cases hr : f t with
    | ok u => rw [hr] at hk; exact h.trans hk
    | err e u =>
      rw [hr] at hk
      obtain ⟨p, hp, hs⟩ := hk
      exact ⟨a ++ p, failsAt_right a hp, h.trans hs⟩

/-- A step for each element transfers each element's cycles, if some property of the state that holds at the start is
kept and makes every single step do so. -/
theorem forEach_transfers {α : Type} (f : α → State → Res) (g : α → List Cycle) (I : State → Prop) (l : List α)
    (h : ∀ a ∈ l, ∀ t, I t → (f a t).transfers (g a) t) (k : ∀ a ∈ l, ∀ t u, I t → f a t = .ok u → I u) :
    ∀ s : State, I s → (forEach f l s).transfers (l.flatMap g) s := by
  induction l with
  | nil => intro s _; exact Sent.refl s
  | cons a rest ih =>
    intro s hs
    rw [List.flatMap_cons]
    exact Res.transfers_bind (h a (by simp) s hs) fun t ht =>
      ih (fun b hb => h b (by simp [hb])) (fun b hb => k b (by simp [hb])) t (k a (by simp) s t hs ht)

/-- What a step sent, when it succeeded. -/
theorem Res.sent_of_ok {l : List Cycle} {s t : State} {r : Res} (h : r.transfers l s) (k : r = .ok t) : Sent l s t := by
  rw [k] at h; exact h

/-- The property of failing steps: every error the step raises is `e`. -/
abbrev Res.raisesOnly (e : Error) (r : Res) : Prop := r.onErr fun e' _ => e' = e

theorem drive_raises (line : Pin) (l : Level) (e : Error) (s : State) : (drive line l e s).raisesOnly e :=
  drive_onErr line l e s rfl

theorem strobeByte_raises (e : Error) (b : Byte) (s : State) : (strobeByte e b s).raisesOnly e :=
  Res.onErr_bind (forEach_onErr _ _ (fun _ _ t => drive_raises _ _ e t) s) fun t _ =>
    Res.onErr_bind (drive_raises _ _ e t) fun u _ => drive_raises _ _ e u

theorem serialCycle_raises (e : Error) (c : Cycle) (s : State) : (serialCycle e c s).raisesOnly e := by
  unfold serialCycle
  cases s.nextDraw
  · trivial
  · exact rfl

theorem writeCommand_raises (b : Byte) (s : State) : (writeCommand b s).raisesOnly (.bus .command) := by
  unfold writeCommand
  split
  · exact Res.onErr_bind (drive_raises _ _ _ s) fun t _ =>
      Res.onErr_bind (strobeByte_raises _ _ t) fun u _ => drive_raises _ _ _ u
  · exact serialCycle_raises _ _ s

theorem beginBurst_raises (s : State) : (beginBurst s).raisesOnly (.bus .data) := by
  unfold beginBurst
  split
  · exact drive_raises _ _ _ s
  · trivial

theorem dataCycle_raises (b : Byte) (s : State) : (dataCycle b s).raisesOnly (.bus .data) := by
  unfold dataCycle
  split
  · exact strobeByte_raises _ _ s
  · exact serialCycle_raises _ _ s

/-! ## The transport's operations -/

theorem writeCommand_sends (b : Byte) (s : State) : (writeCommand b s).sends [.cmd b] s := by
  unfold writeCommand
  split
  · refine Res.sends_bind (a := []) (b := [.cmd b]) (drive_sends_nothing trivial (by simp)) fun t ht => ?_
    have hp := drive_pins (line := .dc) trivial (by simp) ht
    have hs : Sent [] s t := by
      have := drive_sends_nothing (line := .dc) (l := s.par.dcCmdLevel) (e := .bus .command) (s := s) trivial (by simp)
      rwa [ht] at this
    refine Res.sends_bind (a := [.cmd b]) (b := []) ?_ fun u _ => drive_sends_nothing trivial (by simp)
    have := strobeByte_sends (e := .bus .command) (b := b) (dl := s.par.dcCmdLevel) (s := t) (by rw [hp]; rfl)
    rwa [hs.par, cycleAt_cmd] at this
  · exact serialCycle_sends _ _ s

theorem writeCommand_transfers (b : Byte) (s : State) : (writeCommand b s).transfers [.cmd b] s := by
  have h := writeCommand_sends b s
  have he := writeCommand_raises b s
  cases hr : writeCommand b s with
  | ok t => rw [hr] at h; exact h
  | err e t =>
    rw [hr] at h he
    obtain ⟨k, hk, hs⟩ := h
    refine ⟨k, .inl ⟨he, hk, ?_⟩, hs⟩
    rcases List.prefix_cons_iff.mp hk with rfl | ⟨k', rfl, hk'⟩
    · exact .inl ⟨b, [], rfl⟩
    · exact .inr ⟨b, [], by rw [List.prefix_nil.mp hk']; rfl⟩

theorem writeCommand_fine (b : Byte) (s : State) : (writeCommand b s).fine s := by
  unfold writeCommand
  split
  · exact Res.fine_bind (drive_fine _ _ _ s) fun t => Res.fine_bind (strobeByte_fine _ _ t) fun u => drive_fine _ _ _ u
  · exact serialCycle_fine _ _ s

/-- The lines a successful command cycle leaves on the parallel transport. -/
theorem writeCommand_pins {b : Byte} {s t : State} (hp : s.transport = .parallel8) (h : writeCommand b s = .ok t) :
    t.pins = s.pins.afterCommand s.par b := by
  unfold writeCommand at h
  rw [hp] at h
  obtain ⟨u, hu, h⟩ := Res.bind_eq_ok h
  obtain ⟨v, hv, h⟩ := Res.bind_eq_ok h
  have h1 := drive_pins (line := .dc) trivial (by simp) hu
  have h2 := strobeByte_pins hv
  have h3 := drive_pins (line := .dc) trivial (by simp) h
  have hs : Sent [] s u := by
    have := drive_sends_nothing (line := .dc) (l := s.par.dcCmdLevel) (e := .bus .command) (s := s) trivial (by simp)
    rwa [hu] at this
  have hs' : Sent [.cmd b] u v := by
    have := strobeByte_sends (e := .bus .command) (b := b) (dl := s.par.dcCmdLevel) (s := u) (by rw [h1]; rfl)
    rwa [hv, hs.par, cycleAt_cmd] at this
  rw [h3, h2, h1, hs'.par, hs.par]
  rfl

/-- A burst is open: on the parallel transport DC is at the data level. -/
def State.inBurst (s : State) : Prop := s.transport = .parallel8 → s.pins.dc = .known (dataDcLevel s.par)

theorem beginBurst_sends (s : State) : (beginBurst s).sends [] s := by
  unfold beginBurst
  split
  · exact drive_sends_nothing trivial (by simp)
  · exact Sent.refl s

theorem beginBurst_inBurst {s t : State} (h : beginBurst s = .ok t) : t.inBurst := by
  intro hp
  have hs := beginBurst_sends s
  rw [h] at hs
  have hs : Sent [] s t := hs
  unfold beginBurst at h
  rw [← hs.transport, hp] at h
  rw [drive_pins (line := .dc) trivial (by simp) h, hs.par]
  rfl

theorem beginBurst_fine (s : State) : (beginBurst s).fine s := by
  unfold beginBurst
  split
  · exact drive_fine _ _ _ s
  · exact Res.fine_ok s s rfl

theorem dataCycle_sends (b : Byte) {s : State} (h : s.inBurst) : (dataCycle b s).sends [.dat b] s := by
  unfold dataCycle
  split
  · rename_i hp
    have := strobeByte_sends (e := .bus .data) (b := b) (h hp)
    rwa [cycleAt_dat] at this
  · exact serialCycle_sends _ _ s

/-- A data cycle that fails sends nothing. -/
theorem dataCycle_err {b : Byte} {s t : State} {e : Error} (h : dataCycle b s = .err e t) : Sent [] s t := by
  unfold dataCycle at h
  split at h
  · rcases Res.bind_eq_err h with k | ⟨u, hu, k⟩
    · have hs := driveByte_sends (.bus .data) b s
      rw [k] at hs
      obtain ⟨p, hp, hs⟩ := hs
      rwa [List.prefix_nil.mp hp] at hs
    · have hs : Sent [] s u := by
        have := driveByte_sends (.bus .data) b s
        rwa [hu] at this
      rcases Res.bind_eq_err k with k | ⟨v, hv, k⟩
      · have hw := drive_sends_nothing (line := .wr) (l := .low) (e := .bus .data) (s := u) trivial (by simp)
        rw [k] at hw
        obtain ⟨p, hp, hw⟩ := hw
        rw [List.prefix_nil.mp hp] at hw
        exact hs.trans hw
      · have hw : Sent [] u v := by
          have := drive_sends_nothing (line := .wr) (l := .low) (e := .bus .data) (s := u) trivial (by simp)
          rwa [hv] at this
        rcases drive_cases .wr .high (.bus .data) v with k' | k' <;>
          rw [k', attempt_of_transport (line := .wr) _ trivial] at k <;> cases k
        exact (hs.trans hw).trans ((Sent.drawn v).trans (Sent.setPin _ (line := .wr) trivial _))
  · unfold serialCycle at h
    cases hd : s.nextDraw <;> rw [hd] at h <;> cases h
    exact Sent.drawn s

theorem dataCycle_transfers (b : Byte) {s : State} (h : s.inBurst) : (dataCycle b s).transfers [.dat b] s := by
  have hs := dataCycle_sends b h
  have he := dataCycle_raises b s
  cases hr : dataCycle b s with
  | ok t => rw [hr] at hs; exact hs
  | err e t =>
    rw [hr] at he
    exact ⟨[], .inr ⟨he, b, [], rfl⟩, dataCycle_err hr⟩

theorem dataCycle_inBurst {b : Byte} {s t : State} (h : s.inBurst) (k : dataCycle b s = .ok t) : t.inBurst := by
  intro hp
  have hs := dataCycle_sends b h
  rw [k] at hs
  have hs : Sent [.dat b] s t := hs
  have hp' : s.transport = .parallel8 := hs.transport ▸ hp
  unfold dataCycle at k
  rw [hp'] at k
  rw [strobeByte_pins k, hs.par]
  exact h hp'

theorem dataCycle_fine (b : Byte) (s : State) : (dataCycle b s).fine s := by
  unfold dataCycle
  split
  · exact strobeByte_fine _ _ s
  · exact serialCycle_fine _ _ s

/-- Data cycles one after the other in an open burst. -/
theorem dataCycles_transfers (bs : List Byte) {s : State} (h : s.inBurst) : (forEach dataCycle bs s).transfers (bs.map .dat) s := by
  have := forEach_transfers dataCycle (fun b => [.dat b]) State.inBurst bs (fun b _ t ht => dataCycle_transfers b ht)
    (fun b _ t u ht hu => dataCycle_inBurst ht hu) s h
  rwa [show bs.flatMap (fun b => [Cycle.dat b]) = bs.map .dat by rw [List.map_eq_flatMap]] at this

theorem writeData_transfers (bs : List Byte) (s : State) : (writeData bs s).transfers (bs.map .dat) s := by
  cases bs with
  | nil => exact Sent.refl s
  | cons b rest =>
    have hs := beginBurst_sends s
    have he := beginBurst_raises s
    show ((beginBurst s).bind (forEach dataCycle (b :: rest))).transfers _ s
    cases hr : beginBurst s with
    | err e t =>
      rw [hr] at hs he
      obtain ⟨k, hk, hs⟩ := hs
      exact ⟨k, .inr ⟨he, b, rest.map .dat, by rw [List.prefix_nil.mp hk]; rfl⟩, hs⟩
    | ok t =>
      rw [hr] at hs
      have hk := dataCycles_transfers (b :: rest) (beginBurst_inBurst hr)
      rw [Res.bind_ok]
      cases hu : forEach dataCycle (b :: rest) t with
      | ok u => rw [hu] at hk; exact Sent.trans (a := []) hs hk
      | err e u =>
        rw [hu] at hk
        obtain ⟨p, hp, hk⟩ := hk
        exact ⟨p, hp, Sent.trans (a := []) hs hk⟩

theorem writeData_fine (bs : List Byte) (s : State) : (writeData bs s).fine s := by
  cases bs with
  | nil => exact Res.fine_ok s s rfl
  | cons b rest => exact Res.fine_bind (beginBurst_fine s) fun t => forEach_fine _ dataCycle_fine _ t

/-- A stream of words is the burst of its bytes, cycle by cycle. -/
theorem wordCycles_eq (ws : List U16) : ∀ s : State, forEach wordCycles ws s = forEach dataCycle (streamBytes ws) s := by
  induction ws with
  | nil => intro s; rfl
  | cons w rest ih =>
    intro s
    rw [show streamBytes (w :: rest) = [hi8 w, lo8 w] ++ streamBytes rest from rfl, forEach_append]
    show (wordCycles w s).bind (forEach wordCycles rest) = _
    rw [show forEach wordCycles rest = forEach dataCycle (streamBytes rest) from funext ih]
    congr 1
    show (dataCycle (hi8 w) s).bind (dataCycle (lo8 w)) = (dataCycle (hi8 w) s).bind (forEach dataCycle [lo8 w])
    congr 1
    funext t
    show dataCycle (lo8 w) t = (dataCycle (lo8 w) t).bind fun u => .ok u
    cases dataCycle (lo8 w) t <;> rfl

/-- The lines a successful burst that is not empty leaves on the parallel transport: those of its last byte. -/
theorem dataCycles_pins (bs : List Byte) : ∀ {s t : State} (b : Byte), s.transport = .parallel8 → s.inBurst →
    forEach dataCycle (bs ++ [b]) s = .ok t → t.pins = { s.pins with wr := .known .high, d := linesOf b } := by
  induction bs with
  | nil =>
    intro s t b hp _ h
    obtain ⟨u, hu, ht⟩ := Res.bind_eq_ok h
    cases ht
    unfold dataCycle at hu
    rw [hp] at hu
    exact strobeByte_pins hu
  | cons a rest ih =>
    intro s t b hp hb h
    obtain ⟨u, hu, ht⟩ := Res.bind_eq_ok h
    have hs := dataCycle_sends a hb
    rw [hu] at hs
    have hs : Sent [.dat a] s u := hs
    rw [ih b (hs.transport.trans hp) (dataCycle_inBurst hb hu) ht]
    unfold dataCycle at hu
    rw [hp] at hu
    rw [strobeByte_pins hu]

/-! ## Operations that others are made of -/

theorem sendCommand_transfers (op : Opcode) (s : State) : (sendCommand op s).transfers (frameCycles s.par.opcodes op []) s :=
  writeCommand_transfers _ s

theorem sendCommand_fine (op : Opcode) (s : State) : (sendCommand op s).fine s := writeCommand_fine _ s

theorem sendFrame_transfers (op : Opcode) (ps : List Byte) (s : State) :
    (sendFrame op ps s).transfers (frameCycles s.par.opcodes op ps) s :=
  Res.transfers_bind (a := frameCycles s.par.opcodes op []) (sendCommand_transfers op s) fun t _ => writeData_transfers ps t

theorem sendFrame_fine (op : Opcode) (ps : List Byte) (s : State) : (sendFrame op ps s).fine s :=
  Res.fine_bind (sendCommand_fine op s) fun t => writeData_fine ps t

theorem setWindow_transfers (x0 y0 x1 y1 : U16) (s : State) :
    (setWindow x0 y0 x1 y1 s).transfers (windowCycles s.par.opcodes x0 y0 x1 y1) s :=
  Res.transfers_bind (sendFrame_transfers _ _ s) fun t ht => by
    have := sendFrame_transfers .paset (addrParams y0 y1) t
    rwa [(Res.sent_of_ok (sendFrame_transfers _ _ s) ht).par] at this

theorem setWindow_fine (x0 y0 x1 y1 : U16) (s : State) : (setWindow x0 y0 x1 y1 s).fine s :=
  Res.fine_bind (sendFrame_fine _ _ s) fun t => sendFrame_fine _ _ t

theorem writeWords_eq (ws : List U16) (s : State) : writeWords ws s = writeData (streamBytes ws) s := by
  cases ws with
  | nil => rfl
  | cons w rest =>
    show (beginBurst s).bind (forEach wordCycles (w :: rest)) = (beginBurst s).bind (forEach dataCycle (streamBytes (w :: rest)))
    congr 1
    exact funext (wordCycles_eq _)

theorem writeWords_transfers (ws : List U16) (s : State) : (writeWords ws s).transfers ((streamBytes ws).map .dat) s := by
  rw [writeWords_eq]; exact writeData_transfers _ s

theorem writeWords_fine (ws : List U16) (s : State) : (writeWords ws s).fine s := by
  rw [writeWords_eq]; exact writeData_fine _ s

theorem writePixels_transfers (ws : List U16) (s : State) : (writePixels ws s).transfers (pixelCycles s.par.opcodes ws) s :=
  Res.transfers_bind (a := frameCycles s.par.opcodes .ramwr []) (sendCommand_transfers .ramwr s) fun t _ => writeWords_transfers ws t

theorem writePixels_fine (ws : List U16) (s : State) : (writePixels ws s).fine s :=
  Res.fine_bind (sendCommand_fine _ s) fun t => writeWords_fine ws t

theorem fillScreen_transfers (color : U16) (s : State) : (fillScreen color s).transfers (fillCycles s.par.opcodes s.cfg color) s := by
  have h0 := setWindow_transfers 0 0 (s.cfg.width - 1) (s.cfg.height - 1) s
  refine Res.transfers_bind h0 fun t ht => ?_
  have hp := (Res.sent_of_ok h0 ht).par
  have h1 := sendCommand_transfers .ramwr t
  rw [hp] at h1
  rw [show pixelCycles s.par.opcodes (List.replicate (fillCount s.cfg) color) ++ frameCycles s.par.opcodes .nop [] =
    frameCycles s.par.opcodes .ramwr [] ++ ((streamBytes (List.replicate (fillCount s.cfg) color)).map .dat ++
      frameCycles s.par.opcodes .nop []) from rfl]
  refine Res.transfers_bind h1 fun u hu => ?_
  have hq := (Res.sent_of_ok h1 hu).par
  refine Res.transfers_bind (writeWords_transfers _ u) fun v hv => ?_
  have hr := (Res.sent_of_ok (writeWords_transfers _ u) hv).par
  have h3 := sendCommand_transfers .nop v
  rwa [hr, hq, hp] at h3

theorem fillScreen_fine (color : U16) (s : State) : (fillScreen color s).fine s :=
  Res.fine_bind (setWindow_fine _ _ _ _ s) fun t => Res.fine_bind (sendCommand_fine _ t) fun u =>
    Res.fine_bind (writeWords_fine _ u) fun v => sendCommand_fine _ v

theorem drawPixel_transfers (p : DrawPixel) (s : State) : (drawPixel p s).transfers (drawCycles s.par s.cfg p) s := by
  unfold drawPixel drawCycles
  split
  · have h0 := setWindow_transfers (coordinate p.x) (coordinate p.y) (coordinate p.x) (coordinate p.y) s
    refine Res.transfers_bind h0 fun t ht => ?_
    have := writePixels_transfers [Config.toRaw16 p.color] t
    rwa [(Res.sent_of_ok h0 ht).par] at this
  · exact Sent.refl s

theorem drawPixel_fine (p : DrawPixel) (s : State) : (drawPixel p s).fine s := by
  unfold drawPixel
  split
  · exact Res.fine_bind (setWindow_fine _ _ _ _ s) fun t => writePixels_fine _ t
  · exact Res.fine_ok s s rfl

theorem drawPixels_transfers (l : List DrawPixel) (s : State) :
    (forEach drawPixel l s).transfers (l.flatMap (drawCycles s.par s.cfg)) s := by
  refine forEach_transfers drawPixel (drawCycles s.par s.cfg) (fun t => t.par = s.par ∧ t.cfg = s.cfg) l
    (fun p _ t ht => ?_) (fun p _ t u ht hu => ?_) s ⟨rfl, rfl⟩
  · have := drawPixel_transfers p t
    rwa [ht.1, ht.2] at this
  · have := Res.sent_of_ok (drawPixel_transfers p t) hu
    exact ⟨this.par.trans ht.1, this.cfg.trans ht.2⟩

theorem drawPixels_fine (l : List DrawPixel) (s : State) : (forEach drawPixel l s).fine s :=
  forEach_fine _ drawPixel_fine l s

end Sys2Proof.Machine
end

