-- ==== Sys2Proof/Laws/Control.lean ====
section
/-! SUPPORT. What construction, the control lines and the bring-up can do, and where a bring-up that fails stops. -/

namespace Sys2Proof.Machine

/-! ## Running -/

/-- `t` is `s` with the events `l` appended: driver, transport, Configuration, parameters and port are kept. -/
structure Ran (l : List Event) (s t : State) : Prop where
  driver : t.driver = s.driver
  transport : t.transport = s.transport
  cfg : t.cfg = s.cfg
  par : t.par = s.par
  port : t.port = s.port
  trace : t.trace = s.trace ++ l
  draws : t.draws <:+ s.draws

theorem Ran.refl (s : State) : Ran [] s s := ⟨rfl, rfl, rfl, rfl, rfl, by simp, List.suffix_refl _⟩

theorem Ran.trans {a b : List Event} {s t u : State} (h : Ran a s t) (k : Ran b t u) : Ran (a ++ b) s u where
  driver := k.driver.trans h.driver
  transport := k.transport.trans h.transport
  cfg := k.cfg.trans h.cfg
  par := k.par.trans h.par
  port := k.port.trans h.port
  trace := by rw [k.trace, h.trace, List.append_assoc]
  draws := k.draws.trans h.draws

theorem Sent.ran {l : List Cycle} {s t : State} (h : Sent l s t) : Ran (l.map Cycle.event) s t :=
  ⟨h.driver, h.transport, h.cfg, h.par, h.port, h.trace, h.draws⟩

theorem Ran.delay (s : State) (n : Nat) : Ran [.delay n] s (s.delayMs n) :=
  ⟨rfl, rfl, rfl, rfl, rfl, rfl, List.suffix_refl _⟩

/-- The step appends a first part of the events `l`, and all of them if it succeeds. -/
def Res.runs (l : List Event) (s : State) : Res → Prop
  | .ok t => Ran l s t
  | .err _ t => ∃ p, p <+: l ∧ Ran p s t

theorem Res.runs_bind {a b : List Event} {s : State} {r : Res} {f : State → Res} (h : r.runs a s)
    (k : ∀ t, r = .ok t → (f t).runs b t) : (r.bind f).runs (a ++ b) s := by
  cases r with
  | err e t =>
    obtain ⟨p, hp, hs⟩ := h
    exact ⟨p, hp.trans (List.prefix_append a b), hs⟩
  | ok t =>
    have hk := k t rfl
    rw [Res.bind_ok]
    cases hr : f t with
    | ok u => rw [hr] at hk; exact Ran.trans h hk
    | err e u =>
      rw [hr] at hk
      obtain ⟨p, hp, hs⟩ := hk
      exact ⟨a ++ p, (List.prefix_append_right_inj a).mpr hp, Ran.trans h hs⟩

theorem Res.transfers_runs {l : List Cycle} {s : State} {r : Res} (h : r.transfers l s) : r.runs (l.map Cycle.event) s := by
  cases r with
  | ok t => exact Sent.ran h
  | err e t =>
    obtain ⟨k, hk, hs⟩ := h
    exact ⟨_, (failsAt_prefix hk).map _, Sent.ran hs⟩

theorem Res.ran_of_ok {l : List Event} {s t : State} {r : Res} (h : r.runs l s) (k : r = .ok t) : Ran l s t := by
  rw [k] at h; exact h

/-- A step from a state that was run to. -/
theorem Res.runs_after {a b : List Event} {s t : State} {r : Res} (h : Ran a s t) (k : r.runs b t) : r.runs (a ++ b) s := by
  cases r with
  | ok u => exact Ran.trans h k
  | err e u =>
    obtain ⟨p, hp, hs⟩ := k
    exact ⟨a ++ p, (List.prefix_append_right_inj a).mpr hp, Ran.trans h hs⟩

/-! ## The control lines -/

/-- A drive of chip-select: what it leaves if it succeeds. -/
theorem driveCs_ok {l : Level} {s t : State} (h : driveCs l s = .ok t) : t = s.drawn.driven .cs l := by
  rcases drive_cases .cs l .cs s with k | k <;> rw [driveCs, k] at h <;> cases h
  rfl

theorem driveCs_err {l : Level} {s t : State} {e : Error} (h : driveCs l s = .err e t) :
    e = .cs ∧ t = s.drawn.setPin .cs .unknown := by
  rcases drive_cases .cs l .cs s with k | k <;> rw [driveCs, k] at h <;> cases h
  exact ⟨rfl, rfl⟩

theorem driveRst_ok {l : Level} {s t : State} (h : driveRst l s = .ok t) : t = (s.drawn.attempt .rst l).driven .rst l := by
  rcases drive_cases .rst l .reset s with k | k <;> rw [driveRst, k] at h <;> cases h
  rfl

theorem driveRst_err {l : Level} {s t : State} {e : Error} (h : driveRst l s = .err e t) :
    e = .reset ∧ t = (s.drawn.attempt .rst l).setPin .rst .unknown := by
  rcases drive_cases .rst l .reset s with k | k <;> rw [driveRst, k] at h <;> cases h
  exact ⟨rfl, rfl⟩

theorem driveCs_runs (l : Level) (s : State) : (driveCs l s).runs [.pin .cs l] s := by
  rcases drive_cases .cs l .cs s with k | k <;> rw [driveCs, k]
  · exact ⟨rfl, rfl, rfl, rfl, rfl, rfl, List.tail_suffix _⟩
  · exact ⟨[], List.nil_prefix, rfl, rfl, rfl, rfl, rfl, (List.append_nil _).symm, List.tail_suffix _⟩

theorem driveRst_runs (l : Level) (s : State) : (driveRst l s).runs [.pin .rst l] s := by
  rcases drive_cases .rst l .reset s with k | k <;> rw [driveRst, k] <;> cases l
  · exact ⟨rfl, rfl, rfl, rfl, rfl, rfl, List.tail_suffix _⟩
  · exact ⟨rfl, rfl, rfl, rfl, rfl, rfl, List.tail_suffix _⟩
  · exact ⟨[], List.nil_prefix, rfl, rfl, rfl, rfl, rfl, (List.append_nil _).symm, List.tail_suffix _⟩
  · exact ⟨[], List.nil_prefix, rfl, rfl, rfl, rfl, rfl, (List.append_nil _).symm, List.tail_suffix _⟩

/-! ## The bring-up -/

/-- A failing step raises one of the errors of `init` (60_exceptions R302). -/
abbrev Res.raisesAny (r : Res) : Prop := r.onErr fun e _ => e = .cs ∨ e = .reset ∨ e = .bus .command ∨ e = .bus .data

theorem Res.transfers_raises {l : List Cycle} {s : State} {r : Res} (h : r.transfers l s) : r.raisesAny := by
  cases r with
  | ok t => trivial
  | err e t =>
    obtain ⟨k, hk, _⟩ := h
    rcases hk with ⟨rfl, _⟩ | ⟨rfl, _⟩
    · exact .inr (.inr (.inl rfl))
    · exact .inr (.inr (.inr rfl))

theorem driveCs_raises (l : Level) (s : State) : (driveCs l s).raisesAny := drive_onErr _ _ _ _ (.inl rfl)

theorem driveRst_raises (l : Level) (s : State) : (driveRst l s).raisesAny := drive_onErr _ _ _ _ (.inr (.inl rfl))

theorem resetPulse_runs (s : State) : (resetPulse s).runs (pulseEvents s.par) s := by
  refine Res.runs_bind (a := [.pin .cs .high]) (driveCs_runs _ s) fun t ht => ?_
  have h1 := (Res.ran_of_ok (driveCs_runs _ s) ht).par
  refine Res.runs_bind (a := [.pin .rst .low]) (driveRst_runs _ t) fun u hu => ?_
  have h2 := (Res.ran_of_ok (driveRst_runs _ t) hu).par
  have hd := Ran.delay u u.par.resetPulseMs
  rw [h2, h1] at hd ⊢
  refine Res.runs_after hd (Res.runs_bind (a := [.pin .rst .high]) (driveRst_runs _ _) fun v hv => ?_)
  have h3 : v.par = u.par := (Res.ran_of_ok (driveRst_runs _ _) hv).par
  have he := Ran.delay v v.par.resetSettleMs
  rw [h3, h2, h1] at he ⊢
  exact Res.runs_after he (driveCs_runs _ _)

/-- After the pulse chip-select is Low and reset High; the cursor is untouched. -/
theorem resetPulse_ok {s t : State} (h : resetPulse s = .ok t) :
    t.pins.cs = .known .low ∧ t.pins.rst = .known .high ∧ t.seq = s.seq ∧ t.phase = .uninitialized := by
  obtain ⟨a, ha, h⟩ := Res.bind_eq_ok h
  obtain ⟨b, hb, h⟩ := Res.bind_eq_ok h
  obtain ⟨c, hc, h⟩ := Res.bind_eq_ok h
  have e1 := driveCs_ok ha
  have e2 := driveRst_ok hb
  have e3 := driveRst_ok hc
  have e4 := driveCs_ok h
  subst e1 e2 e3 e4
  simp [State.driven, State.attempt, Pins.set]

/-- Where a pulse that fails stops: a chip-select drive at its start or its end, or a reset drive after one or three events. -/
theorem resetPulse_stops {s t : State} {e : Error} (h : resetPulse s = .err e t) :
    ∃ n, Ran ((pulseEvents s.par).take n) s t ∧ ((e = .cs ∧ (n = 0 ∨ n = 5)) ∨ (e = .reset ∧ (n = 1 ∨ n = 3))) := by
  have lost : ∀ (line : Pin) (l : Level) (u : State), Ran [] u ((u.drawn.attempt line l).setPin line .unknown) := by
    intro line l u
    refine ⟨?_, ?_, ?_, ?_, ?_, ?_, ?_⟩ <;>
      first | exact attempt_draws u.drawn line l ▸ List.tail_suffix _ | (unfold State.attempt; split <;> simp [State.setPin, State.drawn, State.uninitialize])
  rcases Res.bind_eq_err h with h | ⟨a, ha, h⟩
  · obtain ⟨rfl, rfl⟩ := driveCs_err h
    exact ⟨0, lost .cs .high s, .inl ⟨rfl, .inl rfl⟩⟩
  have h1 : Ran _ s a := Res.ran_of_ok (driveCs_runs _ s) ha
  rcases Res.bind_eq_err h with h | ⟨b, hb, h⟩
  · obtain ⟨rfl, rfl⟩ := driveRst_err h
    exact ⟨1, h1.trans (lost .rst .low a), .inr ⟨rfl, .inl rfl⟩⟩
  have h2 : Ran _ s b := h1.trans (Res.ran_of_ok (driveRst_runs _ a) hb)
  have h3 := h2.trans (Ran.delay b b.par.resetPulseMs)
  rcases Res.bind_eq_err h with h | ⟨c, hc, h⟩
  · obtain ⟨rfl, rfl⟩ := driveRst_err h
    refine ⟨3, ?_, .inr ⟨rfl, .inr rfl⟩⟩
    have := h3.trans (lost .rst .high (b.delayMs b.par.resetPulseMs))
    rwa [h2.par] at this ⊢
  · obtain ⟨rfl, rfl⟩ := driveCs_err h
    have h4 := h3.trans (Res.ran_of_ok (driveRst_runs _ _) hc)
    have h5 := h4.trans (Ran.delay c c.par.resetSettleMs)
    refine ⟨5, ?_, .inl ⟨rfl, .inr rfl⟩⟩
    have := h5.trans (lost .cs .low (c.delayMs c.par.resetSettleMs))
    rw [h4.par, h2.par] at this
    rw [h4.par]
    exact this

/-- A pulse that fails leaves the cursor. -/
theorem resetPulse_err {s t : State} {e : Error} (h : resetPulse s = .err e t) : t.seq = s.seq := by
  rcases Res.bind_eq_err h with h | ⟨a, ha, h⟩
  · simp [(driveCs_err h).2]
  have e1 : a.seq = s.seq := by simp [driveCs_ok ha, State.driven]
  rcases Res.bind_eq_err h with h | ⟨b, hb, h⟩
  · simp [(driveRst_err h).2, State.attempt, e1]
  have e2 : b.seq = s.seq := by simp [driveRst_ok hb, State.driven, State.attempt, e1]
  rcases Res.bind_eq_err h with h | ⟨c, hc, h⟩
  · simp [(driveRst_err h).2, State.attempt, e2]
  · have e3 : c.seq = s.seq := by simp [driveRst_ok hc, State.driven, State.attempt, e2]
    simp [(driveCs_err h).2, e3]

theorem resetPulse_raises (s : State) : (resetPulse s).raisesAny :=
  Res.onErr_bind (driveCs_raises _ s) fun t _ => Res.onErr_bind (driveRst_raises _ t) fun _ _ =>
    Res.onErr_bind (driveRst_raises _ _) fun _ _ => driveCs_raises _ _

theorem driveCs_fine (l : Level) (s : State) : (driveCs l s).fine s := drive_fine _ _ _ s

theorem driveRst_fine (l : Level) (s : State) : (driveRst l s).fine s := drive_fine _ _ _ s

theorem resetPulse_fine (s : State) : (resetPulse s).fine s :=
  Res.fine_bind (driveCs_fine _ s) fun t => Res.fine_bind (driveRst_fine _ t) fun u =>
    Res.fine_bind (s := u) (driveRst_fine _ (u.delayMs u.par.resetPulseMs)) fun v => driveCs_fine _ (v.delayMs v.par.resetSettleMs)

theorem runEntry_runs (e : InitEntry) (s : State) : (runEntry e s).runs (entryEvents s.par.opcodes e) s := by
  cases e with
  | cmd op ps => exact Res.transfers_runs (sendFrame_transfers op ps s)
  | delay ms => exact Ran.delay s ms

theorem runEntry_fine (e : InitEntry) (s : State) : (runEntry e s).fine s := by
  cases e with
  | cmd op ps => exact sendFrame_fine op ps s
  | delay ms => exact Res.fine_ok s _ rfl

theorem runEntry_raises (e : InitEntry) (s : State) : (runEntry e s).raisesAny := by
  cases e with
  | cmd op ps => exact Res.transfers_raises (sendFrame_transfers op ps s)
  | delay ms => trivial

/-- An entry leaves the control lines, the cursor and the phase, whether it succeeds or not. -/
theorem runEntry_keeps (e : InitEntry) (s : State) :
    (runEntry e s).state.pins.cs = s.pins.cs ∧ (runEntry e s).state.pins.rst = s.pins.rst ∧
      (runEntry e s).state.seq = s.seq ∧ (runEntry e s).state.phase = s.phase := by
  cases e with
  | delay ms => exact ⟨rfl, rfl, rfl, rfl⟩
  | cmd op ps =>
    have h := sendFrame_transfers op ps s
    show (sendFrame op ps s).state.pins.cs = _ ∧ (sendFrame op ps s).state.pins.rst = _ ∧ (sendFrame op ps s).state.seq = _ ∧
      (sendFrame op ps s).state.phase = _
    cases hr : sendFrame op ps s with
    | ok t => rw [hr] at h; exact ⟨h.cs, h.rst, h.seq, h.phase⟩
    | err x t =>
      rw [hr] at h
      obtain ⟨k, _, h⟩ := h
      exact ⟨h.cs, h.rst, h.seq, h.phase⟩

/-- The entries succeed one after the other: all their events, the cursor past the last. -/
theorem table_ok (l : List InitEntry) : ∀ {s t : State} {n : Nat}, s.seq = some n → forEach sequence l s = .ok t →
    Ran (tableEvents s.par.opcodes l) s t ∧ t.pins.cs = s.pins.cs ∧ t.pins.rst = s.pins.rst := by
  induction l with
  | nil => intro s t n _ h; cases h; exact ⟨Ran.refl s, rfl, rfl⟩
  | cons e rest ih =>
    intro s t n hn h
    obtain ⟨u, hu, h⟩ := Res.bind_eq_ok h
    obtain ⟨v, hv, hu⟩ := Res.bind_eq_ok hu
    cases hu
    have h1 := Res.ran_of_ok (runEntry_runs e s) hv
    have h2 := runEntry_keeps e s
    rw [hv] at h2
    have h3 := ih (s := { v with seq := v.seq.map (· + 1) }) (n := n + 1)
      (by show v.seq.map (· + 1) = _; rw [show v.seq = s.seq from h2.2.2.1, hn]; rfl) h
    refine ⟨?_, h3.2.1.trans h2.1, h3.2.2.trans h2.2.1⟩
    have h4 : Ran (tableEvents v.par.opcodes rest) v t :=
      ⟨h3.1.driver, h3.1.transport, h3.1.cfg, h3.1.par, h3.1.port, h3.1.trace, h3.1.draws⟩
    rw [h1.par] at h4
    exact h1.trans h4

/-- An entry fails: it is a command entry, the cursor stands on it, after the events of the entries before it and those of its
own cycles that were sent before the failure. -/
theorem table_err (l : List InitEntry) : ∀ {s t : State} {n : Nat} {x : Error}, s.seq = some n → forEach sequence l s = .err x t →
    ∃ m op ps k, l[m]? = some (.cmd op ps) ∧ t.seq = some (n + m) ∧ failsAt x k (frameCycles s.par.opcodes op ps) ∧
      Ran (tableEvents s.par.opcodes (l.take m) ++ k.map Cycle.event) s t := by
  induction l with
  | nil => intro s t n x _ h; cases h
  | cons e rest ih =>
    intro s t n x hn h
    rcases Res.bind_eq_err h with h | ⟨u, hu, h⟩
    · rcases Res.bind_eq_err h with h | ⟨v, _, h⟩
      · have h2 := runEntry_keeps e s
        rw [h] at h2
        cases e with
        | delay ms => cases h
        | cmd op ps =>
          have h1 := sendFrame_transfers op ps s
          rw [show sendFrame op ps s = .err x t from h] at h1
          obtain ⟨k, hk, h1⟩ := h1
          exact ⟨0, op, ps, k, rfl, h2.2.2.1.trans hn, hk, h1.ran⟩
      · cases h
    · obtain ⟨v, hv, hu⟩ := Res.bind_eq_ok hu
      cases hu
      have h1 := Res.ran_of_ok (runEntry_runs e s) hv
      have h2 := runEntry_keeps e s
      rw [hv] at h2
      obtain ⟨m, op, ps, k, hm, hs, hk, h3⟩ := ih (s := { v with seq := v.seq.map (· + 1) }) (n := n + 1)
        (by show v.seq.map (· + 1) = _; rw [show v.seq = s.seq from h2.2.2.1, hn]; rfl) h
      have h4 : Ran (tableEvents v.par.opcodes (rest.take m) ++ k.map Cycle.event) v t :=
        ⟨h3.driver, h3.transport, h3.cfg, h3.par, h3.port, h3.trace, h3.draws⟩
      rw [h1.par] at h4
      refine ⟨m + 1, op, ps, k, hm, hs.trans (by rw [Nat.add_right_comm, Nat.add_assoc]), ?_, ?_⟩
      · have : v.par = s.par := h1.par
        rwa [← this]
      · rw [show tableEvents s.par.opcodes ((e :: rest).take (m + 1)) ++ k.map Cycle.event =
          entryEvents s.par.opcodes e ++ (tableEvents s.par.opcodes (rest.take m) ++ k.map Cycle.event) by simp [tableEvents]]
        exact h1.trans h4

theorem sequence_fine (e : InitEntry) (s : State) : (sequence e s).fine s :=
  Res.fine_bind (runEntry_fine e s) fun t => Res.fine_ok t _ rfl

theorem table_raises (l : List InitEntry) (s : State) : (forEach sequence l s).raisesAny :=
  forEach_onErr _ _ (fun e _ t => Res.onErr_bind (f := fun u => .ok { u with seq := u.seq.map (· + 1) }) (runEntry_raises e t) fun _ _ => trivial) s

/-- What a bring-up that succeeds leaves (R136). -/
theorem bringUp_ok {s t : State} (h : bringUp s = .ok t) :
    Ran (bringUpEvents s.par) s t ∧ t.phase = .ready ∧ t.pins.cs = .known .low ∧ t.pins.rst = .known .high ∧ t.seq = none := by
  obtain ⟨u, hu, h⟩ := Res.bind_eq_ok h
  obtain ⟨v, hv, h⟩ := Res.bind_eq_ok h
  cases h
  have h1 : Ran (pulseEvents s.par) { s.uninitialize with seq := none } u := Res.ran_of_ok (resetPulse_runs _) hu
  have h2 := resetPulse_ok hu
  have h3 := table_ok u.par.initTable (n := 0) rfl hv
  have hp : u.par = s.par := h1.par
  refine ⟨?_, rfl, h3.2.1.trans h2.1, h3.2.2.trans h2.2.1, rfl⟩
  have h4 : Ran (tableEvents s.par.opcodes s.par.initTable) u v := by
    rw [← hp]
    exact ⟨h3.1.driver, h3.1.transport, h3.1.cfg, h3.1.par, h3.1.port, h3.1.trace, h3.1.draws⟩
  have h5 : Ran (bringUpEvents s.par) { s.uninitialize with seq := none } v := h1.trans h4
  exact ⟨h5.driver, h5.transport, h5.cfg, h5.par, h5.port, h5.trace, h5.draws⟩

/-- Where a bring-up that fails stops: before the table, with no cursor, or on a command entry, with the error of the drive or
the cycle that failed. -/
theorem bringUp_err {s t : State} {x : Error} (h : bringUp s = .err x t) :
    (t.seq = none ∧ ∃ n, Ran ((pulseEvents s.par).take n) s t ∧
      ((x = .cs ∧ (n = 0 ∨ n = 5)) ∨ (x = .reset ∧ (n = 1 ∨ n = 3)))) ∨
    ∃ n op ps k, t.seq = some n ∧ s.par.initTable[n]? = some (.cmd op ps) ∧ failsAt x k (frameCycles s.par.opcodes op ps) ∧
      Ran (pulseEvents s.par ++ tableEvents s.par.opcodes (s.par.initTable.take n) ++ k.map Cycle.event) s t := by
  rcases Res.bind_eq_err h with h | ⟨u, hu, h⟩
  · obtain ⟨n, h1, hx⟩ := resetPulse_stops h
    exact .inl ⟨resetPulse_err h, n, ⟨h1.driver, h1.transport, h1.cfg, h1.par, h1.port, h1.trace, h1.draws⟩, hx⟩
  · rcases Res.bind_eq_err h with h | ⟨_, _, h⟩
    · have h1 : Ran (pulseEvents s.par) { s.uninitialize with seq := none } u := Res.ran_of_ok (resetPulse_runs _) hu
      have hp : u.par = s.par := h1.par
      obtain ⟨m, op, ps, k, hm, hs, hk, h3⟩ := table_err u.par.initTable (n := 0) rfl h
      rw [Nat.zero_add] at hs
      refine .inr ⟨m, op, ps, k, hs, by rwa [hp] at hm, ?_, ?_⟩
      · rw [← hp]; exact hk
      have h4 : Ran (tableEvents s.par.opcodes (s.par.initTable.take m) ++ k.map Cycle.event) u t := by
        rw [← hp]
        exact ⟨h3.driver, h3.transport, h3.cfg, h3.par, h3.port, h3.trace, h3.draws⟩
      have h5 : Ran (pulseEvents s.par ++ tableEvents s.par.opcodes (s.par.initTable.take m) ++ k.map Cycle.event)
          { s.uninitialize with seq := none } t := by
        rw [List.append_assoc]; exact h1.trans h4
      exact ⟨h5.driver, h5.transport, h5.cfg, h5.par, h5.port, h5.trace, h5.draws⟩
    · cases h

theorem bringUp_raises (s : State) : (bringUp s).raisesAny :=
  Res.onErr_bind (resetPulse_raises _) fun t _ =>
    Res.onErr_bind (f := fun u => .ok { u with seq := none, phase := .ready }) (table_raises t.par.initTable { t with seq := some 0 })
      fun _ _ => trivial

theorem bringUp_fine (s : State) : (bringUp s).fine s :=
  Res.fine_bind (s := s) (resetPulse_fine { s.uninitialize with seq := none }) fun t =>
    Res.fine_bind (s := t) (forEach_fine _ sequence_fine t.par.initTable { t with seq := some 0 }) fun u => Res.fine_ok u _ rfl

/-- The events of the pulse and of a part of the table are a first part of the bring-up's. -/
theorem tableEvents_take_prefix (B : OpcodeBytes) {l : List InitEntry} {n : Nat} {e : InitEntry} {q : List Event}
    (he : l[n]? = some e) (hq : q <+: entryEvents B e) : tableEvents B (l.take n) ++ q <+: tableEvents B l := by
  have hl : l = l.take n ++ e :: l.drop (n + 1) := by
    obtain ⟨hn, rfl⟩ := List.getElem?_eq_some_iff.mp he
    rw [← List.drop_eq_getElem_cons hn, List.take_append_drop]
  have : tableEvents B l = tableEvents B (l.take n) ++ (entryEvents B e ++ tableEvents B (l.drop (n + 1))) := by
    conv_lhs => rw [hl]
    simp [tableEvents]
  rw [this]
  exact (List.prefix_append_right_inj _).mpr (hq.trans (List.prefix_append _ _))

theorem bringUp_runs (s : State) : (bringUp s).runs (bringUpEvents s.par) s := by
  cases h : bringUp s with
  | ok t => exact (bringUp_ok h).1
  | err x t =>
    rcases bringUp_err h with ⟨_, n, hr, _⟩ | ⟨n, op, ps, k, _, he, hk, hr⟩
    · exact ⟨_, (List.take_prefix n _).trans (List.prefix_append _ _), hr⟩
    · refine ⟨_, ?_, hr⟩
      rw [List.append_assoc]
      exact (List.prefix_append_right_inj _).mpr (tableEvents_take_prefix _ he ((failsAt_prefix hk).map _))

end Sys2Proof.Machine
end

