-- ==== Sys2Proof/Laws/Decode.lean ====
section
/-! SUPPORT. The pieces of decoding: the opcode map read backwards, the cycle word taken apart, and the numbers and names of a
line read back. -/

namespace Sys2Proof

/-! ## The opcode map -/

theorem Opcode.mem_all (op : Opcode) : op ∈ Opcode.all := by
  cases op <;> decide

/-- An injective map tells the members apart. -/
theorem OpcodeBytes.byte_injective {B : OpcodeBytes} (h : B.injective = true) : Function.Injective B.byte := by
  have hn : (Opcode.all.map B.byte).Nodup := by simpa [OpcodeBytes.injective] using h
  intro a b hab
  exact List.inj_on_of_nodup_map hn (Opcode.mem_all a) (Opcode.mem_all b) hab

/-- A member's byte stands for that member. -/
theorem OpcodeBytes.opcode?_byte {B : OpcodeBytes} (h : B.injective = true) (op : Opcode) : B.opcode? (B.byte op) = some op := by
  unfold OpcodeBytes.opcode?
  cases hf : Opcode.all.find? (fun o => B.byte o == B.byte op) with
  | none => simpa using List.find?_eq_none.mp hf op (Opcode.mem_all op)
  | some o =>
    have ho := List.find?_some hf
    exact congrArg some (OpcodeBytes.byte_injective h (by simpa using ho))

/-- A byte stands for a member only if it is the member's. -/
theorem OpcodeBytes.byte_of_opcode? {B : OpcodeBytes} {b : Byte} {op : Opcode} (h : B.opcode? b = some op) : B.byte op = b := by
  simpa using List.find?_some h

/-- A byte that stands for none is no member's. -/
theorem OpcodeBytes.ne_of_opcode?_none {B : OpcodeBytes} {b : Byte} (h : B.opcode? b = none) (op : Opcode) : B.byte op ≠ b := by
  simpa using List.find?_eq_none.mp h op (Opcode.mem_all op)

/-! ## The cycle word -/

@[simp] theorem CycleWord.byte_mk (d : Bool) (b : Byte) : (CycleWord.mk d b).byte = b := by
  revert d b; decide

@[simp] theorem CycleWord.isData_mk (d : Bool) (b : Byte) : (CycleWord.mk d b).isData = d := by
  unfold CycleWord.mk CycleWord.isData
  rw [BitVec.getLsbD_append]
  cases d <;> simp

/-- A cycle word is its kind and its byte. -/
theorem CycleWord.mk_eta (w : CycleWord) : CycleWord.mk w.isData w.byte = w := by
  revert w; decide

/-- A command cycle of a member's byte is that member's row. -/
theorem decodeCycle_command {B : OpcodeBytes} (h : B.injective = true) (op : Opcode) :
    decodeCycle B (CycleWord.mk false (B.byte op)) = op.wire := by
  simp [decodeCycle, OpcodeBytes.opcode?_byte h]

theorem decodeCycle_data (B : OpcodeBytes) (b : Byte) : decodeCycle B (CycleWord.mk true b) = .data b := by
  simp [decodeCycle]

/-! ## Numbers -/

theorem asByte_toNat (b : Byte) : asByte b.toNat = .ok b := by
  have := b.isLt
  simp [asByte]
  omega

theorem asU16_toNat (w : U16) : asU16 w.toNat = .ok w := by
  have := w.isLt
  simp [asU16]
  omega

theorem asNat_natCast (n : Nat) : asNat n = .ok n := by simp [asNat]

/-- Every element reads back. -/
theorem eachOk_map {α β : Type} (f : α → Except DecodeError β) (g : β → α) (h : ∀ b, f (g b) = .ok b) :
    ∀ l : List β, eachOk f (l.map g) = .ok l
  | [] => rfl
  | b :: rest => by
    have ih := eachOk_map f g h rest
    simp only [List.map_cons, eachOk, h, ih]
    rfl

theorem asBytes_numsOfBytes (l : List Byte) : asBytes (numsOfBytes l) = .ok l := eachOk_map asByte _ asByte_toNat l

theorem asWords_numsOfWords (l : List U16) : asWords (numsOfWords l) = .ok l := eachOk_map asU16 _ asU16_toNat l

theorem asPixels_argOfPixels (l : List DrawPixel) : asPixels (argOfPixels l) = .ok l :=
  eachOk_map asPixel _ (fun p => by simp only [asPixel, asNat_natCast]; rfl) l

/-! ## Names -/

theorem asOpcode_mnemonic (op : Opcode) : asOpcode op.mnemonic = .ok op := by
  cases op <;> decide

theorem asOrientation_spelling (o : Orientation) : asOrientation o.spelling = .ok o := by
  cases o <;> decide

theorem asFormat_spelling (f : PixelFormat) : asFormat f.spelling = .ok f := by
  cases f <;> decide

theorem asTransport_spelling (t : Transport) : asTransport t.spelling = .ok t := by
  cases t <;> decide

end Sys2Proof
end

