-- ==== Sys2Proof/Laws/Drives.lean ====
section
/-! SUPPORT. Which acts every operation has, and where it stops: at the first drive whose draw fails, with that drive's error,
the events of the acts before it, and its line Unknown; with no failing draw it runs through, and uses one draw a drive. -/

namespace Sys2Proof.Machine

/-- The step has the acts `l` from `s`: it runs through, or stops at the first drive that fails. -/
def Res.follows (l : List Act) (s : State) : Res → Prop
  | .ok t => ranThrough l s t
  | .err e t => stoppedAt l s e t

theorem Res.follows_nil (s : State) : (Res.ok s).follows [] s := ⟨by simp [driveCount], by simp [driveCount], by simp⟩

/-- A delay is an act that does not fail. -/
theorem follows_delay (s : State) (ms : Nat) : (Res.ok (s.delayMs ms)).follows [.delay ms] s :=
  ⟨by simp [driveCount, Act.isDrive], by simp [driveCount, Act.isDrive, State.delayMs, State.record],
    by simp [Act.events, State.delayMs, State.record]⟩

/-- Only the draws and the transcript of the state before matter. -/
theorem Res.follows_congr {l : List Act} {s t : State} {r : Res} (h : r.follows l s) (hd : t.draws = s.draws)
    (ht : t.trace = s.trace) : r.follows l t := by
  cases r <;> simpa only [Res.follows, ranThrough, stoppedAt, hd, ht] using h

theorem driveCount_append (a b : List Act) : driveCount (a ++ b) = driveCount a + driveCount b := List.countP_append

theorem replicate_of_all {l : List Draw} (h : ∀ d ∈ l, d = .succeeds) : l = List.replicate l.length .succeeds :=
  List.eq_replicate_iff.mpr ⟨rfl, h⟩

theorem Res.follows_bind {a b : List Act} {s : State} {r : Res} {f : State → Res} (h : r.follows a s)
    (k : ∀ t, r = .ok t → (f t).follows b t) : (r.bind f).follows (a ++ b) s := by
  cases r with
  | err e t =>
    obtain ⟨done, line, ev, rest, hl, hd, ht, hp⟩ := h
    exact ⟨done, line, ev, rest ++ b, by rw [hl]; simp, hd, ht, hp⟩
  | ok t =>
    obtain ⟨ha, hd, ht⟩ := h
    have hk := k t rfl
    rw [Res.bind_ok]
    cases hr : f t with
    | ok u =>
      rw [hr] at hk
      obtain ⟨hb, hd', ht'⟩ := hk
      refine ⟨fun d hm => ?_, by rw [hd', hd, List.drop_drop, driveCount_append], by rw [ht', ht]; simp⟩
      rw [driveCount_append, List.take_add] at hm
      rcases List.mem_append.mp hm with hm | hm
      · exact ha d hm
      · exact hb d (by rw [hd]; exact hm)
    | err e u =>
      rw [hr] at hk
      obtain ⟨done, line, ev, rest, hl, hd', ht', hp⟩ := hk
      have hlen : (s.draws.take (driveCount a)).length = driveCount a := by
        have h1 : (s.draws.drop (driveCount a)).length =
            (List.replicate (driveCount done) Draw.succeeds ++ Draw.fails :: u.draws).length := by rw [← hd, hd']
        simp only [List.length_drop, List.length_append, List.length_cons] at h1
        rw [List.length_take]
        omega
      refine ⟨a ++ done, line, ev, rest, by rw [hl, List.append_assoc], ?_, by rw [ht', ht]; simp, hp⟩
      rw [← List.take_append_drop (driveCount a) s.draws, ← hd, hd', replicate_of_all ha, hlen, ← List.append_assoc,
        List.replicate_append_replicate, driveCount_append]

/-- A step for each element has each element's acts. -/
theorem forEach_follows {α : Type} (f : α → State → Res) (g : α → List Act) (I : State → Prop) (l : List α)
    (h : ∀ a ∈ l, ∀ t, I t → (f a t).follows (g a) t) (k : ∀ a ∈ l, ∀ t u, I t → f a t = .ok u → I u) :
    ∀ s : State, I s → (forEach f l s).follows (l.flatMap g) s := by
  induction l with
  | nil => intro s _; exact Res.follows_nil s
  | cons a rest ih =>
    intro s hs
    rw [List.flatMap_cons]
    exact Res.follows_bind (h a (by simp) s hs) fun t ht =>
      ih (fun b hb => h b (by simp [hb])) (fun b hb => k b (by simp [hb])) t (k a (by simp) s t hs ht)

/-- A draw that fails is there to be taken: with none left, a drive succeeds. -/
theorem draws_of_nextDraw {s : State} (h : s.nextDraw = .fails) : s.draws = .fails :: s.draws.tail := by
  unfold State.nextDraw at h
  cases hd : s.draws with
  | nil => rw [hd] at h; cases h
  | cons d ds => rw [hd] at h; cases h; rfl

theorem take_one_of_nextDraw {s : State} (h : s.nextDraw = .succeeds) : ∀ d ∈ s.draws.take 1, d = .succeeds := by
  unfold State.nextDraw at h
  cases hd : s.draws with
  | nil => simp
  | cons d ds => rw [hd] at h; cases h; simp

/-- A line that there is: the data lines are eight. -/
abbrev Pin.exists : Pin → Prop
  | .d i => i < 8
  | _ => True

theorem attempt_trace (s : State) (line : Pin) (l : Level) : (s.attempt line l).trace = s.trace := by
  unfold State.attempt
  split <;> rfl

/-- A drive is one act, with the event that its success appends. -/
theorem drive_follows {line : Pin} (hl : line.exists) (l : Level) (e : Error) (event : Option Event) (s : State)
    (h : ((s.drawn.attempt line l).driven line l).trace = s.trace ++ event.toList) :
    (drive line l e s).follows [.drive (some line) e event] s := by
  unfold drive
  cases hn : s.nextDraw
  · refine ⟨take_one_of_nextDraw hn, ?_, by simpa [Act.events] using h⟩
    rw [driven_draws, attempt_draws]
    exact List.drop_one.symm
  · refine ⟨[], _, _, [], rfl, ?_, ?_, ?_⟩
    · show s.draws = .fails :: (s.drawn.attempt line l).draws
      rw [attempt_draws]
      exact draws_of_nextDraw hn
    · show (s.drawn.attempt line l).trace = s.trace ++ []
      rw [attempt_trace, List.append_nil]; rfl
    · intro x hx
      cases hx
      cases line with
      | d i =>
        have hi : i < 8 := hl
        show ((s.drawn.attempt (.d i) l).pins.d.setIfInBounds i .unknown)[i]? = _
        simp [hi]
      | _ => rfl

/-- A drive of a transport line that does not latch appends no event. -/
theorem drive_follows_silent {line : Pin} (hl : line.exists) (ht : line.ofTransport) (l : Level) (e : Error) (s : State)
    (hw : ¬ (line = .wr ∧ l = .high)) : (drive line l e s).follows [.drive (some line) e none] s := by
  refine drive_follows hl l e none s ?_
  rw [attempt_of_transport _ ht]
  cases line <;> first | exact ht.elim | (simp [State.driven]; done) | skip
  have : l ≠ .high := fun hh => hw ⟨rfl, hh⟩
  simp [State.driven, this]

theorem driveCs_follows (l : Level) (s : State) : (driveCs l s).follows [csAct l] s :=
  drive_follows (line := .cs) trivial l _ _ s rfl

theorem driveRst_follows (l : Level) (s : State) : (driveRst l s).follows [rstAct l] s :=
  drive_follows (line := .rst) trivial l _ _ s (by cases l <;> rfl)

/-! ## Which drive fails -/

/-- The place of the first failing draw is one. -/
theorem first_fails_unique {a b : List Draw} : ∀ {n m : Nat},
    List.replicate n Draw.succeeds ++ .fails :: a = List.replicate m .succeeds ++ .fails :: b → n = m ∧ a = b
  | 0, 0, h => ⟨rfl, (List.cons.inj h).2⟩
  | 0, m + 1, h => by cases (List.cons.inj h).1
  | n + 1, 0, h => by cases (List.cons.inj h).1
  | n + 1, m + 1, h => by
    obtain ⟨h1, h2⟩ := first_fails_unique (List.cons.inj h).2
    exact ⟨by rw [h1], h2⟩

/-- Where a step whose acts are all drives stops, by the draws: at the first that fails, if it has so many. -/
theorem Res.follows_first_fails {l : List Act} {s : State} {r : Res} (h : r.follows l s) (hl : ∀ a ∈ l, a.isDrive = true) {n : Nat}
    {ds : List Draw} (hd : s.draws = List.replicate n .succeeds ++ .fails :: ds) :
    (n < l.length → ∃ e t line event, r = .err e t ∧ l[n]? = some (.drive line e event) ∧
      t.trace = s.trace ++ (l.take n).flatMap Act.events ∧ t.draws = ds ∧ ∀ p, line = some p → t.pins.level? p = some .unknown) ∧
    (l.length ≤ n → ∃ t, r = .ok t ∧ t.trace = s.trace ++ l.flatMap Act.events) := by
  have hcount : ∀ k : List Act, (∀ a ∈ k, a.isDrive = true) → driveCount k = k.length := fun k hk => List.countP_eq_length.mpr hk
  cases r with
  | ok t =>
    obtain ⟨ha, _, ht⟩ := h
    refine ⟨fun hn => ?_, fun _ => ⟨t, rfl, ht⟩⟩
    have hm : s.draws[n]? = some .fails := by rw [hd, List.getElem?_append_right (by simp)]; simp
    have := ha .fails (List.mem_iff_getElem?.mpr ⟨n, by rw [List.getElem?_take_of_lt (by rw [hcount l hl]; exact hn), hm]⟩)
    cases this
  | err e t =>
    obtain ⟨done, line, event, rest, rfl, hd', ht, hp⟩ := h
    obtain ⟨rfl, rfl⟩ := first_fails_unique (hd.symm.trans hd')
    rw [hcount done fun a ha => hl a (by simp [ha])]
    refine ⟨fun _ => ⟨e, t, line, event, rfl, by simp, ?_, rfl, hp⟩, fun hn => ?_⟩
    · rw [ht, List.take_left]
    · simp at hn

/-! ## Bus cycles -/

theorem driveByte_follows (e : Error) (b : Byte) (s : State) :
    (driveByte e b s).follows ((lineOrder s.par.dataOrder).map fun i => .drive (some (.d i)) e none) s := by
  have h := forEach_follows (fun i => drive (.d i) (dataLevel b i) e) (fun i => [.drive (some (.d i)) e none]) (fun _ => True)
    (lineOrder s.par.dataOrder) (fun i hi t _ => drive_follows_silent (line := .d i) (lineOrder_lt _ hi) trivial _ _ t (by simp))
    (fun _ _ _ _ _ _ => trivial) s trivial
  rwa [← List.map_eq_flatMap] at h

theorem strobe_follows {e : Error} {b : Byte} {dl : Level} {s : State} (hdc : s.pins.dc = .known dl) (hd : s.pins.d = linesOf b) :
    (strobe e s).follows [.drive (some .wr) e none, .drive (some .wr) e (some (cycleAt s.par dl b).event)] s := by
  refine Res.follows_bind (a := [_]) (b := [_]) (drive_follows_silent (line := .wr) trivial trivial _ _ s (by simp)) fun t ht => ?_
  have hp := drive_pins (line := .wr) trivial (by simp) ht
  have hs : Sent [] s t := by
    have := drive_sends_nothing (line := .wr) (l := .low) (e := e) (s := s) trivial (by simp)
    rwa [ht] at this
  refine drive_follows (line := .wr) trivial _ _ _ t ?_
  rw [attempt_of_transport (line := .wr) _ trivial, driven_wr_latches (s := t.drawn) (b := b) (dl := dl) (by simp [hp])
    (by simp [hp, hdc]) (by simp [hp, hd]), ← hs.par]
  rfl

theorem strobeByte_follows {e : Error} {b : Byte} {dl : Level} {s : State} (hdc : s.pins.dc = .known dl) :
    (strobeByte e b s).follows (byteActs s.par e (cycleAt s.par dl b)) s := by
  refine Res.follows_bind (driveByte_follows e b s) fun t ht => ?_
  have hp := driveByte_pins ht
  have hs : Sent [] s t := by have := driveByte_sends e b s; rwa [ht] at this
  rw [← hs.par]
  exact strobe_follows (by rw [hp]; exact hdc) (by rw [hp])

theorem serialCycle_follows (e : Error) (c : Cycle) (s : State) : (serialCycle e c s).follows [.drive none e (some c.event)] s := by
  unfold serialCycle
  cases h : s.nextDraw
  · exact ⟨take_one_of_nextDraw h, List.drop_one.symm, rfl⟩
  · exact ⟨[], _, _, [], rfl, draws_of_nextDraw h, by simp, nofun⟩

theorem writeCommand_follows (b : Byte) (s : State) :
    (writeCommand b s).follows (cycleActs s.transport s.par false [.cmd b]) s := by
  unfold writeCommand
  cases s.transport
  · refine Res.follows_bind (a := [_]) (b := (byteActs s.par (.bus .command) (.cmd b) ++ [_]) ++ [])
      (drive_follows_silent (line := .dc) trivial trivial _ _ s (by simp)) fun t ht => ?_
    have hs : Sent [] s t := by
      have := drive_sends_nothing (line := .dc) (l := s.par.dcCmdLevel) (e := .bus .command) (s := s) trivial (by simp)
      rwa [ht] at this
    have hb := strobeByte_follows (e := .bus .command) (b := b) (dl := s.par.dcCmdLevel) (s := t)
      (by rw [drive_pins (line := .dc) trivial (by simp) ht]; rfl)
    rw [hs.par, cycleAt_cmd] at hb
    rw [List.append_nil]
    exact Res.follows_bind hb fun u _ => drive_follows_silent (line := .dc) trivial trivial _ _ u (by simp)
  · exact serialCycle_follows _ _ s

theorem dataCycle_follows (b : Byte) {s : State} (h : s.inBurst) :
    (dataCycle b s).follows (cycleActs s.transport s.par true [.dat b]) s := by
  unfold dataCycle
  split
  · rename_i hp
    have := strobeByte_follows (e := .bus .data) (b := b) (h hp)
    rw [cycleAt_dat] at this
    simpa [hp, cycleActs] using this
  · rename_i hp
    rw [hp]
    exact serialCycle_follows _ _ s

/-- Data cycles in an open burst, one after the other. -/
theorem cycleActs_dats (k : Transport) (P : Params) (bs : List Byte) :
    cycleActs k P true (bs.map .dat) = bs.flatMap fun b => cycleActs k P true [.dat b] := by
  induction bs with
  | nil => rfl
  | cons b rest ih =>
    rw [List.map_cons, List.flatMap_cons, ← ih]
    simp [cycleActs]

theorem dataCycles_follows (bs : List Byte) {s : State} (h : s.inBurst) :
    (forEach dataCycle bs s).follows (cycleActs s.transport s.par true (bs.map .dat)) s := by
  rw [cycleActs_dats]
  refine forEach_follows dataCycle _ (fun t => t.inBurst ∧ t.transport = s.transport ∧ t.par = s.par) bs (fun b _ t ht => ?_)
    (fun b _ t u ht hu => ?_) s ⟨h, rfl, rfl⟩
  · rw [← ht.2.1, ← ht.2.2]
    exact dataCycle_follows b ht.1
  · have hs := Res.sent_of_ok (dataCycle_transfers b ht.1) hu
    exact ⟨dataCycle_inBurst ht.1 hu, hs.transport.trans ht.2.1, hs.par.trans ht.2.2⟩

/-- A burst's drives, once its first is done: on the parallel transport that one puts DC at the data level (R111). -/
def burstActs : Transport → List Act
  | .parallel8 => [.drive (some .dc) (.bus .data) none]
  | .serial => []

theorem cycleActs_burst (k : Transport) (P : Params) (b : Byte) (l : List Cycle) :
    cycleActs k P false (.dat b :: l) = burstActs k ++ cycleActs k P true (.dat b :: l) := by
  cases k <;> simp [cycleActs, burstActs]

theorem beginBurst_follows (s : State) : (beginBurst s).follows (burstActs s.transport) s := by
  unfold beginBurst
  cases s.transport
  · exact drive_follows_silent (line := .dc) trivial trivial _ _ s (by simp)
  · exact Res.follows_nil s

theorem writeData_follows (bs : List Byte) (s : State) :
    (writeData bs s).follows (cycleActs s.transport s.par false (bs.map .dat)) s := by
  cases bs with
  | nil => exact Res.follows_nil s
  | cons b rest =>
    rw [List.map_cons, cycleActs_burst]
    refine Res.follows_bind (beginBurst_follows s) fun t ht => ?_
    have hs : Sent [] s t := by have := beginBurst_sends s; rwa [ht] at this
    rw [← hs.transport, ← hs.par]
    exact dataCycles_follows (b :: rest) (beginBurst_inBurst ht)

/-! ## Operations that others are made of -/

/-- A list of cycles that a command cycle begins attempts the same drives whatever came before it. -/
theorem cycleActs_command (k : Transport) (P : Params) (burst : Bool) (b : Byte) (l : List Cycle) :
    cycleActs k P burst (.cmd b :: l) = cycleActs k P false (.cmd b :: l) := by cases k <;> rfl

theorem cycleActs_append_command (k : Transport) (P : Params) (b : Byte) (l : List Cycle) : ∀ (a : List Cycle) (burst : Bool),
    cycleActs k P burst (a ++ .cmd b :: l) = cycleActs k P burst a ++ cycleActs k P false (.cmd b :: l)
  | [], burst => cycleActs_command k P burst b l
  | .cmd c :: rest, burst => by
    have := cycleActs_append_command k P b l rest false
    cases k <;> simp only [List.cons_append, cycleActs, this, List.append_assoc]
  | .dat c :: rest, burst => by
    have := cycleActs_append_command k P b l rest true
    cases k <;> simp only [List.cons_append, cycleActs, this, List.append_assoc]

theorem cycleActs_frame (k : Transport) (P : Params) (B : OpcodeBytes) (op : Opcode) (ps : List Byte) :
    cycleActs k P false (frameCycles B op ps) =
      cycleActs k P false (frameCycles B op []) ++ cycleActs k P false (ps.map .dat) := by
  simp [frameCycles, cycleActs]

/-- The drives of a step that sends the cycles `l` from `s`. -/
abbrev Res.sendsBy (l : List Cycle) (s : State) (r : Res) : Prop := r.follows (cycleActs s.transport s.par false l) s

/-- A step of two parts, the second of which begins with a command cycle. -/
theorem Res.sendsBy_bind {a b : List Cycle} {s : State} {r : Res} {f : State → Res} (hr : r.transfers a s) (h : r.sendsBy a s)
    (hb : cycleActs s.transport s.par false (a ++ b) = cycleActs s.transport s.par false a ++ cycleActs s.transport s.par false b)
    (k : ∀ t, Sent a s t → (f t).sendsBy b t) : (r.bind f).sendsBy (a ++ b) s := by
  show (r.bind f).follows _ _
  rw [hb]
  refine Res.follows_bind h fun t ht => ?_
  have hs := Res.sent_of_ok hr ht
  have := k t hs
  rwa [Res.sendsBy, hs.transport, hs.par] at this

theorem sendCommand_follows (op : Opcode) (s : State) : (sendCommand op s).sendsBy (frameCycles s.par.opcodes op []) s :=
  writeCommand_follows _ s

theorem sendFrame_follows (op : Opcode) (ps : List Byte) (s : State) :
    (sendFrame op ps s).sendsBy (frameCycles s.par.opcodes op ps) s :=
  Res.sendsBy_bind (a := frameCycles s.par.opcodes op []) (sendCommand_transfers op s) (sendCommand_follows op s)
    (cycleActs_frame _ _ _ op ps) fun t _ => writeData_follows ps t

theorem setWindow_follows (x0 y0 x1 y1 : U16) (s : State) :
    (setWindow x0 y0 x1 y1 s).sendsBy (windowCycles s.par.opcodes x0 y0 x1 y1) s :=
  Res.sendsBy_bind (sendFrame_transfers _ _ s) (sendFrame_follows _ _ s) (cycleActs_append_command _ _ _ _ _ _) fun t hs => by
    have := sendFrame_follows .paset (addrParams y0 y1) t
    rwa [hs.par] at this

theorem writeWords_follows (ws : List U16) (s : State) : (writeWords ws s).sendsBy ((streamBytes ws).map .dat) s := by
  rw [writeWords_eq]; exact writeData_follows _ s

theorem writePixels_follows (ws : List U16) (s : State) : (writePixels ws s).sendsBy (pixelCycles s.par.opcodes ws) s :=
  Res.sendsBy_bind (a := frameCycles s.par.opcodes .ramwr []) (sendCommand_transfers .ramwr s) (sendCommand_follows .ramwr s)
    (cycleActs_frame _ _ _ .ramwr (streamBytes ws)) fun t _ => writeWords_follows ws t

theorem fillScreen_follows (color : U16) (s : State) :
    (fillScreen color s).sendsBy (fillCycles s.par.opcodes s.cfg color) s := by
  refine Res.sendsBy_bind (setWindow_transfers _ _ _ _ s) (setWindow_follows _ _ _ _ s) (cycleActs_append_command _ _ _ _ _ _)
    fun t ht => ?_
  rw [← ht.par]
  have hb : ∀ (k : Transport) (P : Params) (a l : List Cycle) (B : OpcodeBytes),
      cycleActs k P false (frameCycles B .ramwr [] ++ (a ++ frameCycles B .nop [])) =
        cycleActs k P false (frameCycles B .ramwr []) ++ cycleActs k P false (a ++ frameCycles B .nop []) := by
    intro k P a l B
    simp [frameCycles, cycleActs]
  refine Res.sendsBy_bind (a := frameCycles t.par.opcodes .ramwr []) (sendCommand_transfers .ramwr t) (sendCommand_follows .ramwr t)
    (hb _ _ _ [] _) fun u hu => ?_
  rw [← hu.par]
  refine Res.sendsBy_bind (writeWords_transfers _ u) (writeWords_follows _ u) (cycleActs_append_command _ _ _ _ _ _) fun v hv => ?_
  rw [← hv.par]
  exact sendCommand_follows .nop v

theorem drawPixel_follows (p : DrawPixel) (s : State) : (drawPixel p s).sendsBy (drawCycles s.par s.cfg p) s := by
  unfold drawPixel drawCycles
  split
  · refine Res.sendsBy_bind (setWindow_transfers _ _ _ _ s) (setWindow_follows _ _ _ _ s) (cycleActs_append_command _ _ _ _ _ _)
      fun t ht => ?_
    rw [← ht.par]
    exact writePixels_follows [Config.toRaw16 p.color] t
  · exact Res.follows_nil s

/-- The drives of a drawing request are those of its pairs. -/
theorem cycleActs_draws (k : Transport) (P Q : Params) (c : Configuration) : ∀ l : List DrawPixel,
    cycleActs k P false (l.flatMap (drawCycles Q c)) = l.flatMap fun p => cycleActs k P false (drawCycles Q c p)
  | [] => rfl
  | p :: rest => by
    rw [List.flatMap_cons, List.flatMap_cons, ← cycleActs_draws k P Q c rest]
    have h : rest.flatMap (drawCycles Q c) = [] ∨ ∃ b l, rest.flatMap (drawCycles Q c) = .cmd b :: l := by
      clear cycleActs_draws
      induction rest with
      | nil => exact .inl rfl
      | cons q rest ih =>
        rw [List.flatMap_cons]
        unfold drawCycles
        split
        · exact .inr ⟨_, _, rfl⟩
        · exact ih
    rcases h with h | ⟨b, l, h⟩ <;> rw [h]
    · rw [List.append_nil, cycleActs, List.append_nil]
    · exact cycleActs_append_command _ _ _ _ _ _

theorem drawPixels_follows (l : List DrawPixel) (s : State) :
    (forEach drawPixel l s).sendsBy (l.flatMap (drawCycles s.par s.cfg)) s := by
  show (forEach drawPixel l s).follows _ _
  rw [cycleActs_draws]
  refine forEach_follows drawPixel _ (fun t => t.transport = s.transport ∧ t.par = s.par ∧ t.cfg = s.cfg) l (fun p _ t ht => ?_)
    (fun p _ t u ht hu => ?_) s ⟨rfl, rfl, rfl⟩
  · have := drawPixel_follows p t
    rwa [Res.sendsBy, ht.1, ht.2.1, ht.2.2] at this
  · have := Res.sent_of_ok (drawPixel_transfers p t) hu
    exact ⟨this.transport.trans ht.1, this.par.trans ht.2.1, this.cfg.trans ht.2.2⟩

/-! ## The bring-up -/

theorem resetPulse_follows (s : State) :
    (resetPulse s).follows [csAct .high, rstAct .low, .delay s.par.resetPulseMs, rstAct .high, .delay s.par.resetSettleMs, csAct .low] s := by
  refine Res.follows_bind (a := [_]) (b := [_, _, _, _, _]) (driveCs_follows _ s) fun t ht => ?_
  have h1 := (Res.ran_of_ok (driveCs_runs _ s) ht).par
  refine Res.follows_bind (a := [_]) (b := [_, _, _, _]) (driveRst_follows _ t) fun u hu => ?_
  have h2 := (Res.ran_of_ok (driveRst_runs _ t) hu).par
  rw [← h1, ← h2]
  refine Res.follows_bind (a := [_]) (b := [_, _, _]) (r := .ok (u.delayMs u.par.resetPulseMs))
    (f := fun x => (driveRst .high x).bind fun y => driveCs .low (y.delayMs y.par.resetSettleMs)) (follows_delay u _) fun v hv => ?_
  cases hv
  refine Res.follows_bind (a := [_]) (b := [_, _]) (driveRst_follows _ _) fun v hv => ?_
  have h3 : v.par = u.par := (Res.ran_of_ok (driveRst_runs _ _) hv).par
  rw [← h3]
  refine Res.follows_bind (a := [_]) (b := [_]) (r := .ok (v.delayMs v.par.resetSettleMs)) (f := driveCs .low)
    (follows_delay v _) fun w hw => ?_
  cases hw
  exact driveCs_follows _ _

theorem runEntry_follows (e : InitEntry) (s : State) : (runEntry e s).follows (entryActs s.transport s.par e) s := by
  cases e with
  | cmd op ps => exact sendFrame_follows op ps s
  | delay ms => exact follows_delay s ms

/-- A step that changes neither the draws nor the transcript has no act. -/
theorem follows_quiet {s t : State} (hd : t.draws = s.draws) (ht : t.trace = s.trace) : (Res.ok t).follows [] s :=
  ⟨by simp [driveCount], by simpa [driveCount] using hd, by simpa using ht⟩

theorem table_follows (l : List InitEntry) (s : State) :
    (forEach sequence l s).follows (l.flatMap (entryActs s.transport s.par)) s := by
  refine forEach_follows sequence _ (fun t => t.transport = s.transport ∧ t.par = s.par) l (fun e _ t ht => ?_)
    (fun e _ t u ht hu => ?_) s ⟨rfl, rfl⟩
  · have := runEntry_follows e t
    rw [ht.1, ht.2] at this
    have h := Res.follows_bind (b := []) (f := fun u => .ok { u with seq := u.seq.map (· + 1) }) this fun u _ => follows_quiet rfl rfl
    rwa [List.append_nil] at h
  · obtain ⟨v, hv, hu⟩ := Res.bind_eq_ok hu
    cases hu
    have h := Res.ran_of_ok (runEntry_runs e t) hv
    exact ⟨h.transport.trans ht.1, h.par.trans ht.2⟩

theorem bringUp_follows (s : State) : (bringUp s).follows (actsOf s.transport s.par s.cfg .init) s := by
  refine Res.follows_bind (resetPulse_follows { s.uninitialize with seq := none }) fun t ht => ?_
  have h : Ran (pulseEvents s.par) { s.uninitialize with seq := none } t := Res.ran_of_ok (resetPulse_runs _) ht
  have h1 : t.transport = s.transport := h.transport
  have h2 : t.par = s.par := h.par
  rw [← h1, ← h2, ← List.append_nil (t.par.initTable.flatMap _)]
  exact Res.follows_bind (table_follows t.par.initTable { t with seq := some 0 }) fun u _ => follows_quiet rfl rfl

end Sys2Proof.Machine
end

