-- ==== Sys2Proof/Laws/Memory.lean ====
section
/-! SUPPORT. The display memory: a read after a write, and that every operation on it keeps the canonical form. -/

namespace Sys2Proof.Machine.Memory

@[simp] theorem read_nil (a : Nat) : read a [] = none := rfl

@[simp] theorem read_cons (a k : Nat) (v : Pixel) (m : Memory) : read a ((k, v) :: m) = if k = a then some v else read a m := rfl

/-- A cell just written holds the value written. -/
@[simp] theorem read_write_same (a : Nat) (v : Pixel) : ∀ m : Memory, read a (write a v m) = some v
  | [] => by simp [write]
  | (k, w) :: rest => by
    have ih := read_write_same a v rest
    unfold write
    split
    · simp
    · split
      · simp
      · next h => simp [Ne.symm h, ih]

/-- A write leaves every other cell. -/
theorem read_write_other {a x : Nat} (h : x ≠ a) (v : Pixel) : ∀ m : Memory, read x (write a v m) = read x m
  | [] => by simp [write, Ne.symm h]
  | (k, w) :: rest => by
    have ih := read_write_other h v rest
    unfold write
    split
    · simp [Ne.symm h]
    · split
      · next hk => subst hk; simp [Ne.symm h]
      · simp [ih]

theorem read_write (a x : Nat) (v : Pixel) (m : Memory) : read x (write a v m) = if x = a then some v else read x m := by
  by_cases h : x = a
  · subst h; simp
  · simp [h, read_write_other h]

/-- A forgotten cell holds any value, and every other cell is left. -/
theorem read_forget (a x : Nat) (m : Memory) : read x (forget a m) = if x = a then none else read x m := by
  induction m with
  | nil => simp [forget]
  | cons c rest ih =>
    obtain ⟨k, w⟩ := c
    unfold forget at ih ⊢
    by_cases hk : k = a
    · subst hk
      by_cases hx : x = k
      · subst hx; simpa using ih
      · simp [ih, hx, Ne.symm hx]
    · by_cases hx : x = a
      · subst hx; simp [hk, ih]
      · simp [hk, hx, ih]

theorem read_put (a x : Nat) (v : Option Pixel) (m : Memory) : read x (put a v m) = if x = a then v else read x m := by
  cases v with
  | some v => exact read_write a x v m
  | none => exact read_forget a x m

/-- Nothing listed is canonical. -/
@[simp] theorem wf_nil : wf [] := ⟨.nil, by simp⟩

/-- What a write lists is the cell written and what was listed. -/
theorem mem_write {a : Nat} {v : Pixel} {c : Nat × Pixel} : ∀ {m : Memory}, c ∈ write a v m → c = (a, v) ∨ c ∈ m
  | [], h => .inl (by simpa [write] using h)
  | (k, w) :: rest, h => by
    unfold write at h
    split at h
    · simpa using h
    · split at h
      · rcases List.mem_cons.mp h with rfl | h
        · exact .inl rfl
        · exact .inr (List.mem_cons_of_mem _ h)
      · rcases List.mem_cons.mp h with rfl | h
        · exact .inr (List.mem_cons_self ..)
        · exact (mem_write h).imp_right (List.mem_cons_of_mem _)

/-- A write keeps the positions rising. -/
theorem rising_write (a : Nat) (v : Pixel) : ∀ {m : Memory}, m.Pairwise (fun c d => c.1 < d.1) →
    (write a v m).Pairwise (fun c d => c.1 < d.1)
  | [], _ => by simp [write]
  | (k, w) :: rest, h => by
    obtain ⟨h1, h2⟩ := List.pairwise_cons.mp h
    unfold write
    split
    · next hak =>
      refine List.pairwise_cons.mpr ⟨fun d hd => ?_, h⟩
      rcases List.mem_cons.mp hd with rfl | hd
      · exact hak
      · exact Nat.lt_trans hak (h1 d hd)
    · split
      · next hak => subst hak; exact List.pairwise_cons.mpr ⟨h1, h2⟩
      · next h' h'' =>
        refine List.pairwise_cons.mpr ⟨fun d hd => ?_, rising_write a v h2⟩
        rcases mem_write hd with rfl | hd
        · show k < a; omega
        · exact h1 d hd

/-- A write of one of the cells keeps the canonical form. -/
theorem wf_write {a : Nat} (ha : a < cells) (v : Pixel) {m : Memory} (h : wf m) : wf (write a v m) :=
  ⟨rising_write a v h.1, fun c hc => by
    rcases mem_write hc with rfl | hc
    · exact ha
    · exact h.2 c hc⟩

/-- Forgetting a cell keeps the canonical form. -/
theorem wf_forget (a : Nat) {m : Memory} (h : wf m) : wf (forget a m) :=
  ⟨h.1.filter _, fun c hc => h.2 c (List.mem_filter.mp hc).1⟩

theorem wf_put {a : Nat} (ha : a < cells) (v : Option Pixel) {m : Memory} (h : wf m) : wf (put a v m) := by
  cases v with
  | some v => exact wf_write ha v h
  | none => exact wf_forget a h

/-- The memory at reset is canonical. -/
theorem wf_reset : wf State.reset.panel.gram := wf_nil

/-- Canonical memories that read the same are the same. -/
theorem eq_of_read : ∀ {m n : Memory}, m.Pairwise (fun c d => c.1 < d.1) → n.Pairwise (fun c d => c.1 < d.1) →
    (∀ x, read x m = read x n) → m = n := by
  have low : ∀ (m : Memory) (a : Nat), (∀ c ∈ m, a < c.1) → read a m = none := by
    intro m
    induction m with
    | nil => intro a _; rfl
    | cons c rest ih =>
      intro a h
      obtain ⟨k, w⟩ := c
      have hk : a < k := h (k, w) (by simp)
      rw [read_cons, if_neg (by omega)]
      exact ih a fun d hd => h d (List.mem_cons_of_mem _ hd)
  intro m
  induction m with
  | nil =>
    intro n _ _ h
    cases n with
    | nil => rfl
    | cons c rest => obtain ⟨k, w⟩ := c; have := h k; simp at this
  | cons c rest ih =>
    intro n hm hn h
    obtain ⟨k, w⟩ := c
    cases n with
    | nil => have := h k; simp at this
    | cons d rest' =>
      obtain ⟨k', w'⟩ := d
      obtain ⟨h1, h2⟩ := List.pairwise_cons.mp hm
      obtain ⟨h1', h2'⟩ := List.pairwise_cons.mp hn
      have hk : k = k' := by
        rcases Nat.lt_trichotomy k k' with hlt | heq | hlt
        · have hx := h k
          rw [read_cons, if_pos rfl, low ((k', w') :: rest') k (fun c hc => ?_)] at hx
          · cases hx
          · rcases List.mem_cons.mp hc with rfl | hc
            · exact hlt
            · exact Nat.lt_trans hlt (h1' c hc)
        · exact heq
        · have hx := h k'
          rw [read_cons (m := rest'), if_pos rfl, low ((k, w) :: rest) k' (fun c hc => ?_)] at hx
          · cases hx
          · rcases List.mem_cons.mp hc with rfl | hc
            · exact hlt
            · exact Nat.lt_trans hlt (h1 c hc)
      subst hk
      have hw := h k
      simp only [read_cons, if_true] at hw
      cases hw
      rw [ih h2 h2' fun x => ?_]
      by_cases hx : x = k
      · subst hx; rw [low rest x h1, low rest' x h1']
      · have := h x
        simpa [Ne.symm hx] using this

end Sys2Proof.Machine.Memory
end

