-- ==== Sys2Proof/Laws/Panel.lean ====
section
/-! SUPPORT. What the panel makes of the cycles it hears: where a pixel falls, that the display memory keeps its form, and what
the block's frames do to a panel that is tracked. -/

namespace Sys2Proof

/-- The registers after `set_window` reached the panel: the four bounds, and the page frame open with its four bytes. -/
def PanelRegs.windowed (r : PanelRegs) (frame : Byte) (x0 y0 x1 y1 : U16) : PanelRegs :=
  { r with sc := x0, ec := x1, sp := y0, ep := y1, frameOp := frame, frameCount := 4, params := Machine.addrParams y0 y1, pairHi := none }

/-- The parts of the registers that a pixel stream leaves. -/
def PanelRegs.SameWindow (r q : PanelRegs) : Prop :=
  q.sc = r.sc ∧ q.ec = r.ec ∧ q.sp = r.sp ∧ q.ep = r.ep ∧ q.madctl = r.madctl

namespace Machine

/-! ## Where a pixel falls -/

/-- A byte with logical dimensions has a map, and the other way round. -/
theorem physical_some (P : Params) {m : Byte} {w h : Nat} (hd : logicalDims m = some (w, h)) (col row : Nat) :
    ∃ sw, physical P m col row = some (applySwaps Memory.cells sw (row * w + col)) ∧ mapOf P m = some sw ∧ w * h = Memory.cells := by
  unfold logicalDims at hd
  unfold physical mapOf logicalDims
  split at hd
  · next hm => rcases hm with rfl | rfl <;> cases hd <;> simp [Memory.cells]
  · split at hd
    · next hm => rcases hm with rfl | rfl <;> cases hd <;> simp [Memory.cells]
    · cases hd

/-- Inside the logical space a position is a cell. -/
theorem physical_lt {P : Params} {m : Byte} {w h col row a : Nat} (hd : logicalDims m = some (w, h)) (hc : col < w) (hr : row < h)
    (ha : physical P m col row = some a) : a < Memory.cells := by
  obtain ⟨sw, hs, _, hw⟩ := physical_some P hd col row
  rw [hs] at ha
  cases ha
  refine applySwaps_lt _ ?_
  calc row * w + col < row * w + w := by omega
    _ = (row + 1) * w := by ring
    _ ≤ h * w := Nat.mul_le_mul_right w hr
    _ = Memory.cells := by rw [Nat.mul_comm, hw]

/-- Two positions of the logical space on one cell are one position. -/
theorem physical_injective {P : Params} {m : Byte} {w h col row col' row' a : Nat} (hd : logicalDims m = some (w, h)) (hc : col < w)
    (hc' : col' < w) (ha : physical P m col row = some a) (ha' : physical P m col' row' = some a) : col = col' ∧ row = row' := by
  obtain ⟨sw, hs, hm, _⟩ := physical_some P hd col row
  obtain ⟨sw', hs', hm', _⟩ := physical_some P hd col' row'
  rw [hm] at hm'
  cases hm'
  rw [hs] at ha
  rw [hs', ← ha] at ha'
  have := applySwaps_injective _ _ (Option.some.inj ha')
  have hw : 0 < w := by omega
  have h1 : (row * w + col) / w = row := by
    rw [Nat.add_comm, Nat.add_mul_div_right _ _ hw, Nat.div_eq_of_lt hc, Nat.zero_add]
  have h2 : (row' * w + col') / w = row' := by
    rw [Nat.add_comm, Nat.add_mul_div_right _ _ hw, Nat.div_eq_of_lt hc', Nat.zero_add]
  have hrow : row = row' := by rw [← h1, ← h2, this]
  subst hrow
  exact ⟨by omega, rfl⟩

/-- Every cell is some position's of the logical space. -/
theorem physical_surjective (P : Params) {m : Byte} {w h : Nat} (hd : logicalDims m = some (w, h)) {a : Nat} (ha : a < Memory.cells) :
    ∃ col row, col < w ∧ row < h ∧ physical P m col row = some a := by
  obtain ⟨sw, _, hm, hw⟩ := physical_some P hd 0 0
  have hi := applySwaps_lt (n := Memory.cells) sw.reverse ha
  have hw0 : 0 < w := Nat.pos_of_ne_zero (by rintro rfl; simp [Memory.cells] at hw)
  refine ⟨applySwaps Memory.cells sw.reverse a % w, applySwaps Memory.cells sw.reverse a / w, Nat.mod_lt _ hw0, ?_, ?_⟩
  · rw [Nat.div_lt_iff_lt_mul hw0, Nat.mul_comm h w, hw]; exact hi
  · obtain ⟨sw', hs, hm', _⟩ := physical_some P hd (applySwaps Memory.cells sw.reverse a % w) (applySwaps Memory.cells sw.reverse a / w)
    rw [hm] at hm'
    cases hm'
    rw [hs, Nat.mul_comm, Nat.div_add_mod, applySwaps_surjective]

/-- What a legal window says. -/
theorem windowLegal_iff (r : PanelRegs) : windowLegal r = true ↔
    ∃ w h, logicalDims r.madctl = some (w, h) ∧ r.sc ≤ r.ec ∧ r.sp ≤ r.ep ∧ r.ec.toNat < w ∧ r.ep.toNat < h := by
  unfold windowLegal
  cases hd : logicalDims r.madctl with
  | none => simp
  | some p => obtain ⟨w, h⟩ := p; simp

/-- A pointer inside a legal window falls on a cell. -/
theorem placement_inside (P : Params) {r : PanelRegs} (hl : windowLegal r = true) (hp : pointerInside r = true) :
    ∃ a, placement P r = .cell a ∧ physical P r.madctl r.pc r.pr = some a := by
  obtain ⟨w, h, hd, _⟩ := (windowLegal_iff r).mp hl
  obtain ⟨sw, hs, _⟩ := physical_some P hd r.pc r.pr
  refine ⟨_, ?_, hs⟩
  simp [placement, hl, hp, hs]

/-- A pixel falls on a cell only inside a legal window, and then on one of the display memory's. -/
theorem placement_cell {P : Params} {r : PanelRegs} {a : Nat} (h : placement P r = .cell a) :
    windowLegal r = true ∧ pointerInside r = true ∧ physical P r.madctl r.pc r.pr = some a ∧ a < Memory.cells := by
  unfold placement at h
  split at h
  · next hl =>
    split at h
    · next hp =>
      cases hs : physical P r.madctl r.pc r.pr with
      | none => rw [hs] at h; cases h
      | some b =>
        rw [hs] at h
        cases h
        obtain ⟨w, hh, hd, _, _, h3, h4⟩ := (windowLegal_iff r).mp hl
        have hp' : r.sc.toNat ≤ r.pc ∧ r.pc ≤ r.ec.toNat ∧ r.sp.toNat ≤ r.pr ∧ r.pr ≤ r.ep.toNat := by
          simpa [pointerInside] using hp
        exact ⟨hl, hp, rfl, physical_lt hd (by omega) (by omega) hs⟩
    · cases h
  · cases h

/-! ## The display memory keeps its form -/

theorem Panel.pixel_wf (P : Params) (v : Option Pixel) {p : Panel} (h : Memory.wf p.gram) : Memory.wf (p.pixel P v).gram := by
  unfold Panel.pixel
  split
  · next hp => exact Memory.wf_put (placement_cell hp).2.2.2 v h
  · exact Memory.wf_nil
  · split
    · exact Memory.wf_nil
    · exact h
    · split
      · next hp => exact Memory.wf_put (placement_cell hp).2.2.2 v h
      · exact Memory.wf_nil

theorem Panel.closeFrame_wf (P : Params) {p : Panel} (h : Memory.wf p.gram) : Memory.wf (p.closeFrame P).gram := by
  unfold Panel.closeFrame
  split
  · exact Panel.pixel_wf P none h
  · exact h

theorem Panel.opened_wf (P : Params) (n : Nat) (b : Byte) {p : Panel} (h : Memory.wf p.gram) : Memory.wf (p.opened P n b).gram := by
  unfold Panel.opened
  split <;> first | exact h | exact Memory.wf_nil

theorem Panel.data_wf (P : Params) (n : Nat) (b : Byte) {p : Panel} (h : Memory.wf p.gram) : Memory.wf (p.data P n b).gram := by
  unfold Panel.data
  split <;> first | exact h | exact Memory.wf_nil | skip
  unfold Panel.pixelByte
  split
  · split
    · exact h
    · exact Panel.pixel_wf P _ h
  · exact Memory.wf_nil

theorem Panel.onBus_wf (P : Params) (pins : Pins) (ph : Phase) (n : Nat) (c : Cycle) {p : Panel} (h : Memory.wf p.gram) :
    Memory.wf (p.onBus P pins ph n c).gram := by
  have hc : Memory.wf (p.cycle P n c).gram := by
    cases c with
    | cmd b => exact Panel.opened_wf P n b (Panel.closeFrame_wf P h)
    | dat b => exact Panel.data_wf P n b h
  have hr : Memory.wf (if ph = .ready then p.cycle P n c else .any n).gram := by
    split
    · exact hc
    · exact Memory.wf_nil
  unfold Panel.onBus
  split
  · exact h
  · exact hr
  · split
    · exact hr
    · exact h

/-- Hearing cycles keeps the form. -/
theorem heard_wf (l : List Cycle) : ∀ {s : State}, Memory.wf s.panel.gram → Memory.wf (s.heard l).panel.gram := by
  induction l with
  | nil => intro s h; exact h
  | cons c rest ih => intro s h; exact ih (s := s.latched c) (Panel.onBus_wf _ _ _ _ c h)

theorem Sent.gram_wf {l : List Cycle} {s t : State} (h : Sent l s t) (hs : Memory.wf s.panel.gram) : Memory.wf t.panel.gram := by
  rw [h.panel]; exact heard_wf l hs

/-! ## A panel that is tracked -/

/-- The cycles of a list, one after the other, on a panel that is tracked. -/
def Panel.run (P : Params) : Nat → List Cycle → Panel → Panel
  | _, [], p => p
  | n, c :: rest, p => run P (n + 1) rest (p.cycle P n c)

theorem Panel.run_append (P : Params) (a b : List Cycle) : ∀ (n : Nat) (p : Panel),
    Panel.run P n (a ++ b) p = Panel.run P (n + a.length) b (Panel.run P n a p) := by
  induction a with
  | nil => intro n p; rfl
  | cons c rest ih =>
    intro n p
    show Panel.run P (n + 1) (rest ++ b) _ = _
    rw [ih, List.length_cons, Nat.add_right_comm, Nat.add_assoc]
    rfl

/-- A listening panel runs the cycles. -/
theorem heard_listening (l : List Cycle) : ∀ {s : State}, s.listening → (s.heard l).panel = Panel.run s.par s.free l s.panel := by
  induction l with
  | nil => intro s _; rfl
  | cons c rest ih =>
    intro s h
    rw [heard_cons, ih (s := s.latched c) h]
    show Panel.run s.par (s.free + 1) rest (s.panel.onBus s.par s.pins s.phase s.free c) = _
    rw [show s.panel.onBus s.par s.pins s.phase s.free c = s.panel.cycle s.par s.free c by
      simp [Panel.onBus, reception, h.1, h.2.1, h.2.2]]
    rfl

/-- A panel that ignores the bus keeps everything. -/
theorem heard_ignored (l : List Cycle) : ∀ {s : State}, s.pins.cs = .known .high ∨ s.pins.rst = .known .low →
    (s.heard l).panel = s.panel := by
  induction l with
  | nil => intro s _; rfl
  | cons c rest ih =>
    intro s h
    rw [heard_cons, ih (s := s.latched c) h]
    show s.panel.onBus s.par s.pins s.phase s.free c = _
    simp [Panel.onBus, reception, h]

/-- Outside Ready a cycle leaves the panel as it was or makes it any value. -/
theorem heard_untracked (l : List Cycle) : ∀ {s : State}, s.phase ≠ .ready →
    (s.heard l).panel = s.panel ∨ ∃ n, (s.heard l).panel = Panel.any n := by
  induction l with
  | nil => intro s _; exact .inl rfl
  | cons c rest ih =>
    intro s h
    have hc : (s.latched c).panel = s.panel ∨ ∃ n, (s.latched c).panel = Panel.any n := by
      show s.panel.onBus s.par s.pins s.phase s.free c = _ ∨ ∃ n, s.panel.onBus s.par s.pins s.phase s.free c = _
      unfold Panel.onBus
      simp only [if_neg h]
      split
      · exact .inl rfl
      · exact .inr ⟨_, rfl⟩
      · split
        · exact .inr ⟨_, rfl⟩
        · exact .inl rfl
    rw [heard_cons]
    rcases ih (s := s.latched c) h with k | k
    · rw [k]; exact hc
    · exact .inr k

/-- Outside Ready a received cycle makes the panel any value. -/
theorem heard_untracked_received {l : List Cycle} {s : State} (hl : l ≠ []) (h : s.phase ≠ .ready)
    (hcs : s.pins.cs = .known .low) (hrst : s.pins.rst = .known .high) : ∃ n, (s.heard l).panel = Panel.any n := by
  cases l with
  | nil => exact absurd rfl hl
  | cons c rest =>
    have hc : (s.latched c).panel = Panel.any s.free := by
      show s.panel.onBus s.par s.pins s.phase s.free c = _
      simp [Panel.onBus, reception, hcs, hrst, h]
    rw [heard_cons]
    rcases heard_untracked rest (s := s.latched c) h with k | k
    · exact ⟨_, k.trans hc⟩
    · exact k

theorem Sent.listening {l : List Cycle} {s t : State} (h : Sent l s t) (hs : s.listening) : t.listening :=
  ⟨h.phase.trans hs.1, h.cs.trans hs.2.1, h.rst.trans hs.2.2⟩

theorem Sent.run {l : List Cycle} {s t : State} (h : Sent l s t) (hs : s.listening) : t.panel = Panel.run s.par s.free l s.panel := by
  rw [h.panel, heard_listening l hs]

/-- With no pixel waiting, closing a frame changes nothing. -/
theorem Panel.closeFrame_of_settled {P : Params} {p : Panel} (h : p.settled P) : p.closeFrame P = p := by
  unfold Panel.closeFrame
  rw [if_neg]
  rintro ⟨hf, hp⟩
  rw [h hf] at hp
  cases hp

/-- With the first byte of a pixel waiting, closing the frame makes that pixel's cell any value and leaves the others. -/
theorem Panel.closeFrame_of_awaits {P : Params} {p : Panel} {a : Nat} (h : p.awaits P a) :
    (p.closeFrame P).gram.read a = none ∧ ∀ x, x ≠ a → (p.closeFrame P).gram.read x = p.gram.read x := by
  have hg : (p.closeFrame P).gram = p.gram.put a none := by
    unfold Panel.closeFrame Panel.pixel
    rw [if_pos ⟨h.1, h.2.1⟩, h.2.2]
  rw [hg]
  exact ⟨by rw [Memory.read_put, if_pos rfl], fun x hx => by rw [Memory.read_put, if_neg hx]⟩

/-- Closing a frame leaves the window and the two settings. -/
theorem Panel.closeFrame_regs (P : Params) (p : Panel) :
    (p.closeFrame P).regs.sc = p.regs.sc ∧ (p.closeFrame P).regs.ec = p.regs.ec ∧ (p.closeFrame P).regs.sp = p.regs.sp ∧
      (p.closeFrame P).regs.ep = p.regs.ep ∧ (p.closeFrame P).regs.madctl = p.regs.madctl ∧
      (p.closeFrame P).regs.colmod = p.regs.colmod := by
  have ha : ∀ r : PanelRegs, r.advance.sc = r.sc ∧ r.advance.ec = r.ec ∧ r.advance.sp = r.sp ∧ r.advance.ep = r.ep ∧
      r.advance.madctl = r.madctl ∧ r.advance.colmod = r.colmod := by
    intro r; unfold PanelRegs.advance; split <;> exact ⟨rfl, rfl, rfl, rfl, rfl, rfl⟩
  unfold Panel.closeFrame
  split
  · unfold Panel.pixel
    split
    · exact ha _
    · exact ha _
    · split
      · exact ha _
      · exact ⟨rfl, rfl, rfl, rfl, rfl, rfl⟩
      · split <;> exact ha _
  · exact ⟨rfl, rfl, rfl, rfl, rfl, rfl⟩

/-! ## The block's frames -/

theorem word16_hi8_lo8 (w : U16) : word16 (hi8 w) (lo8 w) = w := by
  unfold word16 hi8 lo8
  exact BitVec.extractLsb'_append_extractLsb'_eq_extractLsb' (by rfl) |>.trans (by simp)

/-- A column-address frame of four bytes. -/
theorem run_caset {P : Params} (hB : P.opcodes.injective = true) (n : Nat) (p : Panel) (a z : U16) :
    Panel.run P n (frameCycles P.opcodes .caset (addrParams a z)) p =
      ⟨{ (p.closeFrame P).regs with
          sc := a, ec := z, frameOp := P.opcodes.caset, frameCount := 4, params := addrParams a z, pairHi := none },
        (p.closeFrame P).gram⟩ := by
  have hop : P.opcodes.opcode? P.opcodes.caset = some .caset := OpcodeBytes.opcode?_byte hB .caset
  simp [frameCycles, addrParams, Panel.run, Panel.cycle, Panel.command, Panel.opened, OpcodeBytes.byte, hop, PanelRegs.openFrame,
    Panel.data, PanelRegs.columnByte, PanelRegs.counted, boundsOf, word16_hi8_lo8]

/-- A page-address frame of four bytes. -/
theorem run_paset {P : Params} (hB : P.opcodes.injective = true) (n : Nat) (p : Panel) (a z : U16) :
    Panel.run P n (frameCycles P.opcodes .paset (addrParams a z)) p =
      ⟨{ (p.closeFrame P).regs with
          sp := a, ep := z, frameOp := P.opcodes.paset, frameCount := 4, params := addrParams a z, pairHi := none },
        (p.closeFrame P).gram⟩ := by
  have hop : P.opcodes.opcode? P.opcodes.paset = some .paset := OpcodeBytes.opcode?_byte hB .paset
  simp [frameCycles, addrParams, Panel.run, Panel.cycle, Panel.command, Panel.opened, OpcodeBytes.byte, hop, PanelRegs.openFrame,
    Panel.data, PanelRegs.pageByte, PanelRegs.counted, boundsOf, word16_hi8_lo8]

/-- `set_window` on a panel that is tracked. -/
theorem run_window {P : Params} (hB : P.opcodes.injective = true) (n : Nat) (p : Panel) (x0 y0 x1 y1 : U16) :
    Panel.run P n (windowCycles P.opcodes x0 y0 x1 y1) p =
      ⟨(p.closeFrame P).regs.windowed P.opcodes.paset x0 y0 x1 y1, (p.closeFrame P).gram⟩ := by
  have hop : P.opcodes.opcode? P.opcodes.caset = some .caset := OpcodeBytes.opcode?_byte hB .caset
  unfold windowCycles
  rw [Panel.run_append, run_caset hB, run_paset hB, Panel.closeFrame_of_settled (fun hf => by simp [hop] at hf)]
  rfl

/-- A one-byte frame of a setting. -/
theorem run_madctl {P : Params} (hB : P.opcodes.injective = true) (n : Nat) (p : Panel) (b : Byte) :
    Panel.run P n (frameCycles P.opcodes .madctl [b]) p =
      ⟨{ (p.closeFrame P).regs with madctl := b, frameOp := P.opcodes.madctl, frameCount := 1, params := [], pairHi := none },
        (p.closeFrame P).gram⟩ := by
  have hop : P.opcodes.opcode? P.opcodes.madctl = some .madctl := OpcodeBytes.opcode?_byte hB .madctl
  simp [frameCycles, Panel.run, Panel.cycle, Panel.command, Panel.opened, OpcodeBytes.byte, hop, PanelRegs.openFrame, Panel.data,
    PanelRegs.counted]

theorem run_colmod {P : Params} (hB : P.opcodes.injective = true) (n : Nat) (p : Panel) (b : Byte) :
    Panel.run P n (frameCycles P.opcodes .colmod [b]) p =
      ⟨{ (p.closeFrame P).regs with colmod := b, frameOp := P.opcodes.colmod, frameCount := 1, params := [], pairHi := none },
        (p.closeFrame P).gram⟩ := by
  have hop : P.opcodes.opcode? P.opcodes.colmod = some .colmod := OpcodeBytes.opcode?_byte hB .colmod
  simp [frameCycles, Panel.run, Panel.cycle, Panel.command, Panel.opened, OpcodeBytes.byte, hop, PanelRegs.openFrame, Panel.data,
    PanelRegs.counted]

theorem run_wrdisbv {P : Params} (hB : P.opcodes.injective = true) (n : Nat) (p : Panel) (b : Byte) :
    Panel.run P n (frameCycles P.opcodes .wrdisbv [b]) p =
      ⟨{ (p.closeFrame P).regs with frameOp := P.opcodes.wrdisbv, frameCount := 1, params := [], pairHi := none },
        (p.closeFrame P).gram⟩ := by
  have hop : P.opcodes.opcode? P.opcodes.wrdisbv = some .wrdisbv := OpcodeBytes.opcode?_byte hB .wrdisbv
  simp [frameCycles, Panel.run, Panel.cycle, Panel.command, Panel.opened, OpcodeBytes.byte, hop, PanelRegs.openFrame, Panel.data,
    PanelRegs.counted]

theorem run_nop {P : Params} (hB : P.opcodes.injective = true) (n : Nat) (p : Panel) :
    Panel.run P n (frameCycles P.opcodes .nop []) p = ⟨(p.closeFrame P).regs.openFrame P.opcodes.nop, (p.closeFrame P).gram⟩ := by
  have hop : P.opcodes.opcode? P.opcodes.nop = some .nop := OpcodeBytes.opcode?_byte hB .nop
  simp [frameCycles, Panel.run, Panel.cycle, Panel.command, Panel.opened, OpcodeBytes.byte, hop]

theorem run_ramwr {P : Params} (hB : P.opcodes.injective = true) (n : Nat) (p : Panel) :
    Panel.run P n (frameCycles P.opcodes .ramwr []) p =
      ⟨((p.closeFrame P).regs.openFrame P.opcodes.ramwr).restart, (p.closeFrame P).gram⟩ := by
  have hop : P.opcodes.opcode? P.opcodes.ramwr = some .ramwr := OpcodeBytes.opcode?_byte hB .ramwr
  simp [frameCycles, Panel.run, Panel.cycle, Panel.command, Panel.opened, OpcodeBytes.byte, hop]

/-! ## The pixel stream -/

/-- A memory-write frame at format 0x55 in a legal window, before pixel number `j` of the window. -/
structure Streaming (P : Params) (r : PanelRegs) (j : Nat) : Prop where
  frame : P.opcodes.opcode? r.frameOp = some .ramwr
  colmod : r.colmod = 0x55
  pair : r.pairHi = none
  legal : windowLegal r = true
  pc : r.pc = r.sc.toNat + j % (r.ec.toNat - r.sc.toNat + 1)
  pr : r.pr = r.sp.toNat + j / (r.ec.toNat - r.sc.toNat + 1)

/-- One pixel of a stream inside its window: it is stored on its cell, and the next one is pixel number `j + 1`. -/
theorem Streaming.word {P : Params} {p : Panel} {j : Nat} (h : Streaming P p.regs j)
    (hj : j < (p.regs.ec.toNat - p.regs.sc.toNat + 1) * (p.regs.ep.toNat - p.regs.sp.toNat + 1)) (n : Nat) (w : U16) :
    ∃ a, physical P p.regs.madctl (p.regs.sc.toNat + j % (p.regs.ec.toNat - p.regs.sc.toNat + 1))
        (p.regs.sp.toNat + j / (p.regs.ec.toNat - p.regs.sc.toNat + 1)) = some a ∧
      (Panel.run P n [.dat (hi8 w), .dat (lo8 w)] p).gram = p.gram.write a w ∧
      Streaming P (Panel.run P n [.dat (hi8 w), .dat (lo8 w)] p).regs (j + 1) ∧
      p.regs.SameWindow (Panel.run P n [.dat (hi8 w), .dat (lo8 w)] p).regs := by
  obtain ⟨_, _, _, hse, hsp, _⟩ := (windowLegal_iff _).mp h.legal
  have hse : p.regs.sc.toNat ≤ p.regs.ec.toNat := hse
  have hsp : p.regs.sp.toNat ≤ p.regs.ep.toNat := hsp
  have hp1 := h.pc
  have hp2 := h.pr
  have hd := Nat.div_add_mod j (p.regs.ec.toNat - p.regs.sc.toNat + 1)
  have hm : j % (p.regs.ec.toNat - p.regs.sc.toNat + 1) < p.regs.ec.toNat - p.regs.sc.toNat + 1 := Nat.mod_lt _ (by omega)
  have hq : j / (p.regs.ec.toNat - p.regs.sc.toNat + 1) < p.regs.ep.toNat - p.regs.sp.toNat + 1 :=
    (Nat.div_lt_iff_lt_mul (by omega)).mpr (by rw [Nat.mul_comm]; exact hj)
  generalize hQ : j / (p.regs.ec.toNat - p.regs.sc.toNat + 1) = q at *
  generalize hR : j % (p.regs.ec.toNat - p.regs.sc.toNat + 1) = r at *
  have hin : pointerInside p.regs = true := by
    simp only [pointerInside, decide_eq_true_eq]
    omega
  obtain ⟨a, ha, hph⟩ := placement_inside P h.legal hin
  have h1 : p.data P n (hi8 w) = ⟨{ p.regs.counted with pairHi := some (hi8 w) }, p.gram⟩ := by
    simp [Panel.data, h.frame, Panel.pixelByte, h.colmod, h.pair]
  have h2 : ({ p.regs.counted.counted with pairHi := none } : PanelRegs) = { p.regs with frameCount := p.regs.frameCount + 2 } := by
    rw [← h.pair]; rfl
  have h3 : placement P { p.regs with frameCount := p.regs.frameCount + 2 } = .cell a := ha
  have hrun : Panel.run P n [.dat (hi8 w), .dat (lo8 w)] p =
      ⟨({ p.regs with frameCount := p.regs.frameCount + 2 } : PanelRegs).advance, p.gram.write a w⟩ := by
    show Panel.data P (n + 1) (lo8 w) (p.data P n (hi8 w)) = _
    rw [h1]
    have h4 : Panel.data P (n + 1) (lo8 w) ⟨{ p.regs.counted with pairHi := some (hi8 w) }, p.gram⟩ =
        Panel.pixel P (some (word16 (hi8 w) (lo8 w))) ⟨{ p.regs.counted.counted with pairHi := none }, p.gram⟩ := by
      simp [Panel.data, h.frame, Panel.pixelByte, h.colmod, PanelRegs.counted]
    rw [h4, h2, word16_hi8_lo8, Panel.pixel, h3]
    rfl
  rw [hp1, hp2] at hph
  refine ⟨a, hph, by rw [hrun], ?_, ?_⟩
  · rw [hrun]
    generalize hW : p.regs.ec.toNat - p.regs.sc.toNat + 1 = W at *
    have hW0 : 0 < W := by omega
    unfold PanelRegs.advance
    by_cases hlt : p.regs.pc < p.regs.ec.toNat
    · have h1 : (j + 1) % W = r + 1 := by
        rw [← hd, Nat.add_assoc, Nat.mul_add_mod, Nat.mod_eq_of_lt (by omega)]
      have h2 : (j + 1) / W = q := by
        rw [← hd, Nat.add_assoc, Nat.mul_add_div hW0, Nat.div_eq_of_lt (by omega), Nat.add_zero]
      rw [if_pos hlt]
      refine ⟨h.frame, h.colmod, h.pair, h.legal, ?_, ?_⟩
      · show p.regs.pc + 1 = p.regs.sc.toNat + (j + 1) % (p.regs.ec.toNat - p.regs.sc.toNat + 1)
        rw [hW, h1, hp1]; omega
      · show p.regs.pr = p.regs.sp.toNat + (j + 1) / (p.regs.ec.toNat - p.regs.sc.toNat + 1)
        rw [hW, h2, hp2]
    · have hr : r + 1 = W := by omega
      have h1 : (j + 1) % W = 0 := by
        rw [← hd, Nat.add_assoc, hr, Nat.mul_add_mod, Nat.mod_self]
      have h2 : (j + 1) / W = q + 1 := by
        rw [← hd, Nat.add_assoc, hr, Nat.mul_add_div hW0, Nat.div_self hW0]
      rw [if_neg hlt]
      refine ⟨h.frame, h.colmod, h.pair, h.legal, ?_, ?_⟩
      · show p.regs.sc.toNat = p.regs.sc.toNat + (j + 1) % (p.regs.ec.toNat - p.regs.sc.toNat + 1)
        rw [hW, h1]; omega
      · show p.regs.pr + 1 = p.regs.sp.toNat + (j + 1) / (p.regs.ec.toNat - p.regs.sc.toNat + 1)
        rw [hW, h2, hp2]; omega
  · rw [hrun]
    unfold PanelRegs.advance
    split <;> exact ⟨rfl, rfl, rfl, rfl, rfl⟩

/-- A memory-write frame opened in a legal window at format 0x55 is before pixel number 0. -/
theorem Streaming.start {P : Params} (hB : P.opcodes.injective = true) {r : PanelRegs} (hc : r.colmod = 0x55)
    (hl : windowLegal r = true) : Streaming P (r.openFrame P.opcodes.ramwr).restart 0 := by
  refine ⟨OpcodeBytes.opcode?_byte hB .ramwr, hc, rfl, hl, ?_, ?_⟩ <;> simp [PanelRegs.restart, PanelRegs.openFrame]

end Machine

end Sys2Proof
end

