-- ==== Sys2Proof/Tests/Slice0.lean ====
section
/-! SUPPORT. Tests: every expected result is taken from 95_test_vectors or from the rule it names, not from the model. -/

namespace Sys2Proof.Tests

open Sys2Proof.Machine

/-! ## A small machine -/

/-- Parameters with every default of 95_test_vectors, its table `T_ex`, and the data lines driven from D0 to D7. -/
def benchPar : Params where
  opcodes := .datasheet
  dcCmdLevel := .low
  resetPulseMs := 2
  resetSettleMs := 200
  initTable := exampleTable
  delaySentinel := 0xFF
  clipBounds := .logical
  readMode := .stub
  dataOrder := []
  overflow := .anyValue
  map40 := []
  map90 := []
  map20 := []
  mapF4 := []

/-- The reset state with these parameters. -/
def bench : State := { State.reset with par := benchPar, panel := ⟨benchRegs, []⟩ }
where
  benchRegs : PanelRegs :=
    { sc := 0, ec := 319, sp := 0, ep := 479, madctl := 0x40, colmod := 0x55, frameOp := 0x00, frameCount := 0,
      params := [], pc := 0, pr := 0, pairHi := none }

/-- The same machine, Ready and selected, so that the panel is tracked. -/
def ready : State := { bench with phase := .ready, pins := { bench.pins with cs := .known .low } }

/-- `s`, whose drive after the next `n` fails. -/
def failsAfter (n : Nat) (s : State) : State := { s with draws := List.replicate n .succeeds ++ [.fails] }

/-- What an instruction appends to the transcript, if it answers a next state. -/
def appends (i : Instr) (s : State) : Option (List Event) :=
  match exec i s with
  | .next t => some (t.trace.drop s.trace.length)
  | _ => none

/-- What an instruction returns, if it answers a next state. -/
def returns (i : Instr) (s : State) : Option Ret :=
  match exec i s with
  | .next t => some t.ret
  | _ => none

/-- The state after an instruction, or the state before it if it stops. -/
def after (i : Instr) (s : State) : State :=
  match exec i s with
  | .next t => t
  | _ => s

/-- `Dat` of each byte, as 95_test_vectors abbreviates it. -/
def dats (bs : List Byte) : List Event := bs.map .dat

/-! ## WellFormed: each check refuses an ill-formed term -/

theorem test_params_wellFormed : benchPar.wellFormed = true := by decide
theorem test_opcodes_not_injective : ({ OpcodeBytes.datasheet with swreset := 0x00 } : OpcodeBytes).injective = false := by decide
theorem test_sentinel_collides : ({ benchPar with delaySentinel := 0x2C } : Params).sentinelApart = false := by decide
theorem test_pulse_too_short : ({ benchPar with resetPulseMs := 1 } : Params).delaysLegal = false := by decide
theorem test_settle_too_short : ({ benchPar with resetSettleMs := 199 } : Params).delaysLegal = false := by decide
theorem test_table_without_reset_delay :
    admissible [.cmd .swreset [], .cmd .slpout [], .delay 120, .cmd .dispon [], .delay 20] = false := by decide
theorem test_table_without_slpout_delay :
    admissible [.cmd .swreset [], .delay 120, .cmd .slpout [], .cmd .dispon [], .delay 20] = false := by decide
theorem test_table_without_dispon :
    admissible [.cmd .swreset [], .delay 120, .cmd .slpout [], .delay 120] = false := by decide
theorem test_table_without_final_delay :
    admissible [.cmd .swreset [], .delay 120, .cmd .slpout [], .delay 120, .delay 20, .cmd .dispon []] = false := by decide
theorem test_dims_disagree : dimsAgree 480 320 .portrait = false := by decide
theorem test_memory_not_rising : ¬ Memory.wf [(5, 0), (5, 1)] := by decide
theorem test_memory_beyond : ¬ Memory.wf [(153600, 0)] := by decide

/-! ## Decoding: words written out from the table of 30_encoding R74 and the patterns of the opcode table -/

theorem test_decode_nop : decodeTableWord 8 0b00000000 = some .nop := by decide
theorem test_decode_swreset : decodeTableWord 8 0b00000001 = some .swreset := by decide
theorem test_decode_slpin : decodeTableWord 8 0b00010000 = some .slpin := by decide
theorem test_decode_slpout : decodeTableWord 8 0b00010001 = some .slpout := by decide
theorem test_decode_invoff : decodeTableWord 8 0b00100000 = some .invoff := by decide
theorem test_decode_invon : decodeTableWord 8 0b00100001 = some .invon := by decide
theorem test_decode_invctr : decodeTableWord 8 0b10110100 = some .invctr := by decide
theorem test_decode_dispoff : decodeTableWord 8 0b00101000 = some .dispoff := by decide
theorem test_decode_dispon : decodeTableWord 8 0b00101001 = some .dispon := by decide
theorem test_decode_caset : decodeTableWord 8 0b00101010 = some .caset := by decide
theorem test_decode_paset : decodeTableWord 8 0b00101011 = some .paset := by decide
theorem test_decode_ramwr : decodeTableWord 8 0b00101100 = some .ramwr := by decide
theorem test_decode_ramrd : decodeTableWord 8 0b00101110 = some .ramrd := by decide
theorem test_decode_madctl : decodeTableWord 8 0b00110110 = some .madctl := by decide
theorem test_decode_idmoff : decodeTableWord 8 0b00111000 = some .idmoff := by decide
theorem test_decode_idmon : decodeTableWord 8 0b00111001 = some .idmon := by decide
theorem test_decode_colmod : decodeTableWord 8 0b00111010 = some .colmod := by decide
theorem test_decode_wrdisbv : decodeTableWord 8 0b01010001 = some .wrdisbv := by decide
theorem test_decode_pwctrl1 : decodeTableWord 8 0b11000000 = some .pwctrl1 := by decide
theorem test_decode_pwctrl2 : decodeTableWord 8 0b11000001 = some .pwctrl2 := by decide
theorem test_decode_pwctrl3 : decodeTableWord 8 0b11000010 = some .pwctrl3 := by decide
theorem test_decode_vmctrl1 : decodeTableWord 8 0b11000101 = some .vmctrl1 := by decide
theorem test_decode_pgamctrl : decodeTableWord 8 0b11100000 = some .pgamctrl := by decide
theorem test_decode_ngamctrl : decodeTableWord 8 0b11100001 = some .ngamctrl := by decide
theorem test_decode_dgamctrl : decodeTableWord 8 0b11100010 = some .dgamctrl := by decide
theorem test_decode_data : decodeCycle .datasheet 0b100101100#9 = .data 0x2C := by decide
/-- 0xFF is no member's byte, and a command cycle may carry any byte (40_transport R101). -/
theorem test_decode_other_byte : decodeCycle .datasheet 0b011111111#9 = .writeCommand 0xFF := by decide

/-- The request a text of R85 holds. -/
def reads (s : String) : Except DecodeError Instr := decodeRequest .datasheet (.text s)

/-- R101 writes the operand as a number, R86 as a mnemonic. -/
theorem test_line_write_command : reads "write_command 0x2C" = .ok (.writeCommand 0x2C) ∧
    reads "write_command RAMWR" = .ok (.writeCommand 0x2C) := by decide
theorem test_line_write_data : reads "write_data [0x00, 0xFF, 0x00]" = .ok (.writeData [0x00, 0xFF, 0x00]) := by decide
theorem test_line_write_data_16be : reads "write_data_16be repeat(0xABCD, 2)" = .ok (.writeData16be [0xABCD, 0xABCD]) := by decide
theorem test_line_read_status : reads "read_status" = .ok .readStatus := by decide
theorem test_line_read_data : reads "read_data" = .ok .readData := by decide
theorem test_line_new : reads "new                       ; bind transport, CS, RST" = .ok (.new .parallel8) := by decide
theorem test_line_assert_reset : reads "assert_reset" = .ok .assertReset := by decide
theorem test_line_deassert_reset : reads "deassert_reset" = .ok .deassertReset := by decide
theorem test_line_enable : reads "enable" = .ok .enable := by decide
theorem test_line_disable : reads "disable" = .ok .disable := by decide
theorem test_line_init : reads "init                      ; reset pulse + T_ex" = .ok .init := by decide
theorem test_line_send_command : reads "send_command NOP          ; close the memory-write frame" = .ok (.sendCommand .nop) := by decide
theorem test_line_send_data : reads "send_data []" = .ok (.sendData []) := by decide
theorem test_line_set_window : reads "set_window 10, 20, 11, 21" = .ok (.setWindow 10 20 11 21) := by decide
theorem test_line_write_pixels : reads "write_pixels [0xF800, 0x07E0]" = .ok (.writePixels [0xF800, 0x07E0]) := by decide
theorem test_line_fill : reads "fill 0xABCD" = .ok (.fill 0xABCD) := by decide
theorem test_line_set_pixel_format : reads "set_pixel_format Rgb565" = .ok (.setPixelFormat .rgb565) := by decide
theorem test_line_set_orientation : reads "set_orientation Landscape" = .ok (.setOrientation .landscape) := by decide
theorem test_line_set_brightness : reads "set_brightness 255" = .ok (.setBrightness 255) := by decide
theorem test_line_width : reads "width" = .ok .width := by decide
theorem test_line_height : reads "height" = .ok .height := by decide
theorem test_line_orientation : reads "orientation" = .ok .orientation := by decide
theorem test_line_draw_iter :
    reads "draw_iter [(-1, 5, 7), (479, 319, 7)]" = .ok (.drawIter [⟨-1, 5, ⟨7⟩⟩, ⟨479, 319, ⟨7⟩⟩]) := by decide
theorem test_line_size : reads "size" = .ok .size := by decide
theorem test_line_init_cmd : reads "INIT_CMD COLMOD, [0x55]" = .ok (.initCmd .colmod [0x55]) := by decide
theorem test_line_init_delay : reads "INIT_DELAY 120" = .ok (.initDelay 120) := by decide
theorem test_line_unknown : reads "jump 3" = .error .unknownMnemonic := by decide
theorem test_line_out_of_range : reads "write_command 0x100" = .error .outOfRange := by decide
theorem test_line_bad_name : reads "send_command FOO" = .error .unknownName := by decide
theorem test_line_bad_arguments : reads "fill [1]" = .error .wrongArguments := by decide
theorem test_line_bad_text : reads "fill (1" = .error .notALine := by decide

/-! ## The transport: V-T1 to V-T15 -/

theorem test_write_command_any_byte : appends (.writeCommand 0xFF) bench = some [.cmd 0xFF] := by decide
theorem test_write_command_restore_fails :
    (after (.writeCommand 0x2C) (failsAfter 11 bench)).trace.drop 2 = [.cmd 0x2C] ∧
    (after (.writeCommand 0x2C) (failsAfter 11 bench)).ret = .err (.bus .command) ∧
    (after (.writeCommand 0x2C) (failsAfter 11 bench)).pins.dc = .unknown := by decide
theorem test_write_data_in_order : appends (.writeData [0x00, 0xFF, 0x00]) bench = some (dats [0x00, 0xFF, 0x00]) := by decide
theorem test_write_data_empty_drives_nothing : (after (.writeData []) bench).pins.dc = .unknown := by decide
theorem test_write_data_16be_big_endian :
    appends (.writeData16be [0x0000, 0xFFFF, 0x1234]) bench = some (dats [0x00, 0x00, 0xFF, 0xFF, 0x12, 0x34]) := by decide
theorem test_write_data_16be_low_byte_fails :
    appends (.writeData16be [0xABCD]) (failsAfter 20 ready) = some [.dat 0xAB] ∧
    (after (.writeData16be [0xABCD]) (failsAfter 20 ready)).pins.wr = .unknown ∧
    (after (.writeData16be [0xABCD]) (failsAfter 20 ready)).phase = .uninitialized := by decide
theorem test_read_status_stub : returns .readStatus bench = some (.ok (.byte 0)) ∧ appends .readStatus bench = some [] := by decide
theorem test_read_data_stub : returns .readData bench = some (.ok (.byte 0)) ∧ appends .readData bench = some [] := by decide
theorem test_read_status_wired :
    returns .readStatus { bench with par := { benchPar with readMode := .wired } } = none := by decide
/-- V-T13: the lines after `write_command 0x2A`. -/
theorem test_write_command_lines :
    (after (.writeCommand 0x2A) bench).pins.dc = .known .high ∧ (after (.writeCommand 0x2A) bench).pins.wr = .known .high ∧
    (after (.writeCommand 0x2A) bench).pins.d.toList =
      [.known .low, .known .high, .known .low, .known .high, .known .low, .known .high, .known .low, .known .low] := by decide
/-- V-T9: a failure at D3 leaves D3 Unknown and latches nothing. -/
theorem test_write_command_data_line_fails :
    appends (.writeCommand 0x2C) (failsAfter 4 bench) = some [] ∧
    (after (.writeCommand 0x2C) (failsAfter 4 bench)).pins.d[3] = .unknown := by decide

/-! ## Construction and control lines: V-C1 to V-C8 -/

/-- No driver and an empty transcript. -/
def bare : State := { bench with driver := false, trace := [], pins := { bench.pins with cs := .unknown, rst := .unknown } }

theorem test_new : (after (.new .parallel8) bare).trace = [.pin .cs .high, .pin .rst .high] ∧
    (after (.new .parallel8) bare).driver = true ∧ (after (.new .parallel8) bare).cfg = .reset := by decide
theorem test_new_reset_fails : (after (.new .parallel8) (failsAfter 1 bare)).trace = [.pin .cs .high] ∧
    (after (.new .parallel8) (failsAfter 1 bare)).ret = .err .reset ∧
    (after (.new .parallel8) (failsAfter 1 bare)).driver = false := by decide
theorem test_assert_reset : appends .assertReset ready = some [.pin .rst .low] ∧
    (after .assertReset ready).phase = .uninitialized := by decide
theorem test_assert_reset_fails : appends .assertReset (failsAfter 0 ready) = some [] ∧
    (after .assertReset (failsAfter 0 ready)).pins.rst = .unknown ∧
    (after .assertReset (failsAfter 0 ready)).phase = .uninitialized := by decide
theorem test_deassert_reset : appends .deassertReset bench = some [.pin .rst .high] ∧
    (after .deassertReset bench).phase = .uninitialized := by decide
theorem test_enable : appends .enable bench = some [.pin .cs .low] ∧ (after .enable bench).pins.cs = .known .low := by decide
theorem test_enable_fails : (after .enable (failsAfter 0 bench)).pins.cs = .unknown ∧
    (after .enable (failsAfter 0 bench)).ret = .err .cs := by decide
theorem test_disable : appends .disable ready = some [.pin .cs .high] := by decide

/-! ## Bring-up: V-I1 to V-I7 -/

theorem test_init : appends .init bench = some [.pin .cs .high, .pin .rst .low, .delay 2, .pin .rst .high, .delay 200,
    .pin .cs .low, .cmd 0x01, .delay 120, .cmd 0x11, .delay 120, .cmd 0x3A, .dat 0x55, .cmd 0x29, .delay 20] ∧
    (after .init bench).phase = .ready ∧ (after .init bench).cfg.pixelFormat = none := by decide
/-- V-I5: 4 control drives, three commands of 12 drives each, then DC, eight lines and WR Low of the COLMOD parameter. -/
theorem test_init_fails_in_table : (after .init (failsAfter 50 bench)).seq = some 4 ∧
    (after .init (failsAfter 50 bench)).trace.drop 8 = [.cmd 0x01, .delay 120, .cmd 0x11, .delay 120, .cmd 0x3A] ∧
    (after .init (failsAfter 50 bench)).ret = .err (.bus .data) := by decide
theorem test_init_cmd : appends (.initCmd .colmod [0x55]) bench = some [.cmd 0x3A, .dat 0x55] := by decide
theorem test_init_delay : appends (.initDelay 120) bench = some [.delay 120] := by decide

/-! ## Window, pixels and fill: V-W1 to V-P3 -/

theorem test_send_command : appends (.sendCommand .dispon) bench = some [.cmd 0x29] := by decide
theorem test_send_data : appends (.sendData [0x55]) bench = some [.dat 0x55] := by decide
theorem test_set_window : appends (.setWindow 0x1234 0xABCD 0xFFFF 0x0000) bench =
    some ([.cmd 0x2A] ++ dats [0x12, 0x34, 0xFF, 0xFF] ++ [.cmd 0x2B] ++ dats [0xAB, 0xCD, 0x00, 0x00]) := by decide
theorem test_write_pixels : appends (.writePixels [0x0001, 0x0100]) bench =
    some ([.cmd 0x2C] ++ dats [0x00, 0x01, 0x01, 0x00]) := by decide
theorem test_write_pixels_empty : appends (.writePixels []) bench = some [.cmd 0x2C] := by decide
/-- A fill of a one-pixel Configuration (no state a run reaches), so that the stream is short. -/
theorem test_fill : appends (.fill 0x07E0) { bench with cfg := { bench.cfg with width := 1, height := 1 } } =
    some ([.cmd 0x2A] ++ dats [0, 0, 0, 0] ++ [.cmd 0x2B] ++ dats [0, 0, 0, 0] ++ [.cmd 0x2C, .dat 0x07, .dat 0xE0, .cmd 0x00]) := by
  decide
/-- R84: the count of a full screen. -/
theorem test_fill_count : fillCount bench.cfg = 153600 := by decide

/-! ## Configuration: V-K1 to V-K11 -/

theorem test_set_pixel_format : appends (.setPixelFormat .rgb666) bench = some [.cmd 0x3A, .dat 0x66] ∧
    (after (.setPixelFormat .rgb666) bench).cfg.pixelFormat = some .rgb666 := by decide
theorem test_set_pixel_format_fails : appends (.setPixelFormat .rgb666) (failsAfter 22 bench) = some [.cmd 0x3A] ∧
    (after (.setPixelFormat .rgb666) (failsAfter 22 bench)).cfg.pixelFormat = none := by decide
theorem test_set_orientation : appends (.setOrientation .landscape) bench = some [.cmd 0x36, .dat 0x20] ∧
    (after (.setOrientation .landscape) bench).cfg.width = 480 ∧
    (after (.setOrientation .landscape) bench).cfg.height = 320 := by decide
theorem test_set_orientation_fails : appends (.setOrientation .landscapeUpsideDown) (failsAfter 0 bench) = some [] ∧
    (after (.setOrientation .landscapeUpsideDown) (failsAfter 0 bench)).cfg.orientation = .landscapeUpsideDown := by decide
theorem test_set_brightness : appends (.setBrightness 0x80) bench = some [.cmd 0x51, .dat 0x80] := by decide
theorem test_width : returns .width (after (.setOrientation .landscape) bench) = some (.ok (.word 480)) := by decide
theorem test_height : returns .height (after (.setOrientation .landscape) bench) = some (.ok (.word 320)) := by decide
theorem test_orientation : returns .orientation (after (.setOrientation .landscape) bench) =
    some (.ok (.orientation .landscape)) := by decide

/-! ## The adapter: V-A1 to V-A16 -/

theorem test_draw_iter_clips : appends (.drawIter [⟨320, 0, ⟨0⟩⟩, ⟨0, 480, ⟨0⟩⟩, ⟨-1, 0, ⟨0⟩⟩, ⟨0, -1, ⟨0⟩⟩]) bench = some [] := by decide
theorem test_draw_iter_window : (appends (.drawIter [⟨319, 479, ⟨0⟩⟩]) bench).map (·.take 11) =
    some ([.cmd 0x2A] ++ dats [0x01, 0x3F, 0x01, 0x3F] ++ [.cmd 0x2B] ++ dats [0x01, 0xDF, 0x01, 0xDF] ++ [.cmd 0x2C]) := by decide
theorem test_size : returns .size (after (.setOrientation .landscape) bench) = some (.ok (.pair 320 480)) := by decide

/-! ## Wire rows and the panel: V-G1 to V-G3 -/

theorem test_wire_ramwr : appends .ramwr bench = some [.cmd 0x2C] := by decide
theorem test_wire_data : appends (.data 0xAB) bench = some [.dat 0xAB] := by decide
set_option maxRecDepth 8000 in
/-- V-G1: columns first. -/
theorem test_panel_window_order :
    let p := (after (.writePixels [1, 2, 3, 4]) (after (.setWindow 5 5 6 6) ready)).panel.gram
    p.read (Memory.position 5 5) = some 1 ∧ p.read (Memory.position 6 5) = some 2 ∧
    p.read (Memory.position 5 6) = some 3 ∧ p.read (Memory.position 6 6) = some 4 := by decide
set_option maxRecDepth 8000 in
/-- V-G2: the unpaired byte makes its pixel any value when the NOP closes the frame. -/
theorem test_panel_unpaired_byte :
    let p := (after (.sendCommand .nop) (after (.sendData [0xAB, 0xCD, 0xEF]) (after (.writePixels [])
      (after (.setWindow 0 0 1 0) ready)))).panel.gram
    p.read 0 = some 0xABCD ∧ p.read 1 = none := by decide
set_option maxRecDepth 8000 in
/-- V-G3: a deselected panel ignores every cycle. -/
theorem test_panel_deselected :
    (after (.writePixels [0xFFFF]) (after (.setWindow 0 0 0 0) (after .disable ready))).panel = ready.panel := by decide
set_option maxRecDepth 8000 in
/-- V-P4: three words into a two-pixel window, under RAMWR_OVERFLOW = AnyValue. -/
theorem test_panel_overflow :
    (after (.writePixels [1, 2, 3]) (after (.setWindow 0 0 1 0) ready)).panel.gram = [] := by decide

/-! ## The step -/

theorem test_step_waits : step bench = .next bench := by rfl
theorem test_step_runs_wire_row :
    (match step (State.reset.withFetchWord 8 0x2A) with | .next t => t.trace.drop 2 | _ => []) = [.cmd 0x2A] := by decide
theorem test_step_refuses_bad_line :
    (match step { bench with port := [.text "fill"] } with | .refused r => some r | _ => none) =
      some (.badRequest .wrongArguments) := by decide

/-! ## Witnesses: for every statement with hypotheses, a state and operands that meet them together -/

/-- Whether an instruction answers a next state. -/
def answers (i : Instr) (s : State) : Bool :=
  match exec i s with
  | .next _ => true
  | _ => false

theorem answers_after {i : Instr} {s : State} (h : answers i s = true) : exec i s = .next (after i s) := by
  unfold answers at h
  unfold after
  cases he : exec i s <;> rw [he] at h <;> first | rfl | cases h

/-- The machine with one request waiting. -/
def asked (l : String) (s : State) : State := { s with port := [.text l] }

/-- What a step leaves, or the state before it if it stops. -/
def stepped (s : State) : State :=
  match step s with
  | .next t => t
  | _ => s

/-- Whether a step answers a next state. -/
def steps (s : State) : Bool :=
  match step s with
  | .next _ => true
  | _ => false

theorem steps_stepped {s : State} (h : steps s = true) : step s = .next (stepped s) := by
  unfold steps at h
  unfold stepped
  cases he : step s <;> rw [he] at h <;> first | rfl | cases h

theorem witness_step_runs : (asked "enable" bench).port = .text "enable" :: [] ∧
    decodeRequest (asked "enable" bench).par.opcodes (.text "enable") = .ok .enable := ⟨rfl, by decide⟩
theorem witness_step_refuses : (asked "fill" bench).port = .text "fill" :: [] ∧
    decodeRequest (asked "fill" bench).par.opcodes (.text "fill") = .error .wrongArguments := ⟨rfl, by decide⟩
theorem witness_step_waits : bench.port = [] := rfl
theorem witness_injective : OpcodeBytes.datasheet.injective = true := by decide
theorem witness_every_word : OpcodeBytes.datasheet.byte .caset = 0x2A ∧ ∀ op, OpcodeBytes.datasheet.byte op ≠ 0xFF :=
  ⟨rfl, fun op => by cases op <;> decide⟩
theorem witness_configuration : bench.cfg.legal ∧ step (asked "set_orientation Landscape" bench) =
    .next (stepped (asked "set_orientation Landscape" bench)) := ⟨by decide, steps_stepped (by decide)⟩
theorem witness_memory : Memory.wf [(0, 0x1234), (153599, 0xFFFF)] ∧
    step (asked "fill 0" { bench with panel := ⟨bench.panel.regs, [(0, 0x1234), (153599, 0xFFFF)]⟩, draws := [.fails] }) =
      .next (stepped (asked "fill 0" { bench with panel := ⟨bench.panel.regs, [(0, 0x1234), (153599, 0xFFFF)]⟩, draws := [.fails] })) :=
  ⟨by decide, steps_stepped (by decide)⟩
theorem witness_ready_sound : ready.readySound ∧ ready.phase = .ready ∧
    step (asked "deassert_reset" ready) = .next (stepped (asked "deassert_reset" ready)) :=
  ⟨by decide, rfl, steps_stepped (by decide)⟩
theorem witness_lines_follow : bench.linesFollow ∧ step (asked "disable" bench) = .next (stepped (asked "disable" bench)) :=
  ⟨⟨fun l h => by cases h; decide, fun l h => by cases h; decide⟩, steps_stepped (by decide)⟩
/-- The last entry of the table is its seventh. -/
theorem witness_cursor : ({ bench with seq := some 6 } : State).cursorSound ∧
    step (asked "enable" { bench with seq := some 6 }) = .next (stepped (asked "enable" { bench with seq := some 6 })) :=
  ⟨fun i h => by cases h; decide, steps_stepped (by decide)⟩
theorem witness_grows : step (asked "enable" bench) = .next (stepped (asked "enable" bench)) := steps_stepped (by decide)
/-- A success and a failure: the two ways an operation answers. -/
theorem witness_answers : exec .enable bench = .next (after .enable bench) ∧ (after .enable bench).ret.isOk = true ∧
    exec .enable (failsAfter 0 bench) = .next (after .enable (failsAfter 0 bench)) ∧
    (after .enable (failsAfter 0 bench)).ret = .err .cs := ⟨answers_after (by decide), by decide, answers_after (by decide), by decide⟩
theorem witness_completes : ({ bench with draws := [.succeeds] } : State).pinsHold ∧ bench.driver = true ∧
    bench.par.readMode = .stub := by decide
/-- Errors of the four kinds, each with the line of its failing drive: CS, RST, DC, a data line, and DC at the restore. -/
theorem witness_errors : (after .enable (failsAfter 0 bench)).ret = .err .cs ∧
    (after .deassertReset (failsAfter 0 bench)).ret = .err .reset ∧
    (after (.writeCommand 0) (failsAfter 0 bench)).ret = .err (.bus .command) ∧
    (after (.writeData [0]) (failsAfter 1 bench)).ret = .err (.bus .data) ∧
    (after (.writeData [0]) (failsAfter 1 bench)).pins.level? (.d 0) = some .unknown ∧
    (after (.writeCommand 0) (failsAfter 11 bench)).ret = .err (.bus .command) ∧
    (after (.writeCommand 0) (failsAfter 11 bench)).pins.level? .dc = some .unknown := by decide
/-- The acts of a command cycle on the parallel transport: DC, the eight data lines, WR twice, the latch at the second, DC
(R110, R112). -/
theorem witness_acts_of : actsOf .parallel8 benchPar bench.cfg (.writeCommand 0x2C) =
    ([.dc, .d 0, .d 1, .d 2, .d 3, .d 4, .d 5, .d 6, .d 7, .wr].map fun p => .drive (some p) (.bus .command) none) ++
      [.drive (some .wr) (.bus .command) (some (.cmd 0x2C)), .drive (some .dc) (.bus .command) none] := by decide
/-- A command cycle's drive that fails: the last before the latch's success, the restore of DC, one after; on the serial
transport the only one, and one after. -/
theorem witness_command_fails : (failsAfter 10 bench).transport = .parallel8 ∧
    (failsAfter 10 bench).draws = List.replicate 10 .succeeds ++ .fails :: [] ∧
    (failsAfter 11 bench).draws = List.replicate 11 .succeeds ++ .fails :: [] ∧
    (failsAfter 12 bench).draws = List.replicate 12 .succeeds ++ .fails :: [] ∧
    (failsAfter 0 { bench with transport := .serial }).transport = .serial ∧
    (failsAfter 0 { bench with transport := .serial }).draws = List.replicate 0 .succeeds ++ .fails :: [] ∧
    (failsAfter 1 { bench with transport := .serial }).draws = List.replicate 1 .succeeds ++ .fails :: [] := by decide
/-- An error after a write of the Configuration. -/
theorem witness_error_after_orientation :
    exec (.setOrientation .landscape) (failsAfter 0 ready) = .next (after (.setOrientation .landscape) (failsAfter 0 ready)) ∧
    (after (.setOrientation .landscape) (failsAfter 0 ready)).ret = .err (.bus .command) := ⟨answers_after (by decide), by decide⟩
theorem witness_transports : (∀ k, Instr.init ≠ .new k) ∧ bench.pinsHold ∧ bench.driver = true ∧ bench.par.readMode = .stub :=
  ⟨nofun, by decide, rfl, rfl⟩
theorem witness_no_delay : exec (.sendCommand .nop) bench = .next (after (.sendCommand .nop) bench) ∧
    Instr.sendCommand .nop ≠ .init ∧ ∀ ms, Instr.sendCommand .nop ≠ .initDelay ms := ⟨answers_after (by decide), nofun, nofun⟩
theorem witness_command_lines : exec (.writeCommand 0x2A) bench = .next (after (.writeCommand 0x2A) bench) ∧
    (after (.writeCommand 0x2A) bench).ret = .ok .unit ∧ bench.transport = .parallel8 := ⟨answers_after (by decide), by decide, rfl⟩
theorem witness_data_lines : exec (.writeData ([0x00] ++ [0xFF])) bench = .next (after (.writeData ([0x00] ++ [0xFF])) bench) ∧
    (after (.writeData ([0x00] ++ [0xFF])) bench).ret = .ok .unit ∧ bench.transport = .parallel8 :=
  ⟨answers_after (by decide), by decide, rfl⟩
theorem witness_read_modes : bench.par.readMode = .stub ∧
    ({ bench with par := { benchPar with readMode := .wired } } : State).par.readMode = .wired := ⟨rfl, rfl⟩
theorem witness_transport_operation : exec (.writeData16be [0xABCD]) bench = .next (after (.writeData16be [0xABCD]) bench) :=
  answers_after (by decide)
theorem witness_drives : bench.transport = .parallel8 ∧
    exec (.writeCommand 0) (failsAfter 12 bench) = .next (after (.writeCommand 0) (failsAfter 12 bench)) ∧
    (after (.writeCommand 0) (failsAfter 12 bench)).ret = .ok .unit ∧
    exec (.writeData [0]) (failsAfter 11 bench) = .next (after (.writeData [0]) (failsAfter 11 bench)) ∧
    (after (.writeData [0]) (failsAfter 11 bench)).ret = .ok .unit ∧
    exec (.writeData []) bench = .next (after (.writeData []) bench) ∧ (after (.writeData []) bench).ret = .ok .unit :=
  ⟨rfl, answers_after (by decide), by decide, answers_after (by decide), by decide, answers_after (by decide), by decide⟩
theorem witness_new : bench.pinsHold ∧ (failsAfter 0 bare).draws = .fails :: [] ∧
    (failsAfter 1 bare).draws = .succeeds :: .fails :: [] := ⟨by decide, rfl, rfl⟩
theorem witness_control : bench.driver = true ∧ bench.nextDraw = .succeeds ∧ (failsAfter 0 bench).nextDraw = .fails := by decide
theorem witness_init_fails_before_table : exec .init (failsAfter 3 bench) = .next (after .init (failsAfter 3 bench)) ∧
    (after .init (failsAfter 3 bench)).ret.isOk = false ∧ (after .init (failsAfter 3 bench)).seq = none :=
  ⟨answers_after (by decide), by decide, by decide⟩
theorem witness_init_fails_on_entry : exec .init (failsAfter 4 bench) = .next (after .init (failsAfter 4 bench)) ∧
    (after .init (failsAfter 4 bench)).ret.isOk = false ∧ (after .init (failsAfter 4 bench)).seq = some 0 :=
  ⟨answers_after (by decide), by decide, by decide⟩
/-- The delays at their lower bounds. -/
theorem witness_init_holds : bench.driver = true ∧ bench.par.resetPulseMs = 2 ∧ bench.par.resetSettleMs = 200 ∧
    bench.par.delaysLegal = true ∧ exec .init bench = .next (after .init bench) ∧ (after .init bench).ret = .ok .unit :=
  ⟨rfl, rfl, rfl, by decide, answers_after (by decide), by decide⟩
/-- Both orientation classes. -/
theorem witness_fill : bench.cfg.legal ∧ (bench.cfg.oriented .landscape).legal ∧ bench.driver = true ∧ bench.pinsHold := by decide
/-- The last pair in bounds and the first ones out of bounds. -/
theorem witness_bounds : inBounds benchPar bench.cfg ⟨319, 479, ⟨0⟩⟩ = true ∧ inBounds benchPar bench.cfg ⟨0, 0, ⟨0⟩⟩ = true ∧
    inBounds benchPar bench.cfg ⟨320, 479, ⟨0⟩⟩ = false ∧ inBounds benchPar bench.cfg ⟨0, -1, ⟨0⟩⟩ = false := by decide
/-- The four maps at a corner of their logical spaces, and a byte with none. -/
theorem witness_maps : physical benchPar 0x40 319 479 = some 153599 ∧ physical benchPar 0x90 0 0 = some 0 ∧
    physical benchPar 0x20 479 319 = some 153599 ∧ physical benchPar 0xF4 0 319 = some 153120 ∧
    physical benchPar 0x00 0 0 = none := by decide
/-- Deselected; in reset; selected outside Ready, with a cycle to send and with none. -/
theorem witness_deselected : bench.pinsHold ∧ bench.driver = true ∧ bench.par.readMode = .stub ∧
    drivesControl (.fill 0) = false ∧ bench.pins.cs = .known .high ∧
    (after .assertReset bench).pinsHold ∧ (after .assertReset bench).driver = true ∧
    (after .assertReset bench).par.readMode = .stub ∧ (after .assertReset bench).pins.rst = .known .low := by decide
theorem witness_untracked : (after .enable bench).pinsHold ∧ (after .enable bench).driver = true ∧
    (after .enable bench).par.readMode = .stub ∧ drivesControl .nop = false ∧ (after .enable bench).phase ≠ .ready ∧
    (after .enable bench).pins.cs = .known .low ∧ (after .enable bench).pins.rst = .known .high ∧
    busCycles benchPar bench.cfg .nop ≠ [] ∧ busCycles benchPar bench.cfg .width = [] ∧ drivesControl .width = false := by decide
theorem witness_listening : ready.pinsHold ∧ ready.driver = true ∧ ready.listening ∧ ready.par.opcodes.injective = true ∧
    ready.panel.settled ready.par := by decide

/-- A panel with the frame of a command byte open and some of its bytes received. -/
def framed (op : Byte) (bytes : List Byte) : State :=
  { ready with panel := ⟨{ ready.panel.regs with frameOp := op, frameCount := bytes.length, params := bytes }, []⟩ }

/-- Frames that DATA finds: the third and the fourth byte of a window frame and one beyond; the first byte of a setting and one
beyond; a frame the interpretation does not model; a byte that is no member's. -/
theorem witness_frames : (framed 0x2A [0, 1]).pinsHold ∧ (framed 0x2A [0, 1]).listening ∧
    benchPar.opcodes.opcode? (framed 0x2A [0, 1]).panel.regs.frameOp = some .caset ∧
    (framed 0x2A [0, 1]).panel.regs.frameCount < 3 ∧ (framed 0x2A [0, 1, 2]).panel.regs.frameCount = 3 ∧
    (framed 0x2A [0, 1, 2]).panel.regs.params = [0, 1, 2] ∧ 3 < (framed 0x2A [0, 1, 2, 3]).panel.regs.frameCount ∧
    benchPar.opcodes.opcode? 0x2B = some .paset ∧ benchPar.opcodes.opcode? 0x36 = some .madctl ∧
    benchPar.opcodes.opcode? 0x3A = some .colmod ∧ (framed 0x36 []).panel.regs.frameCount = 0 ∧
    (framed 0x36 [0x40]).panel.regs.frameCount ≠ 0 ∧ benchPar.opcodes.opcode? 0x51 = some .wrdisbv ∧
    benchPar.opcodes.opcode? 0x00 = some .nop ∧ benchPar.opcodes.opcode? 0xE2 = some .dgamctrl ∧
    Opcode.dgamctrl ∈ unmodelledOpcodes ∧ benchPar.opcodes.opcode? 0xFF = none := by decide

/-- A memory-write frame with the pointer in the window's column `c`, and one byte waiting. -/
def streaming (c : Nat) : State :=
  { ready with panel := ⟨{ ready.panel.regs with sc := 4, ec := 5, sp := 7, ep := 8, frameOp := 0x2C, pc := c, pr := 7, pairHi := some 0xAB }, []⟩ }

/-- Inside the row and at its end. -/
theorem witness_data_byte : (streaming 4).pinsHold ∧ (streaming 4).listening ∧
    (streaming 4).par.opcodes.opcode? (streaming 4).panel.regs.frameOp = some .ramwr ∧ (streaming 4).panel.regs.colmod = 0x55 ∧
    (streaming 4).panel.regs.pairHi = some 0xAB ∧ placement (streaming 4).par (streaming 4).panel.regs = .cell 2244 ∧
    placement (streaming 5).par (streaming 5).panel.regs = .cell 2245 ∧ ¬ (5 < (streaming 5).panel.regs.ec.toNat) := by decide
/-- A pixel whose second byte is awaited, where the operations that store no pixel find it. -/
theorem witness_awaits : (streaming 4).pinsHold ∧ (streaming 4).driver = true ∧ (streaming 4).listening ∧
    (streaming 4).par.opcodes.injective = true ∧ (streaming 4).panel.awaits (streaming 4).par 2244 ∧
    ¬ (streaming 4).panel.settled (streaming 4).par := by decide
/-- The corners: another format, a first byte, bounds out of order, a pointer beyond the window under each overflow mode. -/
theorem witness_corners : (streaming 6).pinsHold ∧ (streaming 6).listening ∧
    (streaming 6).par.opcodes.opcode? (streaming 6).panel.regs.frameOp = some .ramwr ∧
    ({ (streaming 6).panel.regs with colmod := 0x66 } : PanelRegs).colmod ≠ 0x55 ∧
    ({ (streaming 6).panel.regs with pairHi := none } : PanelRegs).pairHi = none ∧
    placement benchPar { (streaming 6).panel.regs with sc := 6 } = .undetermined ∧
    placement benchPar (streaming 6).panel.regs = .beyond ∧
    placement { benchPar with overflow := .wrap } (streaming 6).panel.regs = .beyond ∧
    placement { benchPar with overflow := .ignore } (streaming 6).panel.regs = .beyond ∧
    physical benchPar 0x40 4 7 = some 2244 := by decide
theorem witness_unmodelled : Opcode.swreset ∈ unmodelledOpcodes ∧ Opcode.dgamctrl ∈ unmodelledOpcodes := by decide
/-- As many words as the window of one pixel and of 2 by 2 pixels has. -/
theorem witness_write_pixels : ready.listening ∧ ready.panel.settled ready.par ∧ ready.panel.regs.colmod = 0x55 ∧
    windowLegal { ready.panel.regs with ec := 0, ep := 0 } = true ∧ ([1] : List U16).length ≤ (0 - 0 + 1) * (0 - 0 + 1) ∧
    windowLegal { ready.panel.regs with sc := 4, ec := 5, sp := 478, ep := 479 } = true ∧
    ([1, 2, 3, 4] : List U16).length ≤ (5 - 4 + 1) * (479 - 478 + 1) := by decide
theorem witness_fill_paints : ready.pinsHold ∧ ready.driver = true ∧ ready.listening ∧ ready.par.opcodes.injective = true ∧
    ready.cfg.legal ∧ ready.panelAgrees ∧ ready.par.clipBounds = .logical ∧ ready.panel.settled ready.par := by decide

end Sys2Proof.Tests
end

namespace Sys2Proof.Machine

/-! ## The shape of an instruction

Every arm of `exec` runs one fallible step over the state and concludes with its result. Naming that step and that conclusion
splits the 52 arms once: what holds of every instruction is then proved of `body` and of `conclude`. -/

/-- The fallible step an instruction runs, before its result is returned. -/
def body (i : Instr) (s : State) : Res :=
  match i with
  | .nop => sendCommand .nop s
  | .swreset => sendCommand .swreset s
  | .slpin => sendCommand .slpin s
  | .slpout => sendCommand .slpout s
  | .invoff => sendCommand .invoff s
  | .invon => sendCommand .invon s
  | .invctr => sendCommand .invctr s
  | .dispoff => sendCommand .dispoff s
  | .dispon => sendCommand .dispon s
  | .caset => sendCommand .caset s
  | .paset => sendCommand .paset s
  | .ramwr => sendCommand .ramwr s
  | .ramrd => sendCommand .ramrd s
  | .madctl => sendCommand .madctl s
  | .idmoff => sendCommand .idmoff s
  | .idmon => sendCommand .idmon s
  | .colmod => sendCommand .colmod s
  | .wrdisbv => sendCommand .wrdisbv s
  | .pwctrl1 => sendCommand .pwctrl1 s
  | .pwctrl2 => sendCommand .pwctrl2 s
  | .pwctrl3 => sendCommand .pwctrl3 s
  | .vmctrl1 => sendCommand .vmctrl1 s
  | .pgamctrl => sendCommand .pgamctrl s
  | .ngamctrl => sendCommand .ngamctrl s
  | .dgamctrl => sendCommand .dgamctrl s
  | .data b => writeData [b] s
  | .writeCommand op => writeCommand op s
  | .writeData bytes => writeData bytes s
  | .writeData16be words => writeWords words s
  | .new _ => (driveCs .high s).bind (driveRst .high)
  | .assertReset => driveRst .low s
  | .deassertReset => driveRst .high s
  | .enable => driveCs .low s
  | .disable => driveCs .high s
  | .init => bringUp s
  | .sendCommand op => sendCommand op s
  | .sendData bytes => writeData bytes s
  | .setWindow x0 y0 x1 y1 => setWindow x0 y0 x1 y1 s
  | .writePixels words => writePixels words s
  | .fill color => fillScreen color s
  | .setPixelFormat format => setPixelFormat format s
  | .setOrientation orientation => setOrientation orientation s
  | .setBrightness level => sendFrame .wrdisbv [level] s
  | .drawIter pixels => forEach drawPixel pixels s
  | .initCmd op params => runEntry (.cmd op params) s
  | .initDelay ms => runEntry (.delay ms) s
  | .readStatus => .ok s
  | .readData => .ok s
  | .width => .ok s
  | .height => .ok s
  | .orientation => .ok s
  | .size => .ok s

/-- The state in which an instruction leaves the machine when its step ended in `r`; `c` is the Configuration it began with. -/
def conclude (i : Instr) (c : Configuration) (r : Res) : State :=
  match r with
  | .ok u =>
    match i with
    | .new k => constructed k u
    | _ => { u with ret := .ok (gives c i) }
  | .err e u =>
    match i with
    | .new _ => { u.raise e with driver := false }
    | _ => u.raise e

/-- A success of every instruction but `new` only returns its value. -/
theorem conclude_ok {i : Instr} (hnew : ∀ k, i ≠ .new k) (c : Configuration) (u : State) :
    conclude i c (.ok u) = { u with ret := .ok (gives c i) } := by
  cases i with
  | new k => exact absurd rfl (hnew k)
  | _ => rfl

/-- A failure of every instruction but `new` only raises its error. -/
theorem conclude_err {i : Instr} (hnew : ∀ k, i ≠ .new k) (c : Configuration) (e : Error) (u : State) :
    conclude i c (.err e u) = u.raise e := by
  cases i with
  | new k => exact absurd rfl (hnew k)
  | _ => rfl

theorem conclude_ok_ret (i : Instr) (c : Configuration) (u : State) : (conclude i c (.ok u)).ret = .ok (gives c i) := by
  cases i <;> rfl

/-- `finish` is the conclusion of every instruction but `new`. -/
theorem finish_eq_conclude {i : Instr} (hnew : ∀ k, i ≠ .new k) (c : Configuration) (r : Res) :
    finish (gives c i) r = .next (conclude i c r) := by
  cases r with
  | ok u => rw [conclude_ok hnew]; rfl
  | err e u => rw [conclude_err hnew]; rfl

theorem execNew_eq_conclude (k : Transport) (s : State) : execNew k s = .next (conclude (.new k) s.cfg (body (.new k) s)) := by
  unfold execNew body
  cases (driveCs .high s).bind (driveRst .high) <;> rfl

/-- An operation that needs a driver runs, or faults because there is none. -/
theorem onDriver_cases (s : State) (r : Host.Outcome State Fault Refusal) :
    onDriver s r = r ∨ s.driver = false ∧ onDriver s r = .fault .noDriver := by
  unfold onDriver
  cases s.driver
  · exact .inr ⟨rfl, rfl⟩
  · exact .inl rfl

/-- A read answers 0, or is refused because the read path is wired (R104 to R106). -/
theorem readStub_cases (s : State) :
    readStub s = finish (.byte 0) (.ok s) ∨ s.par.readMode = .wired ∧ readStub s = .refused .readPathWired := by
  unfold readStub
  cases s.par.readMode
  · exact .inl rfl
  · exact .inr ⟨rfl, rfl⟩

/-- Everything an instruction can do: run its step and conclude, fault where it needs a driver and none exists, or be refused as a read
of a wired read path. -/
theorem exec_cases (i : Instr) (s : State) :
    exec i s = .next (conclude i s.cfg (body i s)) ∨
    (callsDriver i = true ∧ s.driver = false ∧ exec i s = .fault .noDriver) ∨
    ((i = .readStatus ∨ i = .readData) ∧ s.par.readMode = .wired ∧ exec i s = .refused .readPathWired) := by
  have hfinish : (∀ k, i ≠ .new k) → finish (gives s.cfg i) (body i s) = .next (conclude i s.cfg (body i s)) :=
    fun hnew => finish_eq_conclude hnew _ _
  cases i with
  | new k => exact .inl (execNew_eq_conclude k s)
  | readStatus =>
    rw [← hfinish nofun]
    exact (readStub_cases s).imp id fun h => .inr ⟨.inl rfl, h⟩
  | readData =>
    rw [← hfinish nofun]
    exact (readStub_cases s).imp id fun h => .inr ⟨.inr rfl, h⟩
  | assertReset | deassertReset | enable | disable | init | sendCommand | sendData | setWindow | writePixels | fill
  | setPixelFormat | setOrientation | setBrightness | width | height | orientation | drawIter | size =>
    rw [← hfinish nofun]
    exact (onDriver_cases s _).imp id fun h => .inl ⟨rfl, h⟩
  | _ => exact .inl (hfinish nofun)

/-- With a driver where one is needed, and no wired read, an instruction runs its step and concludes. -/
theorem exec_eq_conclude {i : Instr} {s : State} (hdriver : callsDriver i = true → s.driver = true)
    (hread : i = .readStatus ∨ i = .readData → s.par.readMode = .stub) :
    exec i s = .next (conclude i s.cfg (body i s)) := by
  rcases exec_cases i s with h | ⟨hc, hd, _⟩ | ⟨hi, hw, _⟩
  · exact h
  · rw [hdriver hc] at hd; cases hd
  · rw [hread hi] at hw; cases hw

/-- A next state of an instruction is the conclusion of its step. -/
theorem eq_conclude_of_exec {i : Instr} {s t : State} (h : exec i s = .next t) : t = conclude i s.cfg (body i s) := by
  rcases exec_cases i s with k | ⟨_, _, k⟩ | ⟨_, _, k⟩ <;> rw [k] at h <;> cases h
  rfl

/-- A step waits with nothing asked for, or runs an instruction with its request taken. -/
theorem step_cases {s t : State} (h : step s = .next t) : t = s ∨ ∃ i, exec i s.taken = .next t := by
  unfold step at h
  split at h
  · cases h; exact .inl rfl
  · split at h
    · exact .inr ⟨_, h⟩
    · cases h

/-! ## What the step of an instruction does -/

/-- With pins that hold, the step of every instruction succeeds. -/
theorem body_fine (i : Instr) (s : State) : (body i s).fine s := by
  cases i with
  | data b => exact writeData_fine [b] s
  | writeCommand op => exact writeCommand_fine op s
  | writeData bytes => exact writeData_fine bytes s
  | writeData16be words => exact writeWords_fine words s
  | new k => exact Res.fine_bind (driveCs_fine _ s) fun t => driveRst_fine _ t
  | assertReset => exact driveRst_fine _ s
  | deassertReset => exact driveRst_fine _ s
  | enable => exact driveCs_fine _ s
  | disable => exact driveCs_fine _ s
  | init => exact bringUp_fine s
  | sendCommand op => exact sendCommand_fine op s
  | sendData bytes => exact writeData_fine bytes s
  | setWindow x0 y0 x1 y1 => exact setWindow_fine x0 y0 x1 y1 s
  | writePixels words => exact writePixels_fine words s
  | fill color => exact fillScreen_fine color s
  | setPixelFormat f => exact Res.fine_bind (sendFrame_fine _ _ s) fun t => Res.fine_ok t _ rfl
  | setOrientation o => exact sendFrame_fine _ _ { s with cfg := s.cfg.oriented o }
  | setBrightness level => exact sendFrame_fine _ _ s
  | drawIter pixels => exact drawPixels_fine pixels s
  | initCmd op params => exact runEntry_fine (.cmd op params) s
  | initDelay ms => exact runEntry_fine (.delay ms) s
  | readStatus | readData | width | height | orientation | size => exact Res.fine_ok s s rfl
  | _ => exact sendCommand_fine _ s

/-- The step sends the cycles `l` from `done`, or fails after some of them, which it sent from `failed`: the state before with
what the operation writes on success, and with what it writes first. -/
def Res.transfersTo (l : List Cycle) (done failed : State) : Res → Prop
  | .ok t => Sent l done t
  | .err e t => ∃ k, failsAt e k l ∧ Sent k failed t

/-- A step that writes nothing of its own. -/
theorem Res.transfers.to {l : List Cycle} {s : State} {r : Res} (h : r.transfers l s) : r.transfersTo l s s := by
  cases r <;> exact h

/-- The Configuration plays no part in sending. -/
theorem Sent.withCfg {l : List Cycle} {s t : State} (h : Sent l s t) {c d : Configuration} (hcd : d = c) :
    Sent l { s with cfg := c } { t with cfg := d } where
  driver := h.driver
  transport := h.transport
  cfg := hcd
  cs := h.cs
  rst := h.rst
  seq := h.seq
  phase := h.phase
  ret := h.ret
  par := h.par
  port := h.port
  trace := h.trace
  panel := h.panel.trans (heard_congr l { s with cfg := c } s rfl rfl rfl rfl rfl rfl)
  free := h.free
  draws := h.draws

theorem setPixelFormat_transfersTo (f : PixelFormat) (s : State) :
    (setPixelFormat f s).transfersTo (frameCycles s.par.opcodes .colmod [fmtByte f])
      { s with cfg := { s.cfg with pixelFormat := some f } } s := by
  have h := sendFrame_transfers .colmod [fmtByte f] s
  unfold setPixelFormat
  cases hr : sendFrame .colmod [fmtByte f] s with
  | ok t => rw [hr] at h; exact h.withCfg (by rw [h.cfg])
  | err e t => rw [hr] at h; exact h

/-- Every instruction that drives neither control line and asks for no delay only sends its cycles and writes the
Configuration. -/
theorem body_transfersTo {i : Instr} (s : State) (hcontrol : drivesControl i = false) (hdelay : ∀ ms, i ≠ .initDelay ms) :
    (body i s).transfersTo (busCycles s.par s.cfg i) { s with cfg := configurationAfter s.cfg true i }
      { s with cfg := configurationAfter s.cfg false i } := by
  cases i with
  | new | assertReset | deassertReset | enable | disable | init => cases hcontrol
  | initDelay ms => exact absurd rfl (hdelay ms)
  | data b => exact (writeData_transfers [b] s).to
  | writeCommand op => exact (writeCommand_transfers op s).to
  | writeData bytes => exact (writeData_transfers bytes s).to
  | writeData16be words => exact (writeWords_transfers words s).to
  | sendCommand op => exact (sendCommand_transfers op s).to
  | sendData bytes => exact (writeData_transfers bytes s).to
  | setWindow x0 y0 x1 y1 => exact (setWindow_transfers x0 y0 x1 y1 s).to
  | writePixels words => exact (writePixels_transfers words s).to
  | fill color => exact (fillScreen_transfers color s).to
  | setPixelFormat f => exact setPixelFormat_transfersTo f s
  | setOrientation o => exact (sendFrame_transfers _ _ { s with cfg := s.cfg.oriented o }).to
  | setBrightness level => exact (sendFrame_transfers _ _ s).to
  | drawIter pixels => exact (drawPixels_transfers pixels s).to
  | initCmd op params => exact (sendFrame_transfers op params s).to
  | readStatus | readData | width | height | orientation | size => exact Sent.refl s
  | _ => exact (sendCommand_transfers _ s).to

/-- The events of an instruction that drives neither control line and asks for no delay are those of its cycles. -/
theorem emits_eq_cycles {i : Instr} (P : Params) (c : Configuration) (hcontrol : drivesControl i = false)
    (hdelay : ∀ ms, i ≠ .initDelay ms) : emits P c i = (busCycles P c i).map Cycle.event := by
  cases i with
  | new | assertReset | deassertReset | enable | disable | init => cases hcontrol
  | initDelay ms => exact absurd rfl (hdelay ms)
  | _ => rfl

/-- The two drives of `new` (R130). -/
theorem body_new_runs (k : Transport) (s : State) : (body (.new k) s).runs (emits s.par s.cfg (.new k)) s :=
  Res.runs_bind (a := [.pin .cs .high]) (driveCs_runs _ s) fun t _ => driveRst_runs _ t

/-- The step of every instruction but `new`, when it succeeds, has appended the instruction's events and written its
Configuration. -/
theorem body_ran {i : Instr} {s t : State} (hnew : ∀ k, i ≠ .new k) (h : body i s = .ok t) :
    Ran (emits s.par s.cfg i) { s with cfg := configurationAfter s.cfg true i } t := by
  have hbus (hcontrol : drivesControl i = false) (hdelay : ∀ ms, i ≠ .initDelay ms) :
      Ran (emits s.par s.cfg i) { s with cfg := configurationAfter s.cfg true i } t := by
    have hsent := body_transfersTo s hcontrol hdelay
    rw [h] at hsent
    rw [emits_eq_cycles _ _ hcontrol hdelay]
    exact Sent.ran hsent
  cases i with
  | new k => exact absurd rfl (hnew k)
  | assertReset => exact Res.ran_of_ok (driveRst_runs _ s) h
  | deassertReset => exact Res.ran_of_ok (driveRst_runs _ s) h
  | enable => exact Res.ran_of_ok (driveCs_runs _ s) h
  | disable => exact Res.ran_of_ok (driveCs_runs _ s) h
  | init => exact Res.ran_of_ok (bringUp_runs s) h
  | initDelay ms => exact Res.ran_of_ok (runEntry_runs (.delay ms) s) h
  | _ => exact hbus rfl nofun

/-- Settles O15: with pins that hold the step of every instruction succeeds (`body_fine`), and what it leaves is told by
`body_ran`, for `new` by its two drives. -/
theorem everyInstructionCompletes : Obligations.EveryInstructionCompletes := by
  intro i s hpins hdriver hmode
  obtain ⟨u, hu, _⟩ := body_fine i s hpins
  have hexec := exec_eq_conclude (i := i) (fun _ => hdriver) (fun _ => hmode)
  rw [hu] at hexec
  refine ⟨_, hexec, conclude_ok_ret i _ u, ?_⟩
  by_cases hnew : ∀ k, i ≠ .new k
  · have hran := body_ran hnew hu
    rw [conclude_ok hnew]
    exact ⟨hran.trace, hran.cfg, hran.driver.trans hdriver, hran.port⟩
  · obtain ⟨k, rfl⟩ : ∃ k, i = .new k := by simpa using hnew
    have hran := Res.ran_of_ok (body_new_runs k s) hu
    exact ⟨hran.trace, rfl, rfl, hran.port⟩

/-! ## Invariants of every step -/

/-- What a property of the state has to survive to be kept by every step: cycles on the bus, the drives of the two control
lines, delays, and the writes that operations make beside these. -/
structure KeptByParts (I : State → Prop) : Prop where
  sent : ∀ {l s t}, Sent l s t → I s → I t
  driveCs : ∀ l {s}, I s → I (driveCs l s).state
  driveRst : ∀ l {s}, I s → I (driveRst l s).state
  delayMs : ∀ ms {s}, I s → I (s.delayMs ms)
  configured : ∀ i ok {s}, I s → I { s with cfg := configurationAfter s.cfg ok i }
  cursor : ∀ q {s}, I s → I { s with seq := q }
  ready : ∀ {s}, I s → I { s with phase := .ready }
  uninitialized : ∀ {s}, I s → I s.uninitialize
  returned : ∀ r {s}, I s → I { s with ret := r }
  constructed : ∀ k {s}, I s → I (constructed k s)
  driverLost : ∀ {s}, I s → I { s with driver := false }
  taken : ∀ {s}, I s → I s.taken

/-- What two steps keep, they keep one after the other. -/
theorem Res.bind_state {I : State → Prop} {r : Res} {f : State → Res} (hr : I r.state) (hf : ∀ t, I t → I (f t).state) :
    I (r.bind f).state := by
  cases r with
  | ok t => exact hf t hr
  | err e t => exact hr

/-- What a step for each element keeps, they all keep, whether one fails or not. -/
theorem forEach_state {α : Type} {I : State → Prop} {f : α → State → Res} (hf : ∀ a t, I t → I (f a t).state) (l : List α) :
    ∀ s, I s → I (forEach f l s).state := by
  induction l with
  | nil => intro s hs; exact hs
  | cons a rest ih => intro s hs; exact Res.bind_state (hf a s hs) ih

section
variable {I : State → Prop} (hI : KeptByParts I)
include hI

theorem KeptByParts.transfersTo {l : List Cycle} {done failed : State} {r : Res} (h : r.transfersTo l done failed)
    (hdone : I done) (hfailed : I failed) : I r.state := by
  cases r with
  | ok t => exact hI.sent h hdone
  | err e t =>
    obtain ⟨k, _, h⟩ := h
    exact hI.sent h hfailed

theorem KeptByParts.runEntry (e : InitEntry) {s : State} (hs : I s) : I (runEntry e s).state := by
  cases e with
  | cmd op params => exact hI.transfersTo (sendFrame_transfers op params s).to hs hs
  | delay ms => exact hI.delayMs ms hs

theorem KeptByParts.sequence (e : InitEntry) (s : State) (hs : I s) : I (sequence e s).state :=
  Res.bind_state (hI.runEntry e hs) fun _ ht => hI.cursor _ ht

theorem KeptByParts.resetPulse {s : State} (hs : I s) : I (resetPulse s).state :=
  Res.bind_state (hI.driveCs _ hs) fun _ ht => Res.bind_state (hI.driveRst _ ht) fun _ hu =>
    Res.bind_state (hI.driveRst _ (hI.delayMs _ hu)) fun _ hv => hI.driveCs _ (hI.delayMs _ hv)

theorem KeptByParts.runTable {s : State} (hs : I s) : I (runTable s).state :=
  Res.bind_state (forEach_state hI.sequence _ _ (hI.cursor _ hs)) fun _ ht => hI.ready (hI.cursor none ht)

theorem KeptByParts.bringUp {s : State} (hs : I s) : I (bringUp s).state :=
  Res.bind_state (hI.resetPulse (hI.cursor none (hI.uninitialized hs))) fun _ => hI.runTable

theorem KeptByParts.body (i : Instr) {s : State} (hs : I s) : I (body i s).state := by
  have hbus (hcontrol : drivesControl i = false) (hdelay : ∀ ms, i ≠ .initDelay ms) : I (Machine.body i s).state :=
    hI.transfersTo (body_transfersTo s hcontrol hdelay) (hI.configured i true hs) (hI.configured i false hs)
  cases i with
  | new k => exact Res.bind_state (hI.driveCs _ hs) fun _ => hI.driveRst _
  | assertReset => exact hI.driveRst _ hs
  | deassertReset => exact hI.driveRst _ hs
  | enable => exact hI.driveCs _ hs
  | disable => exact hI.driveCs _ hs
  | init => exact hI.bringUp hs
  | initDelay ms => exact hI.delayMs ms hs
  | _ => exact hbus rfl nofun

theorem KeptByParts.conclude (i : Instr) (c : Configuration) {r : Res} (hr : I r.state) : I (conclude i c r) := by
  by_cases hnew : ∀ k, i ≠ .new k
  · cases r with
    | ok u => rw [conclude_ok hnew]; exact hI.returned _ hr
    | err e u => rw [conclude_err hnew]; exact hI.returned _ (hI.uninitialized hr)
  · obtain ⟨k, rfl⟩ : ∃ k, i = .new k := by simpa using hnew
    cases r with
    | ok u => exact hI.constructed k hr
    | err e u => exact hI.driverLost (hI.returned _ (hI.uninitialized hr))

/-- A property that the parts of the operations keep is kept by every step. -/
theorem KeptByParts.step {s t : State} (hs : I s) (h : step s = .next t) : I t := by
  rcases step_cases h with rfl | ⟨i, hi⟩
  · exact hs
  · rw [eq_conclude_of_exec hi]
    exact hI.conclude i _ (hI.body i (hI.taken hs))

end

/-! ## The parameters -/

/-- No part of an operation writes a parameter. -/
theorem keptByParts_par (P : Params) : KeptByParts fun s => s.par = P where
  sent h hs := h.par.trans hs
  driveCs l s hs := by rcases drive_cases .cs l .cs s with h | h <;> rw [driveCs, h] <;> exact hs
  driveRst l s hs := by rcases drive_cases .rst l .reset s with h | h <;> rw [driveRst, h] <;> cases l <;> exact hs
  delayMs _ _ hs := hs
  configured _ _ _ hs := hs
  cursor _ _ hs := hs
  ready hs := hs
  uninitialized hs := hs
  returned _ _ hs := hs
  constructed _ _ hs := hs
  driverLost hs := hs
  taken hs := hs

/-- Settles O13: no part of an operation writes a parameter (`keptByParts_par`). -/
theorem parametersAreNeverWritten : Obligations.ParametersAreNeverWritten :=
  fun s _ h => (keptByParts_par s.par).step rfl h

/-! ## The control lines and the transcript -/

/-- A drive of a control line at the end of the transcript is the last one of its line, and none of the other. -/
theorem lastDrive_append_pin (line k : ControlLine) (l : Level) (tr : List Event) :
    lastDrive line (tr ++ [.pin k l]) = if k = line then some l else lastDrive line tr := by
  unfold lastDrive
  split <;> simp [*]

/-- Events that are no drives of a control line do not count. -/
theorem lastDrive_append_of_no_pin {l : List Event} (h : ∀ e ∈ l, ∀ k v, e ≠ .pin k v) (line : ControlLine) (tr : List Event) :
    lastDrive line (tr ++ l) = lastDrive line tr := by
  unfold lastDrive
  rw [List.reverse_append, List.findSome?_append, List.findSome?_eq_none_iff.mpr, Option.none_or]
  intro e he
  cases e with
  | pin k v => exact absurd rfl (h _ (List.mem_reverse.mp he) k v)
  | _ => rfl

/-- The event of a cycle is no drive of a control line. -/
theorem cycle_event_ne_pin (c : Cycle) (k : ControlLine) (v : Level) : c.event ≠ .pin k v := by
  cases c <;> exact nofun

/-- Where the two control lines and their recorded drives are what they were, they still agree. -/
theorem linesFollow_congr {s t : State} (hs : s.linesFollow) (hcs : t.pins.cs = s.pins.cs) (hrst : t.pins.rst = s.pins.rst)
    (htrace : ∀ line, lastDrive line t.trace = lastDrive line s.trace) : t.linesFollow := by
  unfold State.linesFollow
  rwa [hcs, hrst, htrace, htrace]

/-- A drive of chip-select is recorded at its level, or leaves the line Unknown. -/
theorem driveCs_linesFollow (l : Level) {s : State} (hs : s.linesFollow) : (driveCs l s).state.linesFollow := by
  obtain ⟨_, hrst⟩ := hs
  rcases drive_cases .cs l .cs s with h | h <;> rw [driveCs, h]
  · have hlast (line : ControlLine) := lastDrive_append_pin line .cs l s.trace
    exact ⟨fun v hv => by cases hv; exact hlast .cs, fun v hv => (hlast .rst).trans (hrst v hv)⟩
  · exact ⟨nofun, hrst⟩

/-- The attempt to drive a line leaves the lines and the transcript. -/
theorem attempt_linesFollow {s : State} (hs : s.linesFollow) (line : Pin) (l : Level) : (s.attempt line l).linesFollow := by
  unfold State.attempt
  split <;> exact hs

/-- A drive of reset is recorded at its level, or leaves the line Unknown. -/
theorem driveRst_linesFollow (l : Level) {s : State} (hs : s.linesFollow) : (driveRst l s).state.linesFollow := by
  obtain ⟨hcs, _⟩ := attempt_linesFollow (s := s.drawn) hs .rst l
  rcases drive_cases .rst l .reset s with h | h <;> rw [driveRst, h]
  · have hlast (line : ControlLine) := lastDrive_append_pin line .rst l (s.drawn.attempt .rst l).trace
    exact ⟨fun v hv => (hlast .cs).trans (hcs v hv), fun v hv => by cases hv; exact hlast .rst⟩
  · exact ⟨hcs, nofun⟩

/-- No part of an operation parts a Known level of chip-select or reset from its last recorded drive. -/
theorem keptByParts_linesFollow : KeptByParts State.linesFollow where
  sent {l s t} h hs := linesFollow_congr hs h.cs h.rst fun line => by
    rw [h.trace, lastDrive_append_of_no_pin]
    simp [cycle_event_ne_pin]
  driveCs l _ hs := driveCs_linesFollow l hs
  driveRst l _ hs := driveRst_linesFollow l hs
  delayMs ms s hs := linesFollow_congr hs rfl rfl fun line => lastDrive_append_of_no_pin (by simp) line s.trace
  configured _ _ _ hs := hs
  cursor _ _ hs := hs
  ready hs := hs
  uninitialized hs := hs
  returned _ _ hs := hs
  constructed _ _ hs := hs
  driverLost hs := hs
  taken hs := hs

/-- Both lines are recorded High when `new` returns (R36). -/
theorem reset_linesFollow : State.reset.linesFollow :=
  ⟨fun v hv => by cases hv; rfl, fun v hv => by cases hv; rfl⟩

/-- Settles O10: it holds at reset, and every part of an operation keeps it (`keptByParts_linesFollow`). -/
theorem knownLevelsFollowTheTranscript : Obligations.KnownLevelsFollowTheTranscript :=
  ⟨reset_linesFollow, fun _ _ hs h => keptByParts_linesFollow.step hs h⟩

/-! ## The parameters at reset -/

/-- Whatever the free table is, the one at reset meets R138. -/
theorem admissible_orExample (t : List InitEntry) : admissible (orExample t) = true := by
  unfold orExample
  split
  · assumption
  · decide

/-- Whatever the free sentinel is, the one at reset is no member's byte (R75). -/
theorem apart_datasheet (b : Byte) :
    (Opcode.all.map OpcodeBytes.datasheet.byte).contains (apart .datasheet b) = false := by
  unfold apart
  split
  · decide
  · next h => exact Bool.eq_false_of_not_eq_true h

theorem resetParams_sentinelApart : resetParams.sentinelApart = true :=
  congrArg (! ·) (apart_datasheet Config.rawDelaySentinel)

/-- Settles O6, one constraint after the other: the defaults of the spec compute, the free values meet theirs by
`apart_datasheet` and `admissible_orExample`. -/
theorem resetParametersMeetTheirConstraints : Obligations.ResetParametersMeetTheirConstraints := by
  have hinjective : resetParams.opcodes.injective = true := by decide
  have hdelays : resetParams.delaysLegal = true := by decide
  have htable : admissible resetParams.initTable = true := admissible_orExample _
  show resetParams.wellFormed = true
  simp only [Params.wellFormed, hinjective, resetParams_sentinelApart, hdelays, htable, Bool.and_self]

end Sys2Proof.Machine

namespace Sys2Proof.Machine

/-! ## The state at reset -/

/-- The data lines that `new` leaves are all Unknown (R36). -/
theorem unknownLines_get (i : Nat) (h : i < 8) : unknownLines[i] = .unknown := Vector.getElem_replicate h

/-- Settles O5: each row of the table of R36 is a field of `State.reset`. -/
theorem resetIsTheStateAfterNew : Obligations.ResetIsTheStateAfterNew :=
  ⟨rfl, rfl, rfl, rfl, rfl, rfl, rfl, rfl, unknownLines_get, rfl, rfl, rfl, rfl, rfl, Memory.read_nil⟩

/-! ## The Configuration invariant -/

/-- Both classes have the panel's 153600 pixels. -/
theorem dims_area (k : OrientationClass) : k.dims.1.toNat * k.dims.2.toNat = 153600 := by
  cases k <;> decide

/-- The Configuration of `new` meets R24. -/
theorem legal_reset : Configuration.reset.legal := ⟨dims_area .portraitClass, rfl⟩

/-- Whatever it was, a Configuration with its orientation assigned meets R24 (R193). -/
theorem legal_oriented (c : Configuration) (o : Orientation) : (c.oriented o).legal := ⟨dims_area o.class, rfl⟩

/-- The Configuration that an operation leaves meets R24 if the one before it did. -/
theorem legal_configurationAfter {c : Configuration} (hc : c.legal) (ok : Bool) (i : Instr) :
    (configurationAfter c ok i).legal := by
  cases i with
  | new k => cases ok with
    | true => exact legal_reset
    | false => exact hc
  | setPixelFormat f => cases ok <;> exact hc
  | setOrientation o => exact legal_oriented c o
  | _ => exact hc

/-- A step that appends a first part of some events writes no Configuration, whether it succeeds or not. -/
theorem Res.runs.cfg {l : List Event} {s : State} {r : Res} (h : r.runs l s) : r.state.cfg = s.cfg := by
  cases r with
  | ok t => exact Ran.cfg h
  | err e t =>
    obtain ⟨p, _, hran⟩ := h
    exact hran.cfg

/-- Every part of an operation keeps R24: only `configured` and `constructed` write the Configuration at all. -/
theorem keptByParts_legal : KeptByParts fun s => s.cfg.legal where
  sent h hs := h.cfg ▸ hs
  driveCs l s hs := by rwa [(driveCs_runs l s).cfg]
  driveRst l s hs := by rwa [(driveRst_runs l s).cfg]
  delayMs _ _ hs := hs
  configured i ok _ hs := legal_configurationAfter hs ok i
  cursor _ _ hs := hs
  ready hs := hs
  uninitialized hs := hs
  returned _ _ hs := hs
  constructed _ _ _ := legal_reset
  driverLost hs := hs
  taken hs := hs

/-- Settles O7: it holds at reset, and every part of an operation keeps it (`keptByParts_legal`). -/
theorem configurationInvariantIsKept : Obligations.ConfigurationInvariantIsKept :=
  ⟨legal_reset, fun _ _ hs h => keptByParts_legal.step hs h⟩

/-! ## The transcript -/

/-- A step that appends a first part of some events only adds to the transcript. -/
theorem Res.runs.trace_prefix {l : List Event} {s : State} {r : Res} (h : r.runs l s) : s.trace <+: r.state.trace := by
  cases r with
  | ok t => exact ⟨l, (Ran.trace h).symm⟩
  | err e t =>
    obtain ⟨p, _, hran⟩ := h
    exact ⟨p, hran.trace.symm⟩

/-- No part of an operation takes away what stands in the transcript. -/
theorem keptByParts_trace_prefix (tr : List Event) : KeptByParts fun s => tr <+: s.trace where
  sent h hs := hs.trans ⟨_, h.trace.symm⟩
  driveCs l s hs := hs.trans (driveCs_runs l s).trace_prefix
  driveRst l s hs := hs.trans (driveRst_runs l s).trace_prefix
  delayMs _ _ hs := hs.trans (List.prefix_append _ _)
  configured _ _ _ hs := hs
  cursor _ _ hs := hs
  ready hs := hs
  uninitialized hs := hs
  returned _ _ hs := hs
  constructed _ _ hs := hs
  driverLost hs := hs
  taken hs := hs

/-- Settles O12: no part of an operation takes away what stands in the transcript (`keptByParts_trace_prefix`). -/
theorem transcriptOnlyGrows : Obligations.TranscriptOnlyGrows :=
  fun s _ h => (keptByParts_trace_prefix s.trace).step (List.prefix_refl _) h

/-! ## How an instruction ends -/

/-- A failing instruction raises its error, `new` loses the driver besides, and nothing else is written. -/
theorem conclude_err_eq (i : Instr) (c : Configuration) (e : Error) (u : State) :
    ∃ d, conclude i c (.err e u) = { u.raise e with driver := d } := by
  by_cases hnew : ∀ k, i ≠ .new k
  · exact ⟨u.driver, conclude_err hnew c e u⟩
  · obtain ⟨k, rfl⟩ : ∃ k, i = .new k := by simpa using hnew
    exact ⟨false, rfl⟩

/-- An instruction that succeeds returns its value and writes nothing else, or constructs a driver. -/
theorem conclude_ok_cases (i : Instr) (c : Configuration) (u : State) :
    conclude i c (.ok u) = { u with ret := .ok (gives c i) } ∨ ∃ k, conclude i c (.ok u) = constructed k u := by
  by_cases hnew : ∀ k, i ≠ .new k
  · exact .inl (conclude_ok hnew c u)
  · obtain ⟨k, rfl⟩ : ∃ k, i = .new k := by simpa using hnew
    exact .inr ⟨k, rfl⟩

/-- An operation on the driver that answers a next state had one. -/
theorem driver_of_onDriver {s t : State} {r : Host.Outcome State Fault Refusal} (h : onDriver s r = .next t) :
    s.driver = true := by
  unfold onDriver at h
  split at h
  · assumption
  · cases h

/-! ## The cursor -/

/-- A drive of chip-select leaves the cursor. -/
theorem driveCs_seq (l : Level) (s : State) : (driveCs l s).state.seq = s.seq := by
  rcases drive_cases .cs l .cs s with h | h <;> rw [driveCs, h] <;> rfl

/-- A drive of reset leaves the cursor. -/
theorem driveRst_seq (l : Level) (s : State) : (driveRst l s).state.seq = s.seq := by
  rcases drive_cases .rst l .reset s with h | h <;> rw [driveRst, h] <;> cases l <;> rfl

/-- A step on the bus leaves a state that it sent cycles to, whether it succeeds or not. -/
theorem Res.transfersTo.state_sent {l : List Cycle} {done failed : State} {r : Res} (h : r.transfersTo l done failed) :
    ∃ k s, (s = done ∨ s = failed) ∧ Sent k s r.state := by
  cases r with
  | ok t => exact ⟨l, done, .inl rfl, h⟩
  | err e t =>
    obtain ⟨k, _, hsent⟩ := h
    exact ⟨k, failed, .inr rfl, hsent⟩

/-- Only `init` moves the cursor while it runs (R28). -/
theorem body_seq {i : Instr} (hinit : i ≠ .init) (s : State) : (body i s).state.seq = s.seq := by
  have hbus (hcontrol : drivesControl i = false) (hdelay : ∀ ms, i ≠ .initDelay ms) : (body i s).state.seq = s.seq := by
    obtain ⟨k, s', rfl | rfl, hsent⟩ := (body_transfersTo s hcontrol hdelay).state_sent <;> exact hsent.seq
  cases i with
  | new k =>
    exact Res.bind_state (I := fun t => t.seq = s.seq) (driveCs_seq _ s) fun t ht => (driveRst_seq _ t).trans ht
  | assertReset => exact driveRst_seq _ s
  | deassertReset => exact driveRst_seq _ s
  | enable => exact driveCs_seq _ s
  | disable => exact driveCs_seq _ s
  | init => exact absurd rfl hinit
  | initDelay ms => rfl
  | _ => exact hbus rfl nofun

/-- A bring-up leaves no cursor, or one on the entry that failed. -/
theorem bringUp_cursorSound (s : State) : (bringUp s).state.cursorSound := by
  have hpar : (bringUp s).state.par = s.par := (keptByParts_par s.par).bringUp rfl
  cases h : bringUp s with
  | ok u =>
    obtain ⟨_, _, _, _, hseq⟩ := bringUp_ok h
    intro n hn
    cases hseq.symm.trans hn
  | err e u =>
    rw [h] at hpar
    rcases bringUp_err h with ⟨hseq, _⟩ | ⟨m, op, params, k, hseq, hentry, _⟩ <;> intro n hn
    · cases hseq.symm.trans hn
    · cases hseq.symm.trans hn
      rw [hpar]
      exact (List.getElem?_eq_some_iff.mp hentry).1

/-- The step of an instruction keeps the cursor on an entry of the table. -/
theorem body_cursorSound (i : Instr) {s : State} (hs : s.cursorSound) : (body i s).state.cursorSound := by
  by_cases hinit : i = .init
  · subst hinit
    exact bringUp_cursorSound s
  · have hpar : (body i s).state.par = s.par := (keptByParts_par s.par).body i rfl
    unfold State.cursorSound
    rwa [body_seq hinit, hpar]

/-- The end of an instruction leaves the cursor, or there is none after `new`. -/
theorem conclude_cursorSound (i : Instr) (c : Configuration) {r : Res} (hr : r.state.cursorSound) :
    (conclude i c r).cursorSound := by
  cases r with
  | ok u =>
    rcases conclude_ok_cases i c u with h | ⟨k, h⟩ <;> rw [h]
    · exact hr
    · exact nofun
  | err e u =>
    obtain ⟨d, h⟩ := conclude_err_eq i c e u
    rw [h]
    exact hr

/-- Settles O11: there is no cursor at reset, and the step and the end of every instruction keep it on an entry. -/
theorem cursorStaysInTheTable : Obligations.CursorStaysInTheTable := by
  refine ⟨nofun, fun s t hs h => ?_⟩
  rcases step_cases h with rfl | ⟨i, hi⟩
  · exact hs
  · rw [eq_conclude_of_exec hi]
    exact conclude_cursorSound i _ (body_cursorSound i (s := s.taken) hs)

/-! ## The phase -/

/-- The step of an instruction but `init` and `assert_reset`, when it succeeds, keeps the phase, the driver and the level of
reset, unless that was driven High. -/
theorem body_ok_keeps {i : Instr} {s u : State} (hinit : i ≠ .init) (hassert : i ≠ .assertReset) (h : body i s = .ok u) :
    u.phase = s.phase ∧ u.driver = s.driver ∧ (u.pins.rst = s.pins.rst ∨ u.pins.rst = .known .high) := by
  have hbus (hcontrol : drivesControl i = false) (hdelay : ∀ ms, i ≠ .initDelay ms) :
      u.phase = s.phase ∧ u.driver = s.driver ∧ (u.pins.rst = s.pins.rst ∨ u.pins.rst = .known .high) := by
    have hsent := body_transfersTo s hcontrol hdelay
    rw [h] at hsent
    have hsent : Sent _ _ u := hsent
    exact ⟨hsent.phase, hsent.driver, .inl hsent.rst⟩
  cases i with
  | new k =>
    obtain ⟨v, hv, hu⟩ := Res.bind_eq_ok h
    rw [driveRst_ok hu, driveCs_ok hv]
    exact ⟨rfl, rfl, .inr rfl⟩
  | assertReset => exact absurd rfl hassert
  | deassertReset => rw [driveRst_ok h]; exact ⟨rfl, rfl, .inr rfl⟩
  | enable => rw [driveCs_ok h]; exact ⟨rfl, rfl, .inl rfl⟩
  | disable => rw [driveCs_ok h]; exact ⟨rfl, rfl, .inl rfl⟩
  | init => exact absurd rfl hinit
  | initDelay ms => cases h; exact ⟨rfl, rfl, .inl rfl⟩
  | _ => exact hbus rfl nofun

/-- Settles O18: an error makes the phase Uninitialized whatever failed; a success of `init` is told by `bringUp_ok`, of
`assert_reset` by its drive, and of every other instruction by `body_ok_keeps`. -/
theorem phaseAfterEachOperation : Obligations.PhaseAfterEachOperation := by
  intro i s t h
  rw [eq_conclude_of_exec h]
  cases hr : body i s with
  | err e u =>
    obtain ⟨d, hd⟩ := conclude_err_eq i s.cfg e u
    rw [hd]
    rfl
  | ok u =>
    have hkept (hinit : i ≠ .init) (hassert : i ≠ .assertReset) : u.phase = s.phase := by
      obtain ⟨hphase, _⟩ := body_ok_keeps hinit hassert hr
      exact hphase
    rw [if_neg (by rw [conclude_ok_ret]; exact nofun)]
    cases i with
    | new k => rfl
    | assertReset => rw [driveRst_ok hr]; rfl
    | init =>
      obtain ⟨_, hphase, _⟩ := bringUp_ok hr
      exact hphase
    | _ => exact hkept nofun nofun

/-- What a Ready block needs it has after the step of an instruction that succeeded; `init` was called on a driver. -/
theorem body_ok_readySound {i : Instr} {s u : State} (hdriver : i = .init → s.driver = true) (hs : s.readySound)
    (h : body i s = .ok u) : u.readySound := by
  by_cases hinit : i = .init
  · subst hinit
    obtain ⟨hran, _, _, hrst, hseq⟩ := bringUp_ok h
    exact fun _ => ⟨hran.driver.trans (hdriver rfl), hrst, hseq⟩
  by_cases hassert : i = .assertReset
  · subst hassert
    rw [driveRst_ok h]
    exact nofun
  · obtain ⟨hphase, hdrv, hrst⟩ := body_ok_keeps hinit hassert h
    have hseq := body_seq hinit s
    rw [h] at hseq
    intro hready
    obtain ⟨hd, hhigh, hnone⟩ := hs (hphase.symm.trans hready)
    exact ⟨hdrv.trans hd, hrst.elim (·.trans hhigh) id, Eq.trans hseq hnone⟩

/-- Settles O9: an error and `new` leave the block Uninitialized, and every other success is told by `body_ok_readySound`. -/
theorem readyStateIsSound : Obligations.ReadyStateIsSound := by
  refine ⟨nofun, fun s t hs h => ?_⟩
  rcases step_cases h with rfl | ⟨i, hi⟩
  · exact hs
  have hdriver : i = .init → s.taken.driver = true := by
    rintro rfl
    exact driver_of_onDriver hi
  rw [eq_conclude_of_exec hi]
  cases hr : body i s.taken with
  | err e u =>
    obtain ⟨d, hd⟩ := conclude_err_eq i s.taken.cfg e u
    rw [hd]
    exact nofun
  | ok u =>
    rcases conclude_ok_cases i s.taken.cfg u with hok | ⟨k, hok⟩ <;> rw [hok]
    · have hready : u.readySound := body_ok_readySound (s := s.taken) hdriver hs hr
      exact hready
    · exact nofun

/-! ## Errors -/

/-- The Configuration is written after the frame, with no further act (R190). -/
theorem setPixelFormat_follows (f : PixelFormat) (s : State) :
    (setPixelFormat f s).sendsBy (frameCycles s.par.opcodes .colmod [fmtByte f]) s := by
  show (setPixelFormat f s).follows _ s
  rw [← List.append_nil (cycleActs _ _ _ _)]
  exact Res.follows_bind (sendFrame_follows .colmod [fmtByte f] s) fun t _ => follows_quiet rfl rfl

/-- The step of every instruction runs through the instruction's acts, or stops at the first drive that fails. -/
theorem body_follows (i : Instr) (s : State) : (body i s).follows (actsOf s.transport s.par s.cfg i) s := by
  cases i with
  | data b => exact writeData_follows [b] s
  | writeCommand op => exact writeCommand_follows op s
  | writeData bytes => exact writeData_follows bytes s
  | writeData16be words => exact writeWords_follows words s
  | new k => exact Res.follows_bind (a := [csAct .high]) (driveCs_follows _ s) fun t _ => driveRst_follows _ t
  | assertReset => exact driveRst_follows _ s
  | deassertReset => exact driveRst_follows _ s
  | enable => exact driveCs_follows _ s
  | disable => exact driveCs_follows _ s
  | init => exact bringUp_follows s
  | sendCommand op => exact sendCommand_follows op s
  | sendData bytes => exact writeData_follows bytes s
  | setWindow x0 y0 x1 y1 => exact setWindow_follows x0 y0 x1 y1 s
  | writePixels words => exact writePixels_follows words s
  | fill color => exact fillScreen_follows color s
  | setPixelFormat f => exact setPixelFormat_follows f s
  | setOrientation o =>
    exact Res.follows_congr (sendFrame_follows .madctl [orientByte o] { s with cfg := s.cfg.oriented o }) rfl rfl
  | setBrightness level => exact sendFrame_follows _ _ s
  | drawIter pixels => exact drawPixels_follows pixels s
  | initCmd op params => exact runEntry_follows (.cmd op params) s
  | initDelay ms => exact runEntry_follows (.delay ms) s
  | readStatus | readData | width | height | orientation | size => exact Res.follows_nil s
  | _ => exact sendCommand_follows _ s

/-- What the step of an instruction that fails has written of the Configuration. -/
theorem body_err_cfg {i : Instr} {s u : State} {e : Error} (h : body i s = .err e u) :
    u.cfg = configurationAfter s.cfg false i := by
  have hruns {l : List Event} (hr : (body i s).runs l s) : u.cfg = s.cfg := by
    have := hr.cfg
    rwa [h] at this
  have hbus (hcontrol : drivesControl i = false) (hdelay : ∀ ms, i ≠ .initDelay ms) :
      u.cfg = configurationAfter s.cfg false i := by
    have hsent := body_transfersTo s hcontrol hdelay
    rw [h] at hsent
    obtain ⟨k, _, hsent⟩ := hsent
    exact hsent.cfg
  cases i with
  | new k => exact hruns (body_new_runs k s)
  | assertReset => exact hruns (driveRst_runs _ s)
  | deassertReset => exact hruns (driveRst_runs _ s)
  | enable => exact hruns (driveCs_runs _ s)
  | disable => exact hruns (driveCs_runs _ s)
  | init => exact hruns (bringUp_runs s)
  | initDelay ms => cases h
  | _ => exact hbus rfl nofun

/-- Settles O20: the step of the instruction stops as `body_follows` says, with the Configuration of `body_err_cfg`, and the
conclusion changes neither the draws nor the transcript, nor the lines of a failure. -/
theorem stateAfterAnError : Obligations.StateAfterAnError := by
  intro i s t h
  have hfollows := body_follows i s
  rw [eq_conclude_of_exec h]
  cases hr : body i s with
  | ok u =>
    rw [hr] at hfollows
    refine ⟨fun _ => ?_, fun e he => ?_⟩
    · rcases conclude_ok_cases i s.cfg u with hok | ⟨k, hok⟩ <;> rw [hok] <;> exact hfollows
    · rw [conclude_ok_ret] at he
      cases he
  | err e u =>
    rw [hr] at hfollows
    obtain ⟨d, hd⟩ := conclude_err_eq i s.cfg e u
    rw [hd]
    refine ⟨nofun, fun e' he => ?_⟩
    cases he
    have hcfg := body_err_cfg hr
    exact ⟨hfollows, rfl, hcfg, u.free, rfl⟩

/-! ## Construction -/

/-- A drive whose draw succeeds. -/
theorem drive_of_succeeds {s : State} (h : s.nextDraw = .succeeds) (line : Pin) (l : Level) (e : Error) :
    drive line l e s = .ok ((s.drawn.attempt line l).driven line l) := by
  rw [drive, h]

/-- A drive whose draw fails. -/
theorem drive_of_fails {s : State} (h : s.nextDraw = .fails) (line : Pin) (l : Level) (e : Error) :
    drive line l e s = .err e ((s.drawn.attempt line l).setPin line .unknown) := by
  rw [drive, h]

/-- Where the drive of chip-select fails, `new` does not drive reset (R130). -/
theorem body_new_of_cs_fails {s : State} (h : s.nextDraw = .fails) (k : Transport) :
    body (.new k) s = .err .cs (s.drawn.setPin .cs .unknown) := by
  show (drive .cs .high .cs s).bind _ = _
  rw [drive_of_fails h]
  rfl

/-- Where the drive of reset fails, chip-select has been driven High. -/
theorem body_new_of_rst_fails {s : State} (hcs : s.nextDraw = .succeeds) (hrst : s.drawn.nextDraw = .fails) (k : Transport) :
    body (.new k) s = .err .reset ((s.drawn.driven .cs .high).drawn.setPin .rst .unknown) := by
  show (drive .cs .high .cs s).bind (drive .rst .high .reset) = _
  rw [drive_of_succeeds hcs]
  exact drive_of_fails (s := s.drawn.driven .cs .high) hrst .rst .high .reset

/-- Settles O32: which of the two drives of `new` succeed is told by the draws, and the fields are those of `constructed` or of
an error that leaves no driver. -/
theorem newBindsADriver : Obligations.NewBindsADriver := by
  intro k s
  refine ⟨fun hpins => ?_, fun ds hds => ?_, fun ds hds => ?_⟩
  · obtain ⟨u, hu, _⟩ := body_fine (.new k) s hpins
    obtain ⟨v, hv, hrst⟩ := Res.bind_eq_ok hu
    refine ⟨_, execNew_eq_conclude k s, ?_⟩
    rw [hu, driveRst_ok hrst, driveCs_ok hv]
    exact ⟨rfl, rfl, rfl, rfl, rfl, rfl, rfl, rfl, unknownLines_get, rfl, rfl, rfl, rfl, List.append_assoc _ _ _⟩
  · have hcs : s.nextDraw = .fails := by rw [State.nextDraw, hds]; rfl
    refine ⟨_, execNew_eq_conclude k s, ?_⟩
    rw [body_new_of_cs_fails hcs]
    exact ⟨rfl, rfl, rfl, rfl, rfl, congrArg List.tail hds⟩
  · have hcs : s.nextDraw = .succeeds := by rw [State.nextDraw, hds]; rfl
    have hrst : s.drawn.nextDraw = .fails := by rw [State.nextDraw, State.drawn_draws, hds]; rfl
    refine ⟨_, execNew_eq_conclude k s, ?_⟩
    rw [body_new_of_rst_fails hcs hrst]
    exact ⟨rfl, rfl, rfl, rfl, rfl, congrArg (·.tail.tail) hds⟩

/-! ## Bring-up -/

/-- Settles O34: `init` succeeds or fails as `bringUp` does, with the state of `bringUp_ok` or after the first events of
`bringUp_runs`. -/
theorem initRunsTheBringUp : Obligations.InitRunsTheBringUp := by
  intro s hdriver
  refine ⟨_, exec_eq_conclude (i := .init) (fun _ => hdriver) nofun, fun hpins => ?_, ?_⟩
  · obtain ⟨u, hu, _⟩ := body_fine .init s hpins
    rw [hu, conclude_ok_ret]
    rfl
  have hruns : (body .init s).runs (bringUpEvents s.par) s := bringUp_runs s
  cases hr : body .init s with
  | ok u =>
    obtain ⟨hran, hphase, hcs, hrst, hseq⟩ := bringUp_ok hr
    exact ⟨hran.cfg, hran.driver.trans hdriver, hran.transport, hran.par, hran.port,
      .inl ⟨rfl, hphase, hcs, hrst, hseq, hran.trace⟩⟩
  | err e u =>
    rw [hr] at hruns
    obtain ⟨p, hp, hran⟩ := hruns
    exact ⟨hran.cfg, hran.driver.trans hdriver, hran.transport, hran.par, hran.port, .inr ⟨⟨e, rfl⟩, rfl, p, hp, hran.trace⟩⟩

/-- Settles O35: where the bring-up stopped is told by `bringUp_err`, and raising the error moves neither the cursor nor the
transcript. -/
theorem initFailsAtItsCursor : Obligations.InitFailsAtItsCursor := by
  intro s t _ h hfailed
  rw [eq_conclude_of_exec h] at hfailed ⊢
  cases hr : body .init s with
  | ok u =>
    rw [hr, conclude_ok_ret] at hfailed
    cases hfailed
  | err e u =>
    rcases bringUp_err hr with ⟨hseq, n, hran, hstop⟩ | ⟨n, op, params, k, hseq, hentry, hfails, hran⟩
    · have hret {x : Error} (he : e = x) : Ret.err e = .err x := congrArg Ret.err he
      exact .inl ⟨hseq, n, hran.trace, hstop.imp (And.imp_left hret) (And.imp_left hret)⟩
    · exact .inr ⟨n, op, params, e, k, hseq, hentry, rfl, hfails, hran.trace⟩

end Sys2Proof.Machine

namespace Sys2Proof.Machine

/-! ## Noninterference of the panel

The panel and the count of free values stand in `State`, and operations write them; none reads them for anything else. Said of
one step: run from the state with both left out, it leaves the same but for them. That form composes along `Res.bind` and
`forEach`, and every field an operation does read is the same in `s.block` as in `s`. -/

/-- The outcome of a step with the panel, and the count of the free values it took, left out. -/
def Res.block : Res → Res
  | .ok s => .ok s.block
  | .err e s => .err e s.block

/-- A step whose outcome, but for the panel, does not depend on the panel. -/
def PanelBlind (f : State → Res) : Prop := ∀ s, (f s).block = (f s.block).block

/-- What does not depend on the panel does not tell apart two states that differ in the panel only. -/
theorem State.block_congr {α : Type} {g : State → α} (hg : ∀ s, g s = g s.block) {t u : State} (h : t.block = u.block) :
    g t = g u := by
  rw [hg t, h, ← hg u]

/-- Two outcomes that differ in the panel only are both done or both failed with the same error. -/
theorem Res.block_eq_cases {r r' : Res} (h : r.block = r'.block) :
    (∃ t u, r = .ok t ∧ r' = .ok u ∧ t.block = u.block) ∨ (∃ e t u, r = .err e t ∧ r' = .err e u ∧ t.block = u.block) := by
  cases r with
  | ok t => cases r' with
    | ok u => exact .inl ⟨t, u, rfl, rfl, Res.ok.inj h⟩
    | err e u => exact absurd h nofun
  | err e t => cases r' with
    | ok u => exact absurd h nofun
    | err e' u =>
      obtain ⟨rfl, htu⟩ := Res.err.inj h
      exact .inr ⟨e, t, u, rfl, rfl, htu⟩

/-- A step that is blind to the panel, after outcomes that differ in the panel only. -/
theorem PanelBlind.bind {f : State → Res} (hf : PanelBlind f) {r r' : Res} (h : r.block = r'.block) :
    (r.bind f).block = (r'.bind f).block := by
  rcases Res.block_eq_cases h with ⟨t, u, rfl, rfl, htu⟩ | ⟨e, t, u, rfl, rfl, _⟩
  · exact State.block_congr (g := fun t => (f t).block) hf htu
  · exact h

/-- A step for each element is blind to the panel if each of them is. -/
theorem panelBlind_forEach {α : Type} {f : α → State → Res} (hf : ∀ a, PanelBlind (f a)) (l : List α) :
    PanelBlind (forEach f l) := by
  induction l with
  | nil => exact fun _ => rfl
  | cons a rest ih => exact fun s => ih.bind (hf a s)

/-! ### Drives and cycles -/

theorem attempt_block (line : Pin) (l : Level) (s : State) : (s.attempt line l).block = (s.block.attempt line l).block := by
  unfold State.attempt
  split <;> rfl

/-- What a successful drive does: the latch puts the cycle of the lines before the panel, and records it whatever the panel. -/
theorem driven_block (line : Pin) (l : Level) (s : State) : (s.driven line l).block = (s.block.driven line l).block := by
  cases line with
  | wr =>
    show State.block (ite _ _ _) = State.block (ite (l = .high ∧ s.pins.wr = .known .low) _ _)
    split <;> rfl
  | _ => rfl

theorem panelBlind_drive (line : Pin) (l : Level) (e : Error) : PanelBlind (drive line l e) := by
  intro s
  have hattempt := attempt_block line l s.drawn
  have hdraw : s.block.nextDraw = s.nextDraw := rfl
  cases h : s.nextDraw with
  | succeeds =>
    rw [drive_of_succeeds h, drive_of_succeeds (hdraw.trans h)]
    exact congrArg Res.ok (State.block_congr (g := fun t => (t.driven line l).block) (driven_block line l) hattempt)
  | fails =>
    rw [drive_of_fails h, drive_of_fails (hdraw.trans h)]
    exact congrArg (Res.err e) (State.block_congr (g := fun t => (t.setPin line .unknown).block) (fun _ => rfl) hattempt)

theorem panelBlind_strobeByte (e : Error) (b : Byte) : PanelBlind (strobeByte e b) := by
  have hlines (l : List Nat) : PanelBlind (forEach (fun i => drive (.d i) (dataLevel b i) e) l) :=
    panelBlind_forEach (fun _ => panelBlind_drive _ _ e) l
  have hstrobe : PanelBlind (strobe e) := fun t => (panelBlind_drive .wr .high e).bind (panelBlind_drive .wr .low e t)
  exact fun s => hstrobe.bind (hlines (lineOrder s.par.dataOrder) s)

theorem panelBlind_serialCycle (e : Error) (c : Cycle) : PanelBlind (serialCycle e c) := by
  intro s
  unfold serialCycle
  rw [show s.block.nextDraw = s.nextDraw from rfl]
  cases s.nextDraw <;> rfl

/-- A step that is one of two, by the transport, is blind to the panel if both are. -/
theorem panelBlind_byTransport {f g h : State → Res} (hg : PanelBlind g) (hh : PanelBlind h)
    (hf : ∀ s, f s = match s.transport with | .parallel8 => g s | .serial => h s) : PanelBlind f := by
  intro s
  rw [hf, hf, show s.block.transport = s.transport from rfl]
  cases s.transport
  · exact hg s
  · exact hh s

theorem panelBlind_writeCommand (b : Byte) : PanelBlind (writeCommand b) := by
  refine panelBlind_byTransport (fun s => ?_) (panelBlind_serialCycle (.bus .command) (.cmd b)) fun s => rfl
  refine PanelBlind.bind (fun t => ?_) (panelBlind_drive .dc s.par.dcCmdLevel (.bus .command) s)
  exact PanelBlind.bind (fun u => panelBlind_drive .dc (dataDcLevel u.par) _ u) (panelBlind_strobeByte _ b t)

theorem panelBlind_beginBurst : PanelBlind beginBurst :=
  panelBlind_byTransport (fun s => panelBlind_drive .dc (dataDcLevel s.par) (.bus .data) s) (h := .ok) (fun _ => rfl) fun _ => rfl

theorem panelBlind_dataCycle (b : Byte) : PanelBlind (dataCycle b) :=
  panelBlind_byTransport (panelBlind_strobeByte _ b) (panelBlind_serialCycle _ (.dat b)) fun _ => rfl

/-! ### Operations -/

theorem panelBlind_writeData (bs : List Byte) : PanelBlind (writeData bs) := by
  cases bs with
  | nil => exact fun _ => rfl
  | cons b rest => exact fun s => (panelBlind_forEach panelBlind_dataCycle (b :: rest)).bind (panelBlind_beginBurst s)

theorem panelBlind_writeWords (ws : List U16) : PanelBlind (writeWords ws) := by
  intro s
  rw [writeWords_eq, writeWords_eq]
  exact panelBlind_writeData _ s

theorem panelBlind_sendCommand (op : Opcode) : PanelBlind (sendCommand op) :=
  fun s => panelBlind_writeCommand (s.par.opcodes.byte op) s

theorem panelBlind_sendFrame (op : Opcode) (params : List Byte) : PanelBlind (sendFrame op params) :=
  fun s => (panelBlind_writeData params).bind (panelBlind_sendCommand op s)

theorem panelBlind_setWindow (x0 y0 x1 y1 : U16) : PanelBlind (setWindow x0 y0 x1 y1) :=
  fun s => (panelBlind_sendFrame .paset (addrParams y0 y1)).bind (panelBlind_sendFrame .caset (addrParams x0 x1) s)

theorem panelBlind_writePixels (ws : List U16) : PanelBlind (writePixels ws) :=
  fun s => (panelBlind_writeWords ws).bind (panelBlind_sendCommand .ramwr s)

theorem panelBlind_fillScreen (color : U16) : PanelBlind (fillScreen color) := by
  intro s
  refine PanelBlind.bind (fun t => ?_) (panelBlind_setWindow 0 0 (s.cfg.width - 1) (s.cfg.height - 1) s)
  refine PanelBlind.bind (fun u => ?_) (panelBlind_sendCommand .ramwr t)
  exact (panelBlind_sendCommand .nop).bind (panelBlind_writeWords (List.replicate (fillCount s.cfg) color) u)

theorem panelBlind_setPixelFormat (f : PixelFormat) : PanelBlind (setPixelFormat f) :=
  fun s => PanelBlind.bind (fun _ => rfl) (panelBlind_sendFrame .colmod [fmtByte f] s)

theorem panelBlind_drawPixel (p : DrawPixel) : PanelBlind (drawPixel p) := by
  intro s
  unfold drawPixel
  rw [show inBounds s.block.par s.block.cfg p = inBounds s.par s.cfg p from rfl]
  split
  · exact (panelBlind_writePixels _).bind (panelBlind_setWindow _ _ _ _ s)
  · rfl

theorem panelBlind_runEntry (e : InitEntry) : PanelBlind (runEntry e) := by
  cases e with
  | cmd op params => exact panelBlind_sendFrame op params
  | delay ms => exact fun _ => rfl

theorem panelBlind_sequence (e : InitEntry) : PanelBlind (sequence e) :=
  fun s => PanelBlind.bind (fun _ => rfl) (panelBlind_runEntry e s)

theorem panelBlind_resetPulse : PanelBlind resetPulse := by
  intro s
  refine PanelBlind.bind (fun t => ?_) (panelBlind_drive .cs .high .cs s)
  refine PanelBlind.bind (fun u => ?_) (panelBlind_drive .rst .low .reset t)
  refine PanelBlind.bind (fun v => ?_) (panelBlind_drive .rst .high .reset (u.delayMs u.par.resetPulseMs))
  exact panelBlind_drive .cs .low .cs (v.delayMs v.par.resetSettleMs)

theorem panelBlind_runTable : PanelBlind runTable :=
  fun s => PanelBlind.bind (fun _ => rfl) (panelBlind_forEach panelBlind_sequence s.par.initTable { s with seq := some 0 })

/-- A bring-up begins by making the panel any value, at the count of its own state. -/
theorem panelBlind_bringUp : PanelBlind bringUp :=
  fun s => panelBlind_runTable.bind <|
    (panelBlind_resetPulse { s.uninitialize with seq := none }).trans
      (panelBlind_resetPulse { s.block.uninitialize with seq := none }).symm

/-- The step of every instruction is blind to the panel. -/
theorem panelBlind_body (i : Instr) : PanelBlind (body i) := by
  cases i with
  | data b => exact panelBlind_writeData [b]
  | writeCommand op => exact panelBlind_writeCommand op
  | writeData bytes => exact panelBlind_writeData bytes
  | writeData16be words => exact panelBlind_writeWords words
  | new k => exact fun s => (panelBlind_drive .rst .high .reset).bind (panelBlind_drive .cs .high .cs s)
  | assertReset => exact panelBlind_drive .rst .low .reset
  | deassertReset => exact panelBlind_drive .rst .high .reset
  | enable => exact panelBlind_drive .cs .low .cs
  | disable => exact panelBlind_drive .cs .high .cs
  | init => exact panelBlind_bringUp
  | sendCommand op => exact panelBlind_sendCommand op
  | sendData bytes => exact panelBlind_writeData bytes
  | setWindow x0 y0 x1 y1 => exact panelBlind_setWindow x0 y0 x1 y1
  | writePixels words => exact panelBlind_writePixels words
  | fill color => exact panelBlind_fillScreen color
  | setPixelFormat f => exact panelBlind_setPixelFormat f
  | setOrientation o => exact fun s => panelBlind_sendFrame .madctl [orientByte o] { s with cfg := s.cfg.oriented o }
  | setBrightness level => exact panelBlind_sendFrame .wrdisbv [level]
  | drawIter pixels => exact panelBlind_forEach panelBlind_drawPixel pixels
  | initCmd op params => exact panelBlind_runEntry (.cmd op params)
  | initDelay ms => exact panelBlind_runEntry (.delay ms)
  | readStatus | readData | width | height | orientation | size => exact fun _ => rfl
  | _ => exact panelBlind_sendCommand _

/-! ### Outcomes -/

/-- An instruction concludes alike from outcomes that differ in the panel only. -/
theorem conclude_block (i : Instr) (c : Configuration) {r r' : Res} (h : r.block = r'.block) :
    (conclude i c r).block = (conclude i c r').block := by
  rcases Res.block_eq_cases h with ⟨t, u, rfl, rfl, htu⟩ | ⟨e, t, u, rfl, rfl, htu⟩
  · exact State.block_congr (g := fun t => (conclude i c (.ok t)).block) (fun _ => by cases i <;> rfl) htu
  · exact State.block_congr (g := fun t => (conclude i c (.err e t)).block) (fun _ => by cases i <;> rfl) htu

/-- An operation of the driver looks at the driver only. -/
theorem onDriver_block (s : State) {o o' : Host.Outcome State Fault Refusal} (h : blockOutcome o = blockOutcome o') :
    blockOutcome (onDriver s o) = blockOutcome (onDriver s.block o') := by
  unfold onDriver
  rw [show s.block.driver = s.driver from rfl]
  split
  · exact h
  · rfl

/-- A read looks at the read mode only. -/
theorem readStub_block (s : State) : blockOutcome (readStub s) = blockOutcome (readStub s.block) := by
  unfold readStub
  rw [show s.block.par = s.par from rfl]
  cases s.par.readMode <;> rfl

/-- Every instruction answers, but for the panel, what it answers from the state with the panel left out. -/
theorem exec_block (i : Instr) (s : State) : blockOutcome (exec i s) = blockOutcome (exec i s.block) := by
  have hconclude : (conclude i s.cfg (body i s)).block = (conclude i s.cfg (body i s.block)).block :=
    conclude_block i s.cfg (panelBlind_body i s)
  have hfinish (hnew : ∀ k, i ≠ .new k) :
      blockOutcome (finish (gives s.cfg i) (body i s)) = blockOutcome (finish (gives s.cfg i) (body i s.block)) := by
    rw [finish_eq_conclude hnew, finish_eq_conclude hnew]
    exact congrArg Host.Outcome.next hconclude
  cases i with
  | new k =>
    show blockOutcome (execNew k s) = blockOutcome (execNew k s.block)
    rw [execNew_eq_conclude, execNew_eq_conclude]
    exact congrArg Host.Outcome.next hconclude
  | readStatus | readData => exact readStub_block s
  | assertReset | deassertReset | enable | disable | init | sendCommand | sendData | setWindow | writePixels | fill
  | setPixelFormat | setOrientation | setBrightness | width | height | orientation | drawIter | size =>
    exact onDriver_block s (hfinish nofun)
  | _ => exact hfinish nofun

/-- Settles O21: both states are the same with the panel left out, and `exec_block` tells both outcomes by that state. -/
theorem panelDoesNotActOnTheBlock : Obligations.PanelDoesNotActOnTheBlock := by
  intro i s p n
  exact (exec_block i { s with panel := p, free := n }).trans (exec_block i s).symm

end Sys2Proof.Machine

namespace Sys2Proof

/-! ## Requests read back -/

/-- A member's row is asked for by the command cycle of the member's byte. -/
theorem encode_wire (B : OpcodeBytes) (op : Opcode) : encode B op.wire = .cycle (.mk false (B.byte op)) := by
  cases op <;> rfl

theorem decodeRequest_encode_wire {B : OpcodeBytes} (h : B.injective = true) (op : Opcode) :
    decodeRequest B (encode B op.wire) = .ok op.wire := by
  rw [encode_wire]
  exact congrArg Except.ok (decodeCycle_command h op)

/-! The three lines of one u8 or u16. The range check of `asByte` and `asU16` must not be computed at the operand, so each
line is read at an arbitrary number first. -/

theorem decodeLine_writeCommand (B : OpcodeBytes) (b : Byte) :
    decodeLine B ⟨"write_command", [numOfByte b]⟩ = .ok (.writeCommand b) := by
  have hline (n : Int) : decodeLine B ⟨"write_command", [.num n]⟩ = (asByte n).map .writeCommand := rfl
  rw [numOfByte, hline, asByte_toNat]
  rfl

theorem decodeLine_fill (B : OpcodeBytes) (color : U16) : decodeLine B ⟨"fill", [numOfU16 color]⟩ = .ok (.fill color) := by
  have hline (n : Int) : decodeLine B ⟨"fill", [.num n]⟩ = (asU16 n).map .fill := rfl
  rw [numOfU16, hline, asU16_toNat]
  rfl

theorem decodeLine_setBrightness (B : OpcodeBytes) (level : Byte) :
    decodeLine B ⟨"set_brightness", [numOfByte level]⟩ = .ok (.setBrightness level) := by
  have hline (n : Int) : decodeLine B ⟨"set_brightness", [.num n]⟩ = (asByte n).map .setBrightness := rfl
  rw [numOfByte, hline, asByte_toNat]
  rfl

/-- Settles O3, instruction by instruction: a wire row is read back by its byte (`decodeRequest_encode_wire`), a line by the
lemma that reads its arguments back. -/
theorem decodeOfEncodeIsIdentity : Obligations.DecodeOfEncodeIsIdentity := by
  intro B i h
  have hwire (op : Opcode) : decodeRequest B (encode B op.wire) = .ok op.wire := decodeRequest_encode_wire h op
  cases i with
  | nop => exact hwire .nop
  | swreset => exact hwire .swreset
  | slpin => exact hwire .slpin
  | slpout => exact hwire .slpout
  | invoff => exact hwire .invoff
  | invon => exact hwire .invon
  | invctr => exact hwire .invctr
  | dispoff => exact hwire .dispoff
  | dispon => exact hwire .dispon
  | caset => exact hwire .caset
  | paset => exact hwire .paset
  | ramwr => exact hwire .ramwr
  | ramrd => exact hwire .ramrd
  | madctl => exact hwire .madctl
  | idmoff => exact hwire .idmoff
  | idmon => exact hwire .idmon
  | colmod => exact hwire .colmod
  | wrdisbv => exact hwire .wrdisbv
  | pwctrl1 => exact hwire .pwctrl1
  | pwctrl2 => exact hwire .pwctrl2
  | pwctrl3 => exact hwire .pwctrl3
  | vmctrl1 => exact hwire .vmctrl1
  | pgamctrl => exact hwire .pgamctrl
  | ngamctrl => exact hwire .ngamctrl
  | dgamctrl => exact hwire .dgamctrl
  | data b => exact congrArg Except.ok (decodeCycle_data B b)
  | writeCommand op => exact decodeLine_writeCommand B op
  | writeData bytes => exact congrArg (Except.map Instr.writeData) (asBytes_numsOfBytes bytes)
  | writeData16be words => exact congrArg (Except.map Instr.writeData16be) (asWords_numsOfWords words)
  | new k => exact congrArg (Except.map Instr.new) (asTransport_spelling k)
  | sendCommand op => exact congrArg (Except.map Instr.sendCommand) (asOpcode_mnemonic op)
  | sendData bytes => exact congrArg (Except.map Instr.sendData) (asBytes_numsOfBytes bytes)
  | setWindow x0 y0 x1 y1 =>
    simp only [encode, decodeRequest, decodeLine, numOfU16, asU16_toNat, if_true]
    rfl
  | writePixels words => exact congrArg (Except.map Instr.writePixels) (asWords_numsOfWords words)
  | fill color => exact decodeLine_fill B color
  | setPixelFormat f => exact congrArg (Except.map Instr.setPixelFormat) (asFormat_spelling f)
  | setOrientation o => exact congrArg (Except.map Instr.setOrientation) (asOrientation_spelling o)
  | setBrightness level => exact decodeLine_setBrightness B level
  | drawIter pixels => exact congrArg (Except.map Instr.drawIter) (asPixels_argOfPixels pixels)
  | initCmd op params =>
    simp only [encode, decodeRequest, decodeLine, asOpcode_mnemonic, asBytes_numsOfBytes, if_true]
    rfl
  | initDelay ms => exact congrArg (Except.map Instr.initDelay) (asNat_natCast ms)
  | readStatus | readData | assertReset | deassertReset | enable | disable | init | width | height | orientation | size => rfl

/-- Settles O4: a word is its kind and its byte (`CycleWord.mk_eta`), and a command cycle's byte is some member's or none's. -/
theorem everyCycleWordIsReadWhole : Obligations.EveryCycleWordIsReadWhole := by
  intro B w
  have heta := w.mk_eta
  unfold decodeCycle
  cases hkind : w.isData with
  | true =>
    rw [hkind] at heta
    exact .inl ⟨rfl, heta.symm⟩
  | false =>
    rw [hkind] at heta
    cases hop : B.opcode? w.byte with
    | some op =>
      refine .inr (.inl ⟨op, rfl, ?_⟩)
      rw [OpcodeBytes.byte_of_opcode? hop, heta]
    | none => exact .inr (.inr ⟨rfl, heta.symm, OpcodeBytes.ne_of_opcode?_none hop⟩)

/-- Settles O2: the decoder computes on each word and each line. -/
theorem writtenOutWordsDecode : Obligations.WrittenOutWordsDecode := by
  refine ⟨rfl, rfl, rfl, rfl, rfl, rfl, rfl, ?_, ?_, ?_⟩
  · decide
  · decide
  · decide

end Sys2Proof

namespace Sys2Proof.Machine

/-! ## The events of the acts -/

/-- The acts of a byte append its cycle's event, at the latch. -/
theorem byteActs_events (P : Params) (e : Error) (c : Cycle) : (byteActs P e c).flatMap Act.events = [c.event] := by
  simp [byteActs, Act.events, List.flatMap_map]

/-- The acts of a list of cycles append the cycles' events, whatever the transport. -/
theorem cycleActs_events (k : Transport) (P : Params) (l : List Cycle) : ∀ burst,
    (cycleActs k P burst l).flatMap Act.events = l.map Cycle.event := by
  induction l with
  | nil => exact fun _ => rfl
  | cons c rest ih =>
    intro burst
    cases c with
    | cmd b => cases k <;> simp [cycleActs, Act.events, byteActs_events, ih, Cycle.event]
    | dat b =>
      cases k with
      | parallel8 => cases burst <;> simp [cycleActs, Act.events, byteActs_events, ih]
      | serial => simp [cycleActs, Act.events, ih, Cycle.event]

theorem entryActs_events (k : Transport) (P : Params) (e : InitEntry) :
    (entryActs k P e).flatMap Act.events = entryEvents P.opcodes e := by
  cases e with
  | cmd op params => exact cycleActs_events k P _ false
  | delay ms => rfl

/-- The acts of an instruction that drives neither control line and asks for no delay are those of its cycles. -/
theorem actsOf_eq_cycles {i : Instr} (k : Transport) (P : Params) (c : Configuration) (hcontrol : drivesControl i = false)
    (hdelay : ∀ ms, i ≠ .initDelay ms) : actsOf k P c i = cycleActs k P false (busCycles P c i) := by
  cases i with
  | new | assertReset | deassertReset | enable | disable | init => cases hcontrol
  | initDelay ms => exact absurd rfl (hdelay ms)
  | _ => rfl

/-- The acts of an instruction append what it emits. -/
theorem actsOf_events (k : Transport) (P : Params) (c : Configuration) (i : Instr) :
    (actsOf k P c i).flatMap Act.events = emits P c i := by
  have hbus (hcontrol : drivesControl i = false) (hdelay : ∀ ms, i ≠ .initDelay ms) :
      (actsOf k P c i).flatMap Act.events = emits P c i := by
    rw [actsOf_eq_cycles k P c hcontrol hdelay, cycleActs_events, emits_eq_cycles P c hcontrol hdelay]
  cases i with
  | init =>
    have htable : (P.initTable.flatMap (entryActs k P)).flatMap Act.events = tableEvents P.opcodes P.initTable := by
      simp only [List.flatMap_assoc, entryActs_events, tableEvents]
    exact (List.flatMap_append ..).trans (congrArg (pulseEvents P ++ ·) htable)
  | new | assertReset | deassertReset | enable | disable | initDelay => rfl
  | _ => exact hbus rfl nofun

/-! ## The transcript -/

/-- The end of an instruction records nothing. -/
theorem conclude_trace (i : Instr) (c : Configuration) (r : Res) : (conclude i c r).trace = r.state.trace := by
  cases r with
  | ok u => rcases conclude_ok_cases i c u with h | ⟨k, h⟩ <;> rw [h] <;> rfl
  | err e u =>
    obtain ⟨d, h⟩ := conclude_err_eq i c e u
    rw [h]
    rfl

/-- Settles O14: the step of the instruction runs through its acts or stops after a first part of them (`body_follows`), the acts
append what the instruction emits (`actsOf_events`), and the end of the instruction records nothing. -/
theorem failedTranscriptIsAPrefix : Obligations.FailedTranscriptIsAPrefix := by
  intro i s t h
  have hacts := body_follows i s
  rw [eq_conclude_of_exec h, conclude_trace, ← actsOf_events s.transport]
  cases hr : body i s with
  | ok u =>
    rw [hr] at hacts
    obtain ⟨_, _, htrace⟩ := hacts
    exact ⟨_, htrace, List.prefix_refl _, fun _ => rfl⟩
  | err e u =>
    rw [hr] at hacts
    obtain ⟨done, line, event, rest, hdone, _, htrace, _⟩ := hacts
    obtain ⟨d, hd⟩ := conclude_err_eq i s.cfg e u
    refine ⟨_, htrace, ?_, fun hok => ?_⟩
    · rw [hdone, List.flatMap_append]
      exact List.prefix_append _ _
    · rw [hd] at hok
      cases hok

/-! ## Operations on the bus -/

/-- The last result plays no part in sending. -/
theorem Sent.withRet {l : List Cycle} {s t : State} (h : Sent l s t) (r : Ret) :
    Sent l { s with ret := r } { t with ret := r } where
  driver := h.driver
  transport := h.transport
  cfg := h.cfg
  cs := h.cs
  rst := h.rst
  seq := h.seq
  phase := h.phase
  ret := rfl
  par := h.par
  port := h.port
  trace := h.trace
  panel := h.panel.trans (heard_congr l { s with ret := r } s rfl rfl rfl rfl rfl rfl)
  free := h.free
  draws := h.draws

/-- Every instruction that drives neither control line, asks for no delay and returns `()` is an operation on the bus. -/
theorem busOperation_of_cycles {i : Instr} (s : State) (hcontrol : drivesControl i = false) (hdelay : ∀ ms, i ≠ .initDelay ms)
    (hunit : gives s.cfg i = .unit) (hdriver : callsDriver i = true → s.driver = true) :
    BusOperation i (busCycles s.par s.cfg i) s (State.okay { s with cfg := configurationAfter s.cfg true i })
      { s with cfg := configurationAfter s.cfg false i } := by
  have hnew : ∀ k, i ≠ .new k := by rintro k rfl; cases hcontrol
  have hread : i = .readStatus ∨ i = .readData → s.par.readMode = .stub := by rintro (rfl | rfl) <;> cases hunit
  have hsent := body_transfersTo s hcontrol hdelay
  have hacts := body_follows i s
  rw [actsOf_eq_cycles _ _ _ hcontrol hdelay] at hacts
  refine ⟨_, exec_eq_conclude hdriver hread, fun hpins => ?_, ?_⟩
  · obtain ⟨u, hu, _⟩ := body_fine i s hpins
    rw [hu, conclude_ok_ret, hunit]
  cases hr : body i s with
  | ok u =>
    rw [hr] at hsent hacts
    rw [conclude_ok hnew, hunit]
    exact .inl ⟨rfl, Sent.withRet hsent _, hacts⟩
  | err e u =>
    rw [hr] at hsent hacts
    obtain ⟨k, hk, hsent⟩ := hsent
    rw [conclude_err hnew]
    exact .inr ⟨e, k, u, hk, hsent, hacts, rfl⟩

/-- Settles O24: each of the 25 rows is an operation on the bus with one command cycle (`busOperation_of_cycles`). -/
theorem wireCommandsSendTheirCycle : Obligations.WireCommandsSendTheirCycle := by
  intro op s
  cases op <;> exact busOperation_of_cycles s rfl nofun rfl nofun

/-- Settles O25: DATA is an operation on the bus with one data cycle (`busOperation_of_cycles`). -/
theorem dataRowSendsItsByte : Obligations.DataRowSendsItsByte :=
  fun _ s => busOperation_of_cycles s rfl nofun rfl nofun

/-- Settles O36: a command entry is an operation on the bus with its frame (`busOperation_of_cycles`), a delay entry computes. -/
theorem initEntriesRun : Obligations.InitEntriesRun :=
  ⟨fun _ _ s => busOperation_of_cycles s rfl nofun rfl nofun, fun _ _ => rfl⟩

/-! ## Cycle counts -/

theorem length_frameCycles (B : OpcodeBytes) (op : Opcode) (params : List Byte) :
    (frameCycles B op params).length = 1 + params.length := by
  simp [frameCycles, Nat.add_comm]

theorem length_windowCycles (B : OpcodeBytes) (x0 y0 x1 y1 : U16) : (windowCycles B x0 y0 x1 y1).length = 10 := rfl

/-- A word is two bytes. -/
theorem length_streamBytes (ws : List U16) : (streamBytes ws).length = 2 * ws.length := by
  induction ws with
  | nil => rfl
  | cons w rest ih =>
    rw [List.length_cons, Nat.mul_succ, ← ih]
    rfl

theorem length_pixelCycles (B : OpcodeBytes) (ws : List U16) : (pixelCycles B ws).length = 1 + 2 * ws.length := by
  rw [pixelCycles, length_frameCycles, length_streamBytes]

theorem length_fillCycles (B : OpcodeBytes) {c : Configuration} (hc : c.legal) (color : U16) :
    (fillCycles B c color).length = 307212 := by
  obtain ⟨harea, _⟩ := hc
  have hcount : fillCount c = 153600 := harea
  simp only [fillCycles, List.length_append, length_windowCycles, length_pixelCycles, length_frameCycles,
    List.length_replicate, hcount, List.length_nil]

/-- A pair in bounds is a window and one word; a pair out of bounds is nothing. -/
theorem length_drawCycles (P : Params) (c : Configuration) (p : DrawPixel) :
    (drawCycles P c p).length = if inBounds P c p then 13 else 0 := by
  unfold drawCycles
  split <;> rfl

theorem length_flatMap_drawCycles (P : Params) (c : Configuration) (l : List DrawPixel) :
    (l.flatMap (drawCycles P c)).length = 13 * (l.filter (inBounds P c)).length := by
  induction l with
  | nil => rfl
  | cons p rest ih =>
    rw [List.flatMap_cons, List.length_append, length_drawCycles, ih, List.filter_cons]
    split
    · rw [List.length_cons]; omega
    · omega

/-- With pins that hold, an operation of the driver appends its events. -/
theorem exec_appends_emits {i : Instr} {s : State} (hpins : s.pinsHold) (hdriver : s.driver = true)
    (hcalls : callsDriver i = true) : ∃ t, exec i s = .next t ∧ t.trace = s.trace ++ emits s.par s.cfg i := by
  have hread : i = .readStatus ∨ i = .readData → s.par.readMode = .stub := by rintro (rfl | rfl) <;> cases hcalls
  obtain ⟨u, hu, _⟩ := body_fine i s hpins
  have hacts := body_follows i s
  rw [hu] at hacts
  obtain ⟨_, _, htrace⟩ := hacts
  refine ⟨_, exec_eq_conclude (fun _ => hdriver) hread, ?_⟩
  rw [conclude_trace, hu, ← actsOf_events s.transport]
  exact htrace

/-- Settles O42: each operation appends its events (`exec_appends_emits`), one for each of its cycles, and their number is told
by the lengths of its frames. -/
theorem cycleCounts : Obligations.CycleCounts := by
  intro s hpins hdriver
  have hevents {i : Instr} {n : Nat} (hcalls : callsDriver i = true) (hn : (emits s.par s.cfg i).length = n) :
      ∃ t, exec i s = .next t ∧ t.trace.length = s.trace.length + n := by
    obtain ⟨t, ht, htrace⟩ := exec_appends_emits hpins hdriver hcalls
    exact ⟨t, ht, by rw [htrace, List.length_append, hn]⟩
  have hcycles {i : Instr} {n : Nat} (hcalls : callsDriver i = true) (hcontrol : drivesControl i = false)
      (hn : (busCycles s.par s.cfg i).length = n) : ∃ t, exec i s = .next t ∧ t.trace.length = s.trace.length + n := by
    have hdelay : ∀ ms, i ≠ .initDelay ms := by rintro ms rfl; cases hcalls
    exact hevents hcalls (by rw [emits_eq_cycles _ _ hcontrol hdelay, List.length_map, hn])
  refine ⟨fun x0 y0 x1 y1 => ?_, fun ws => ?_, fun f => ?_, fun o => ?_, fun l => ?_, fun hlegal c => ?_, fun ps => ?_, ?_⟩
  · exact hcycles rfl rfl (length_windowCycles _ x0 y0 x1 y1)
  · exact hcycles rfl rfl (length_pixelCycles _ ws)
  · exact hcycles rfl rfl (length_frameCycles _ .colmod [fmtByte f])
  · exact hcycles rfl rfl (length_frameCycles _ .madctl [orientByte o])
  · exact hcycles rfl rfl (length_frameCycles _ .wrdisbv [l])
  · exact hcycles rfl rfl (length_fillCycles _ hlegal c)
  · exact hcycles rfl rfl (length_flatMap_drawCycles _ _ ps)
  · rw [Nat.add_assoc]
    refine hevents (i := .init) rfl ?_
    show (pulseEvents s.par ++ tableEvents s.par.opcodes s.par.initTable).length = _
    rw [List.length_append, tableEvents, List.length_flatMap]
    refine congrArg (6 + ·) (congrArg List.sum (List.map_congr_left fun e _ => ?_))
    cases e with
    | cmd op params => exact (List.length_map _).trans (length_frameCycles _ op params)
    | delay ms => rfl

end Sys2Proof.Machine

namespace Sys2Proof.Machine

/-! ## Where an instruction stops -/

/-- An operation of the driver faults where none exists (R130). -/
theorem exec_of_noDriver {i : Instr} {s : State} (hcalls : callsDriver i = true) (hdriver : s.driver = false) :
    exec i s = .fault .noDriver := by
  have hfault (r : Host.Outcome State Fault Refusal) : onDriver s r = .fault .noDriver := by
    rw [onDriver, hdriver]
    rfl
  cases i with
  | assertReset | deassertReset | enable | disable | init | sendCommand | sendData | setWindow | writePixels | fill
  | setPixelFormat | setOrientation | setBrightness | width | height | orientation | drawIter | size => exact hfault _
  | _ => cases hcalls

/-- A wired read is refused (R106). -/
theorem readStub_of_wired {s : State} (h : s.par.readMode = .wired) : readStub s = .refused .readPathWired := by
  rw [readStub, h]

/-- A read of the stub answers 0 and does nothing else (R104, R105). -/
theorem readStub_of_stub {s : State} (h : s.par.readMode = .stub) : readStub s = .next { s with ret := .ok (.byte 0) } := by
  rw [readStub, h]
  rfl

/-- Settles O29: both operations are `readStub`, which looks at the read mode only. -/
theorem readsReturnZeroOrAreRefused : Obligations.ReadsReturnZeroOrAreRefused :=
  fun _ => ⟨fun h => ⟨readStub_of_stub h, readStub_of_stub h⟩, fun h => ⟨readStub_of_wired h, readStub_of_wired h⟩⟩

/-- An instruction that answers a next state had the driver it needs, and was no wired read. -/
theorem needs_of_exec {i : Instr} {s t : State} (h : exec i s = .next t) :
    (callsDriver i = true → s.driver = true) ∧ (i = .readStatus ∨ i = .readData → s.par.readMode = .stub) := by
  refine ⟨fun hcalls => ?_, fun hread => ?_⟩
  · by_contra hdriver
    rw [exec_of_noDriver hcalls (Bool.eq_false_of_not_eq_true hdriver)] at h
    cases h
  · cases hmode : s.par.readMode with
    | stub => rfl
    | wired =>
      have hrefused : exec i s = .refused .readPathWired := by
        rcases hread with rfl | rfl <;> exact readStub_of_wired hmode
      rw [hrefused] at h
      cases h

/-- Settles O16: `exec_cases` says what an instruction can do, and `needs_of_exec` what one that answers a next state had. -/
theorem stopsOnlyWithoutDriverOrWiredRead : Obligations.StopsOnlyWithoutDriverOrWiredRead := by
  intro i s
  rcases exec_cases i s with hnext | hfault | hrefused
  · obtain ⟨hdriver, hread⟩ := needs_of_exec hnext
    exact .inr (.inr ⟨hdriver, hread, _, hnext⟩)
  · exact .inl hfault
  · exact .inr (.inl hrefused)

/-! ## The two transports -/

/-- The state with the transport and what belongs to it alone left out: its lines and the draws it uses. -/
def State.shown (s : State) : State :=
  { s with
    transport := .parallel8
    pins := { s.pins with dc := .unknown, wr := .unknown, d := unknownLines }
    draws := [] }

/-- The panel hears the same whatever the transport. -/
theorem heard_shown (l : List Cycle) : ∀ s : State, (s.heard l).shown = s.shown.heard l := by
  induction l with
  | nil => exact fun _ => rfl
  | cons c rest ih => exact fun s => ih (s.latched c)

/-- But for the transport, a state after some cycles is the state that has heard them. -/
theorem Sent.shown {l : List Cycle} {s t : State} (h : Sent l s t) : t.shown = s.shown.heard l := by
  rw [← heard_shown, heard_frame]
  simp only [State.shown, h.driver, h.cfg, h.cs, h.rst, h.seq, h.phase, h.ret, h.par, h.port, h.trace, h.panel, h.free]

/-- Two states whose pins hold and that differ in the transport and what belongs to it only. -/
structure Twin (s s' : State) : Prop where
  pinsHold : s.pinsHold
  pinsHold' : s'.pinsHold
  shown : s.shown = s'.shown

/-- Two steps that succeed and leave twins. -/
def Res.twins (r r' : Res) : Prop := ∃ t t', r = .ok t ∧ r' = .ok t' ∧ Twin t t'

/-- What is read of a state outside the transport is the same of its twin. -/
theorem Twin.read {α : Type} {s s' : State} (h : Twin s s') (g : State → α) (hg : ∀ s, g s.shown = g s) : g s = g s' := by
  rw [← hg s, h.shown, hg s']

/-- An update outside the transport leaves twins. -/
theorem Twin.update {s s' : State} (h : Twin s s') (g : State → State) (hg : ∀ s, (g s).shown = g s.shown)
    (hdraws : ∀ s, (g s).draws <:+ s.draws) : Twin (g s) (g s') where
  pinsHold d hd := h.pinsHold d ((hdraws s).subset hd)
  pinsHold' d hd := h.pinsHold' d ((hdraws s').subset hd)
  shown := by rw [hg, h.shown, hg]

theorem Res.twins.bind {r r' : Res} (h : r.twins r') {f f' : State → Res} (hf : ∀ t t', Twin t t' → (f t).twins (f' t')) :
    (r.bind f).twins (r'.bind f') := by
  obtain ⟨t, t', rfl, rfl, htwin⟩ := h
  exact hf t t' htwin

theorem forEach_twins {α : Type} {f : α → State → Res} (hf : ∀ a s s', Twin s s' → (f a s).twins (f a s')) (l : List α) :
    ∀ s s', Twin s s' → (forEach f l s).twins (forEach f l s') := by
  induction l with
  | nil => exact fun s s' h => ⟨s, s', rfl, rfl, h⟩
  | cons a rest ih => exact fun s s' h => (hf a s s' h).bind ih

/-- Two steps that succeed when the pins hold and send the same cycles leave twins. -/
theorem Res.twins_of_transfersTo {l : List Cycle} {s s' done done' failed failed' : State} {r r' : Res} (h : Twin s s')
    (hdone : done.shown = done'.shown) (hr : r.transfersTo l done failed) (hr' : r'.transfersTo l done' failed')
    (hfine : r.fine s) (hfine' : r'.fine s') : r.twins r' := by
  obtain ⟨t, rfl, ht⟩ := hfine h.pinsHold
  obtain ⟨t', rfl, ht'⟩ := hfine' h.pinsHold'
  have hsent : Sent l done t := hr
  have hsent' : Sent l done' t' := hr'
  exact ⟨t, t', rfl, rfl, ht, ht', by rw [hsent.shown, hsent'.shown, hdone]⟩

theorem driveCs_twins (l : Level) {s s' : State} (h : Twin s s') : (driveCs l s).twins (driveCs l s') :=
  ⟨_, _, drive_of_pinsHold h.pinsHold .cs l .cs, drive_of_pinsHold h.pinsHold' .cs l .cs,
    h.update (fun s => s.drawn.driven .cs l) (fun _ => rfl) fun _ => List.tail_suffix _⟩

theorem driveRst_twins (l : Level) {s s' : State} (h : Twin s s') : (driveRst l s).twins (driveRst l s') := by
  refine ⟨_, _, drive_of_pinsHold h.pinsHold .rst l .reset, drive_of_pinsHold h.pinsHold' .rst l .reset,
    h.update (fun s => (s.drawn.attempt .rst l).driven .rst l) (fun _ => ?_) fun s => ?_⟩
  · cases l <;> rfl
  · rw [driven_draws, attempt_draws]
    exact List.tail_suffix _

/-- A delay leaves twins, if its number is read outside the transport. -/
theorem Twin.delay {s s' : State} (h : Twin s s') (n : Params → Nat) :
    Twin (s.delayMs (n s.par)) (s'.delayMs (n s'.par)) :=
  h.update (fun s => s.delayMs (n s.par)) (fun _ => rfl) fun _ => List.suffix_refl _

theorem Twin.withSeq {s s' : State} (h : Twin s s') (q : Option Nat → Option Nat) :
    Twin { s with seq := q s.seq } { s' with seq := q s'.seq } :=
  h.update (fun s => { s with seq := q s.seq }) (fun _ => rfl) fun _ => List.suffix_refl _

theorem resetPulse_twins {s s' : State} (h : Twin s s') : (resetPulse s).twins (resetPulse s') :=
  (driveCs_twins .high h).bind fun _ _ ht => (driveRst_twins .low ht).bind fun _ _ hu =>
    (driveRst_twins .high (hu.delay Params.resetPulseMs)).bind fun _ _ hv => driveCs_twins .low (hv.delay Params.resetSettleMs)

theorem runEntry_twins (e : InitEntry) {s s' : State} (h : Twin s s') : (runEntry e s).twins (runEntry e s') := by
  cases e with
  | cmd op params =>
    have hsent := sendFrame_transfers op params s
    rw [h.read State.par fun _ => rfl] at hsent
    exact Res.twins_of_transfersTo h h.shown hsent.to (sendFrame_transfers op params s').to (sendFrame_fine op params s)
      (sendFrame_fine op params s')
  | delay ms => exact ⟨_, _, rfl, rfl, h.delay fun _ => ms⟩

theorem sequence_twins (e : InitEntry) (s s' : State) (h : Twin s s') : (sequence e s).twins (sequence e s') :=
  (runEntry_twins e h).bind fun _ _ ht => ⟨_, _, rfl, rfl, ht.withSeq (Option.map (· + 1))⟩

theorem runTable_twins {s s' : State} (h : Twin s s') : (runTable s).twins (runTable s') := by
  unfold runTable
  rw [h.read (fun s => s.par.initTable) fun _ => rfl]
  refine (forEach_twins sequence_twins _ _ _ (h.withSeq fun _ => some 0)).bind fun _ _ ht => ⟨_, _, rfl, rfl, ?_⟩
  exact ht.update (fun s => { s with seq := none, phase := .ready }) (fun _ => rfl) fun _ => List.suffix_refl _

theorem bringUp_twins {s s' : State} (h : Twin s s') : (bringUp s).twins (bringUp s') := by
  have hstart : Twin { s.uninitialize with seq := none } { s'.uninitialize with seq := none } :=
    h.update (fun s => { s.uninitialize with seq := none }) (fun _ => rfl) fun _ => List.suffix_refl _
  exact (resetPulse_twins hstart).bind fun _ _ => runTable_twins

/-- The step of every instruction but `new` leaves twins: it sends the same cycles, or makes the same drives of the control
lines. -/
theorem body_twins {i : Instr} {s s' : State} (hnew : ∀ k, i ≠ .new k) (h : Twin s s') : (body i s).twins (body i s') := by
  have hbus (hcontrol : drivesControl i = false) (hdelay : ∀ ms, i ≠ .initDelay ms) : (body i s).twins (body i s') := by
    have hpar := h.read State.par fun _ => rfl
    have hcfg := h.read State.cfg fun _ => rfl
    have hdone := h.update (fun s => { s with cfg := configurationAfter s.cfg true i }) (fun _ => rfl) fun _ =>
      List.suffix_refl _
    have hsent := body_transfersTo s hcontrol hdelay
    rw [show busCycles s.par s.cfg i = busCycles s'.par s'.cfg i by rw [hpar, hcfg]] at hsent
    exact Res.twins_of_transfersTo h hdone.shown hsent (body_transfersTo s' hcontrol hdelay) (body_fine i s) (body_fine i s')
  cases i with
  | new k => exact absurd rfl (hnew k)
  | assertReset => exact driveRst_twins .low h
  | deassertReset => exact driveRst_twins .high h
  | enable => exact driveCs_twins .low h
  | disable => exact driveCs_twins .high h
  | init => exact bringUp_twins h
  | initDelay ms => exact runEntry_twins (.delay ms) h
  | _ => exact hbus rfl nofun

/-- Settles O22: the two states are twins, the step of the instruction leaves twins (`body_twins`), and twins show the same. -/
theorem transportsAgree : Obligations.TransportsAgree := by
  intro i s hnew hpins hdriver hmode
  have htwin : Twin { s with transport := .parallel8 } { s with transport := .serial } := ⟨hpins, hpins, rfl⟩
  obtain ⟨t, u, ht, hu, htu⟩ := body_twins hnew htwin
  have hexec (k : Transport) := exec_eq_conclude (i := i) (s := { s with transport := k }) (fun _ => hdriver) fun _ => hmode
  have hparallel := hexec .parallel8
  have hserial := hexec .serial
  rw [ht, conclude_ok hnew] at hparallel
  rw [hu, conclude_ok hnew] at hserial
  refine ⟨_, _, hparallel, hserial, ?_⟩
  have hread {α : Type} (g : State → α) (hg : ∀ s, g s.shown = g s) : g t = g u := htu.read g hg
  exact ⟨hread State.trace fun _ => rfl, rfl, hread State.cfg fun _ => rfl, hread State.phase fun _ => rfl,
    hread State.seq fun _ => rfl, hread State.panel fun _ => rfl, hread (fun s => s.pins.cs) fun _ => rfl,
    hread (fun s => s.pins.rst) fun _ => rfl⟩

end Sys2Proof.Machine

namespace Sys2Proof.Machine

/-! ## The first draw that fails -/

@[simp] theorem Act.isDrive_drive (line : Option Pin) (e : Error) (event : Option Event) :
    (Act.drive line e event).isDrive = true := rfl

/-- The acts of a byte are drives. -/
theorem byteActs_isDrive (P : Params) (e : Error) (c : Cycle) : ∀ a ∈ byteActs P e c, a.isDrive = true := by
  simp [byteActs, or_imp, forall_and]

/-- The acts of a list of cycles are drives. -/
theorem cycleActs_isDrive (k : Transport) (P : Params) (l : List Cycle) :
    ∀ burst, ∀ a ∈ cycleActs k P burst l, a.isDrive = true := by
  have hbyte := byteActs_isDrive P
  induction l with
  | nil => exact fun _ _ ha => absurd ha List.not_mem_nil
  | cons c rest ih =>
    intro burst
    cases c with
    | cmd b =>
      cases k with
      | parallel8 => simpa [cycleActs, or_imp, forall_and] using ⟨hbyte _ _, ih false⟩
      | serial => simpa [cycleActs, or_imp, forall_and] using ih false
    | dat b =>
      cases k with
      | parallel8 => cases burst <;> simpa [cycleActs, or_imp, forall_and] using ⟨hbyte _ _, ih true⟩
      | serial => simpa [cycleActs, or_imp, forall_and] using ih true

/-- An instruction whose acts are all drives ends by the draws: at the first that fails, if it has so many drives; else it
succeeds. -/
theorem exec_first_fails {i : Instr} {s t : State} (h : exec i s = .next t) {l : List Act}
    (hl : actsOf s.transport s.par s.cfg i = l) (hdrives : ∀ a ∈ l, a.isDrive = true) {n : Nat} {ds : List Draw}
    (hd : s.draws = List.replicate n .succeeds ++ .fails :: ds) :
    (n < l.length → ∃ line e event, l[n]? = some (.drive line e event) ∧ t.ret = .err e ∧
      t.trace = s.trace ++ (l.take n).flatMap Act.events ∧ t.draws = ds ∧ ∀ p, line = some p → t.pins.level? p = some .unknown) ∧
    (l.length ≤ n → t.ret = .ok (gives s.cfg i) ∧ t.trace = s.trace ++ l.flatMap Act.events) := by
  have hacts := body_follows i s
  rw [hl] at hacts
  obtain ⟨hfails, hruns⟩ := Res.follows_first_fails hacts hdrives hd
  rw [eq_conclude_of_exec h, conclude_trace]
  refine ⟨fun hn => ?_, fun hn => ?_⟩
  · obtain ⟨e, u, line, event, hr, hact, htrace, hdraws, hline⟩ := hfails hn
    obtain ⟨d, hend⟩ := conclude_err_eq i s.cfg e u
    rw [hr, hend]
    exact ⟨line, e, event, hact, rfl, htrace, hdraws, hline⟩
  · obtain ⟨u, hr, htrace⟩ := hruns hn
    rw [hr]
    exact ⟨conclude_ok_ret i _ u, htrace⟩

/-- With pins that hold an instruction that answers a next state succeeds, with the events of its acts. -/
theorem exec_of_pinsHold {i : Instr} {s t : State} (h : exec i s = .next t) (hpins : s.pinsHold) :
    t.ret = .ok (gives s.cfg i) ∧ t.trace = s.trace ++ (actsOf s.transport s.par s.cfg i).flatMap Act.events := by
  have hacts := body_follows i s
  obtain ⟨u, hu, _⟩ := body_fine i s hpins
  rw [hu] at hacts
  obtain ⟨_, _, htrace⟩ := hacts
  rw [eq_conclude_of_exec h, conclude_trace, hu]
  exact ⟨conclude_ok_ret i _ u, htrace⟩

/-- No draw of a list fails, or some draw is the first that does. -/
theorem draws_cases (l : List Draw) :
    (∀ d ∈ l, d = .succeeds) ∨ ∃ n ds, l = List.replicate n Draw.succeeds ++ .fails :: ds := by
  induction l with
  | nil => exact .inl nofun
  | cons d rest ih =>
    cases d with
    | fails => exact .inr ⟨0, rest, rfl⟩
    | succeeds =>
      rcases ih with hall | ⟨n, ds, rfl⟩
      · exact .inl (List.forall_mem_cons.mpr ⟨rfl, hall⟩)
      · exact .inr ⟨n + 1, ds, rfl⟩

/-- What an instruction on the bus appends and returns is told by the draws, the acts it has and the transcript before. -/
theorem exec_told_by_draws {i : Instr} {s s' t t' : State} {l : List Act} (h : exec i s = .next t) (h' : exec i s' = .next t')
    (hl : actsOf s.transport s.par s.cfg i = l) (hl' : actsOf s'.transport s'.par s'.cfg i = l)
    (hdrives : ∀ a ∈ l, a.isDrive = true) (hcfg : s'.cfg = s.cfg) (htrace : s'.trace = s.trace) (hdraws : s'.draws = s.draws) :
    t'.trace = t.trace ∧ t'.ret = t.ret := by
  rcases draws_cases s.draws with hall | ⟨n, ds, hd⟩
  · obtain ⟨hret, hend⟩ := exec_of_pinsHold h hall
    obtain ⟨hret', hend'⟩ := exec_of_pinsHold h' (by unfold State.pinsHold; rwa [hdraws])
    rw [hend, hend', hret, hret', hl, hl', htrace, hcfg]
    exact ⟨rfl, rfl⟩
  · obtain ⟨hfails, hruns⟩ := exec_first_fails h hl hdrives hd
    obtain ⟨hfails', hruns'⟩ := exec_first_fails h' hl' hdrives (hdraws.trans hd)
    rcases Nat.lt_or_ge n l.length with hn | hn
    · obtain ⟨_, e, _, hact, hret, hend, _⟩ := hfails hn
      obtain ⟨_, e', _, hact', hret', hend', _⟩ := hfails' hn
      rw [hact] at hact'
      cases hact'
      rw [hend, hend', hret, hret', htrace]
      exact ⟨rfl, rfl⟩
    · obtain ⟨hret, hend⟩ := hruns hn
      obtain ⟨hret', hend'⟩ := hruns' hn
      rw [hend, hend', hret, hret', htrace, hcfg]
      exact ⟨rfl, rfl⟩

/-! ## The Bus Transport -/

/-- An instruction that drives neither control line and asks for no delay leaves both lines and records no drive of them. -/
theorem exec_leaves_controlLines {i : Instr} {s t : State} (hcontrol : drivesControl i = false)
    (hdelay : ∀ ms, i ≠ .initDelay ms) (h : exec i s = .next t) :
    t.pins.cs = s.pins.cs ∧ t.pins.rst = s.pins.rst ∧ ∀ e ∈ t.trace.drop s.trace.length, ∀ k l, e ≠ .pin k l := by
  have hnew : ∀ k, i ≠ .new k := by rintro k rfl; cases hcontrol
  obtain ⟨k, s₀, hs₀, hsent⟩ := (body_transfersTo s hcontrol hdelay).state_sent
  have hstart : s₀.pins = s.pins ∧ s₀.trace = s.trace := by
    rcases hs₀ with rfl | rfl <;> exact ⟨rfl, rfl⟩
  obtain ⟨hpins, htrace⟩ := hstart
  have hend : t.pins = (body i s).state.pins := by
    rw [eq_conclude_of_exec h]
    cases body i s with
    | ok u => rw [conclude_ok hnew]; rfl
    | err e u => rw [conclude_err hnew]; rfl
  refine ⟨by rw [hend, hsent.cs, hpins], by rw [hend, hsent.rst, hpins], ?_⟩
  rw [eq_conclude_of_exec h, conclude_trace, hsent.trace, htrace, List.drop_left]
  simp [cycle_event_ne_pin]

/-- An instruction that drives neither control line and asks for no delay does not look at their levels either. -/
theorem exec_ignores_controlLines {i : Instr} {s t : State} (hcontrol : drivesControl i = false)
    (hdelay : ∀ ms, i ≠ .initDelay ms) (h : exec i s = .next t) (v w : LineState) :
    ∃ u, exec i { s with pins := { s.pins with cs := v, rst := w } } = .next u ∧ u.trace = t.trace ∧ u.ret = t.ret := by
  obtain ⟨hdriver, hread⟩ := needs_of_exec h
  have hexec := exec_eq_conclude (i := i) (s := { s with pins := { s.pins with cs := v, rst := w } }) hdriver hread
  have hacts := actsOf_eq_cycles s.transport s.par s.cfg hcontrol hdelay
  exact ⟨_, hexec, exec_told_by_draws h hexec hacts hacts (cycleActs_isDrive _ _ _ _) rfl rfl rfl⟩

/-- Settles O30: the five operations drive neither control line (`exec_leaves_controlLines`), and what they append and return
is told by the draws alone (`exec_ignores_controlLines`). -/
theorem transportLeavesControlLines : Obligations.TransportLeavesControlLines := by
  intro i s t v w hi h
  have hkind : drivesControl i = false ∧ ∀ ms, i ≠ .initDelay ms := by
    rcases hi with ⟨b, rfl⟩ | ⟨bs, rfl⟩ | ⟨ws, rfl⟩ | rfl | rfl <;> exact ⟨rfl, nofun⟩
  obtain ⟨hcontrol, hdelay⟩ := hkind
  obtain ⟨hcs, hrst, hevents⟩ := exec_leaves_controlLines hcontrol hdelay h
  exact ⟨hcs, hrst, hevents, exec_ignores_controlLines hcontrol hdelay h v w⟩

/-! ### The drives of the parallel transport -/

theorem length_byteActs (P : Params) (e : Error) (c : Cycle) : (byteActs P e c).length = 10 := by
  simp [byteActs, lineOrder]

/-- The acts of a command cycle on the parallel transport: ten drives before the one that latches, and the restore of DC after
it (R110, R112). -/
theorem commandActs_split (P : Params) (b : Byte) : ∃ silent : List Act, silent.length = 10 ∧ silent.flatMap Act.events = [] ∧
    cycleActs .parallel8 P false [.cmd b] =
      silent ++ [.drive (some .wr) (.bus .command) (some (.cmd b)), .drive (some .dc) (.bus .command) none] := by
  refine ⟨.drive (some .dc) (.bus .command) none ::
    ((lineOrder P.dataOrder).map (fun i => .drive (some (.d i)) (.bus .command) none) ++
      [.drive (some .wr) (.bus .command) none]), ?_, ?_, ?_⟩
  · simp [lineOrder]
  · simp [Act.events, List.flatMap_map]
  · simp [cycleActs, byteActs, Cycle.event]

/-- A burst that is open takes ten drives a byte (R111). -/
theorem length_burstActs (P : Params) (bs : List Byte) : (cycleActs .parallel8 P true (bs.map .dat)).length = 10 * bs.length := by
  rw [cycleActs_dats]
  induction bs with
  | nil => rfl
  | cons b rest ih =>
    have hone : (cycleActs .parallel8 P true [.dat b]).length = 10 := by
      simp [cycleActs, length_byteActs]
    rw [List.flatMap_cons, List.length_append, ih, hone, List.length_cons]
    omega

/-- A success of an instruction whose acts are drives uses one draw for each. -/
theorem draws_of_exec_ok {i : Instr} {s t : State} {v : Value} {l : List Act} (h : exec i s = .next t) (hret : t.ret = .ok v)
    (hl : actsOf s.transport s.par s.cfg i = l) (hdrives : ∀ a ∈ l, a.isDrive = true) : t.draws = s.draws.drop l.length := by
  obtain ⟨hok, _⟩ := stateAfterAnError i s t h
  obtain ⟨_, hdraws, _⟩ := hok (by rw [hret]; rfl)
  rw [hdraws, hl, driveCount, List.countP_eq_length.mpr hdrives]

/-- Settles O31: a success uses one draw for each of its acts (`draws_of_exec_ok`), and their number is told by
`commandActs_split` and `length_burstActs`. -/
theorem drivesOfTheParallelTransport : Obligations.DrivesOfTheParallelTransport := by
  intro s t hparallel hret
  have hdraws {i : Instr} {l : List Cycle} (h : exec i s = .next t)
      (hl : actsOf s.transport s.par s.cfg i = cycleActs s.transport s.par false l) :
      t.draws = s.draws.drop (cycleActs .parallel8 s.par false l).length := by
    rw [← hparallel]
    exact draws_of_exec_ok h hret hl (cycleActs_isDrive _ _ _ _)
  refine ⟨fun b h => ?_, fun b bs h => ?_, fun h => ?_⟩
  · obtain ⟨silent, hsilent, _, hacts⟩ := commandActs_split s.par b
    have hcommand := hdraws (l := [.cmd b]) h rfl
    rwa [hacts, List.length_append, hsilent] at hcommand
  · have hburst := hdraws (l := (b :: bs).map .dat) h rfl
    rw [List.map_cons, cycleActs_burst, List.length_append, ← List.map_cons, length_burstActs] at hburst
    exact hburst
  · exact hdraws (l := []) h rfl

/-! ### What each operation sends -/

/-- A success of an instruction is the end of a step that succeeded. -/
theorem body_of_exec_ok {i : Instr} {s t : State} {v : Value} (h : exec i s = .next t) (hret : t.ret = .ok v) :
    ∃ u, body i s = .ok u ∧ t = conclude i s.cfg (.ok u) := by
  have ht := eq_conclude_of_exec h
  cases hr : body i s with
  | ok u => exact ⟨u, rfl, hr ▸ ht⟩
  | err e u =>
    obtain ⟨d, hend⟩ := conclude_err_eq i s.cfg e u
    rw [ht, hr, hend] at hret
    cases hret

/-- The one error of `write_command` (R302). -/
theorem writeCommand_error {b : Byte} {s t : State} {e : Error} (h : exec (.writeCommand b) s = .next t) (hret : t.ret = .err e) :
    e = .bus .command := by
  have hraises : (body (.writeCommand b) s).raisesOnly (.bus .command) := writeCommand_raises b s
  rw [eq_conclude_of_exec h] at hret
  cases hr : body (.writeCommand b) s with
  | ok u => rw [hr] at hret; cases hret
  | err e' u =>
    rw [hr] at hret hraises
    cases hret
    exact hraises

/-- What `write_command` does on the parallel transport when its draw `n` is the first that fails: the eleventh drive latches,
the twelfth restores DC. -/
theorem writeCommand_first_fails_parallel {b : Byte} {s t : State} (h : exec (.writeCommand b) s = .next t)
    (hparallel : s.transport = .parallel8) {n : Nat} {ds : List Draw} (hd : s.draws = List.replicate n .succeeds ++ .fails :: ds) :
    (n < 11 → t.ret = .err (.bus .command) ∧ t.trace = s.trace ∧ t.draws = ds) ∧
    (n = 11 → t.ret = .err (.bus .command) ∧ t.trace = s.trace ++ [.cmd b] ∧ t.draws = ds ∧ t.pins.dc = .unknown) ∧
    (11 < n → t.ret = .ok .unit ∧ t.trace = s.trace ++ [.cmd b]) := by
  obtain ⟨silent, hlength, hsilent, hacts⟩ := commandActs_split s.par b
  have hl : actsOf s.transport s.par s.cfg (.writeCommand b) = silent ++ [.drive (some .wr) (.bus .command) (some (.cmd b)),
      .drive (some .dc) (.bus .command) none] := by
    rw [← hacts, hparallel]
    rfl
  obtain ⟨hfails, hruns⟩ := exec_first_fails h hl (hacts ▸ cycleActs_isDrive _ _ _ _) hd
  rw [List.length_append, hlength] at hfails hruns
  refine ⟨fun hn => ?_, ?_, fun hn => ?_⟩
  · obtain ⟨_, e, _, _, hret, htrace, hdraws, _⟩ := hfails (Nat.lt_succ_of_lt hn)
    have hnone : (silent.take n).flatMap Act.events = [] :=
      List.flatMap_eq_nil_iff.mpr fun a ha => List.flatMap_eq_nil_iff.mp hsilent a (List.mem_of_mem_take ha)
    rw [List.take_append_of_le_length (by omega), hnone, List.append_nil] at htrace
    exact ⟨writeCommand_error h hret ▸ hret, htrace, hdraws⟩
  · rintro rfl
    obtain ⟨_, e, _, hact, hret, htrace, hdraws, hline⟩ := hfails (Nat.lt_succ_self 11)
    rw [List.getElem?_append_right (by omega), hlength] at hact
    cases hact
    rw [List.take_append, hlength, List.take_of_length_le (by omega), List.flatMap_append, hsilent] at htrace
    exact ⟨hret, htrace, hdraws, Option.some.inj (hline .dc rfl)⟩
  · obtain ⟨hret, htrace⟩ := hruns hn
    rw [List.flatMap_append, hsilent] at htrace
    exact ⟨hret, htrace⟩

/-- What `write_command` does on the serial transport when its draw `n` is the first that fails: it has one. -/
theorem writeCommand_first_fails_serial {b : Byte} {s t : State} (h : exec (.writeCommand b) s = .next t)
    (hserial : s.transport = .serial) {n : Nat} {ds : List Draw} (hd : s.draws = List.replicate n .succeeds ++ .fails :: ds) :
    (n = 0 → t.ret = .err (.bus .command) ∧ t.trace = s.trace ∧ t.draws = ds) ∧
    (0 < n → t.ret = .ok .unit ∧ t.trace = s.trace ++ [.cmd b]) := by
  have hl : actsOf s.transport s.par s.cfg (.writeCommand b) = [.drive none (.bus .command) (some (.cmd b))] := by
    rw [hserial]
    rfl
  obtain ⟨hfails, hruns⟩ := exec_first_fails h hl (by simp [Act.isDrive]) hd
  refine ⟨?_, hruns⟩
  rintro rfl
  obtain ⟨_, e, _, _, hret, htrace, hdraws, _⟩ := hfails Nat.one_pos
  exact ⟨writeCommand_error h hret ▸ hret, htrace.trans (List.append_nil _), hdraws⟩

/-- Settles O26: `write_command` is an operation on the bus with one command cycle (`busOperation_of_cycles`), its lines are
those of `writeCommand_pins`, and which of its drives fails settles the rest. -/
theorem writeCommandSendsOneCycle : Obligations.WriteCommandSendsOneCycle := by
  intro b s
  refine ⟨busOperation_of_cycles s rfl nofun rfl nofun, fun t h hret hparallel => ?_, fun n ds hd => ?_⟩
  · obtain ⟨u, hu, rfl⟩ := body_of_exec_ok h hret
    exact writeCommand_pins (t := u) hparallel hu
  · have hexec := exec_eq_conclude (i := .writeCommand b) (s := s) nofun nofun
    exact ⟨_, hexec, fun hparallel => writeCommand_first_fails_parallel hexec hparallel hd,
      fun hserial => writeCommand_first_fails_serial hexec hserial hd⟩

/-- The lines a successful burst that ends in the byte `b` leaves on the parallel transport (R111). -/
theorem writeData_pins {bs : List Byte} {b : Byte} {s t : State} (hparallel : s.transport = .parallel8)
    (h : writeData (bs ++ [b]) s = .ok t) :
    t.pins = { s.pins with dc := .known (dataDcLevel s.par), wr := .known .high, d := linesOf b } := by
  have hburst : writeData (bs ++ [b]) s = (beginBurst s).bind (forEach dataCycle (bs ++ [b])) := by
    cases bs <;> rfl
  rw [hburst] at h
  obtain ⟨u, hu, ht⟩ := Res.bind_eq_ok h
  have hsent := beginBurst_sends s
  rw [hu] at hsent
  have hsent : Sent [] s u := hsent
  have hpins : u.pins = s.pins.set .dc (.known (dataDcLevel s.par)) := by
    rw [beginBurst, hparallel] at hu
    exact drive_pins (line := .dc) trivial (by simp) hu
  rw [dataCycles_pins bs b (hsent.transport.trans hparallel) (beginBurst_inBurst hu) ht, hpins]
  rfl

/-- Settles O27: `write_data` is an operation on the bus with one data cycle a byte (`busOperation_of_cycles`), an empty one
computes, and the lines are those of `writeData_pins`. -/
theorem writeDataSendsItsBytes : Obligations.WriteDataSendsItsBytes := by
  refine ⟨fun bs s => busOperation_of_cycles s rfl nofun rfl nofun, fun _ => rfl, fun bs b s t h hret hparallel => ?_⟩
  obtain ⟨u, hu, rfl⟩ := body_of_exec_ok h hret
  exact writeData_pins (t := u) hparallel hu

theorem hi8_toNat (w : U16) : (hi8 w).toNat = w.toNat / 256 := by
  have hlt : w.toNat < 65536 := w.isLt
  rw [hi8, BitVec.extractLsb'_toNat, Nat.shiftRight_eq_div_pow]
  omega

theorem lo8_toNat (w : U16) : (lo8 w).toNat = w.toNat % 256 := by
  rw [lo8, BitVec.extractLsb'_toNat, Nat.shiftRight_zero]

/-- Settles O28: `write_data_16be` is an operation on the bus with the bytes of its words (`busOperation_of_cycles`), and runs
as `write_data` of them (`writeWords_eq`). -/
theorem wordStreamIsItsBytes : Obligations.WordStreamIsItsBytes :=
  ⟨fun _ s => busOperation_of_cycles s rfl nofun rfl nofun, fun ws s => congrArg (finish .unit) (writeWords_eq ws s),
    fun w => ⟨hi8_toNat w, lo8_toNat w⟩⟩

end Sys2Proof.Machine

namespace Sys2Proof.Machine

/-! ## The Configuration after an operation -/

/-- Settles O17: an error leaves the Configuration of `StateAfterAnError`; a success leaves what the step has written (`body_ran`),
and `new` that of its construction. -/
theorem configurationAfterEachOperation : Obligations.ConfigurationAfterEachOperation := by
  intro i s t h
  cases hret : t.ret with
  | err e =>
    obtain ⟨_, herror⟩ := stateAfterAnError i s t h
    obtain ⟨_, _, hcfg, _⟩ := herror e hret
    exact hcfg
  | ok v =>
    obtain ⟨u, hu, rfl⟩ := body_of_exec_ok h hret
    by_cases hnew : ∀ k, i ≠ .new k
    · rw [conclude_ok hnew]
      exact (body_ran hnew hu).cfg
    · obtain ⟨k, rfl⟩ : ∃ k, i = .new k := by simpa using hnew
      rfl

/-! ## Delays and drives among the events -/

/-- The event of a cycle is no delay. -/
theorem cycle_event_ne_delay (c : Cycle) (ms : Nat) : c.event ≠ .delay ms := by
  cases c <;> exact nofun

/-- No instruction but `init` and a delay entry emits a delay: the others emit drives of the control lines, or cycles. -/
theorem delay_notMem_emits (P : Params) (c : Configuration) {i : Instr} (hinit : i ≠ .init) (hdelay : ∀ ms, i ≠ .initDelay ms)
    (ms : Nat) : Event.delay ms ∉ emits P c i := by
  have hbus (hcontrol : drivesControl i = false) : Event.delay ms ∉ emits P c i := by
    rw [emits_eq_cycles P c hcontrol hdelay]
    intro hmem
    obtain ⟨cycle, _, hevent⟩ := List.mem_map.mp hmem
    exact cycle_event_ne_delay cycle ms hevent
  cases i with
  | new | assertReset | deassertReset | enable | disable => simp [emits]
  | init => exact absurd rfl hinit
  | _ => exact hbus rfl

/-- Settles O23: what an instruction appended is a first part of what it emits (`FailedTranscriptIsAPrefix`), which holds no delay
(`delay_notMem_emits`). -/
theorem onlyInitDelays : Obligations.OnlyInitDelays := by
  intro i s t h hinit hdelay ms hmem
  obtain ⟨p, htrace, hprefix, _⟩ := failedTranscriptIsAPrefix i s t h
  rw [htrace, List.drop_left] at hmem
  exact delay_notMem_emits s.par s.cfg hinit hdelay ms (hprefix.subset hmem)

/-- The init table drives neither chip-select nor reset. -/
theorem ne_pin_of_mem_tableEvents {B : OpcodeBytes} {table : List InitEntry} {e : Event} (he : e ∈ tableEvents B table)
    (k : ControlLine) (l : Level) : e ≠ .pin k l := by
  obtain ⟨entry, _, he⟩ := List.mem_flatMap.mp he
  cases entry with
  | cmd op params =>
    obtain ⟨cycle, _, rfl⟩ := List.mem_map.mp he
    exact cycle_event_ne_pin cycle k l
  | delay ms =>
    cases List.mem_singleton.mp he
    exact nofun

/-- Settles O37: an `init` that succeeds appends the events of its pulse, with the delays of the parameters, and then those of the
table, which drive no control line (`ne_pin_of_mem_tableEvents`). -/
theorem initHoldsReset : Obligations.InitHoldsReset := by
  intro s t _ hlegal h hret
  obtain ⟨hpulse, _, hsettle, _⟩ := of_decide_eq_true hlegal
  obtain ⟨p, htrace, _, hall⟩ := failedTranscriptIsAPrefix .init s t h
  have hp : p = pulseEvents s.par ++ tableEvents s.par.opcodes s.par.initTable := hall (by rw [hret]; rfl)
  exact ⟨_, _, _, hpulse, hsettle, hp ▸ htrace, fun _ he => ne_pin_of_mem_tableEvents he⟩

/-! ## One drive of a control line -/

/-- An operation of the driver that is one drive, when the drive succeeds. -/
theorem onDriver_drive_of_succeeds {s : State} (hdriver : s.driver = true) (h : s.nextDraw = .succeeds) (line : Pin) (l : Level)
    (e : Error) : onDriver s (finish .unit (drive line l e s)) =
      .next { (s.drawn.attempt line l).driven line l with ret := .ok .unit } := by
  rw [onDriver, if_pos hdriver, drive_of_succeeds h]
  rfl

/-- An operation of the driver that is one drive, when the drive fails. -/
theorem onDriver_drive_of_fails {s : State} (hdriver : s.driver = true) (h : s.nextDraw = .fails) (line : Pin) (l : Level)
    (e : Error) : onDriver s (finish .unit (drive line l e s)) =
      .next (((s.drawn.attempt line l).setPin line .unknown).raise e) := by
  rw [onDriver, if_pos hdriver, drive_of_fails h]
  rfl

/-- Settles O33: each of the four operations is one drive on the driver, and its draw decides. -/
theorem controlLineOperations : Obligations.ControlLineOperations := by
  intro s hdriver
  refine ⟨fun hdraw => ?_, fun hdraw => ?_⟩
  · have hdrive := onDriver_drive_of_succeeds hdriver hdraw
    exact ⟨hdrive .rst .low .reset, hdrive .rst .high .reset, hdrive .cs .low .cs, hdrive .cs .high .cs⟩
  · have hdrive := onDriver_drive_of_fails hdriver hdraw
    exact ⟨hdrive .rst .low .reset, hdrive .rst .high .reset, hdrive .cs .low .cs, hdrive .cs .high .cs⟩

end Sys2Proof.Machine

namespace Sys2Proof.Machine

/-! ## Raw dispatch, window, pixels and fill on the bus

That a cycle of the serial transport takes one draw is log entry 10, the edge that latches log entry 9, draws log entry 6, and
the panel after an error log entry 19. -/

/-- Settles O38: both operations only send cycles (`busOperation_of_cycles`). -/
theorem rawDispatchSendsWhatItIsGiven : Obligations.RawDispatchSendsWhatItIsGiven :=
  fun s hdriver => ⟨fun _ => busOperation_of_cycles s rfl nofun rfl fun _ => hdriver,
    fun _ => busOperation_of_cycles s rfl nofun rfl fun _ => hdriver⟩

/-- Settles O39: `set_window` only sends its two frames (`busOperation_of_cycles`). -/
theorem setWindowSendsTwoFrames : Obligations.SetWindowSendsTwoFrames :=
  fun _ _ _ _ s hdriver => busOperation_of_cycles s rfl nofun rfl fun _ => hdriver

/-- The frame of `write_pixels`, its words as data cycles (R79). -/
theorem pixelCycles_eq (B : OpcodeBytes) (ws : List U16) :
    pixelCycles B ws = .cmd (B.byte .ramwr) :: ws.flatMap fun w => [.dat (hi8 w), .dat (lo8 w)] := by
  rw [pixelCycles, frameCycles, streamBytes, List.map_flatMap]
  rfl

/-- Settles O40: `write_pixels` only sends its frame (`busOperation_of_cycles`). -/
theorem writePixelsStreamsWords : Obligations.WritePixelsStreamsWords := by
  intro ws s hdriver
  rw [← pixelCycles_eq]
  exact busOperation_of_cycles s rfl nofun rfl fun _ => hdriver

/-- The frames of `fill`, the colour's words as data cycles (R82, R84). -/
theorem fillCycles_eq (B : OpcodeBytes) (c : Configuration) (color : U16) :
    fillCycles B c color = windowCycles B 0 0 (c.width - 1) (c.height - 1) ++ .cmd (B.byte .ramwr) ::
      ((List.replicate (fillCount c) [.dat (hi8 color), .dat (lo8 color)]).flatten ++ [.cmd (B.byte .nop)]) := by
  rw [fillCycles, pixelCycles_eq, List.flatMap_def, List.map_replicate]
  rfl

/-- The last column and row of a legal Configuration, by its class (R87). -/
theorem last_of_legal {c : Configuration} (hc : c.legal) :
    (c.width - 1, c.height - 1) = if c.orientation.class = .portraitClass then (319, 479) else (479, 319) := by
  obtain ⟨_, hdims⟩ := hc
  obtain ⟨hwidth, hheight⟩ := Prod.mk.inj hdims
  rw [hwidth, hheight]
  cases c.orientation.class <;> rfl

/-- Settles O41: `fill` only sends its frames (`busOperation_of_cycles`), and those of a legal Configuration are the whole
screen's. -/
theorem fillStreamsTheScreen : Obligations.FillStreamsTheScreen := by
  refine fun color s hdriver => ⟨busOperation_of_cycles s rfl nofun rfl fun _ => hdriver, fun hlegal => ?_⟩
  have hcount : fillCount s.cfg = 153600 := hlegal.1
  exact ⟨_, _, last_of_legal hlegal, hcount ▸ fillCycles_eq s.par.opcodes s.cfg color⟩

/-! ## What a panel that is tracked makes of an operation on the bus -/

/-- With pins that hold an operation on the bus returns Ok, and a panel that is tracked has run its cycles. -/
theorem BusOperation.run_of_pinsHold {i : Instr} {l : List Cycle} {s done failed : State} (h : BusOperation i l s done failed)
    (hpins : s.pinsHold) (hlistening : done.listening) :
    ∃ t, exec i s = .next t ∧ t.ret = .ok .unit ∧ t.panel = Panel.run done.par done.free l done.panel := by
  obtain ⟨t, hexec, hok, ⟨hret, hsent, _⟩ | ⟨e, _, u, _, _, _, rfl⟩⟩ := h
  · exact ⟨t, hexec, hret, hsent.run hlistening⟩
  · cases hok hpins

/-! ## The cells of a window -/

/-- The cell of pixel number `j` of the window: row-major from its start (R277), under the memory-access-control byte (R279). -/
def pixelCell (P : Params) (r : PanelRegs) (j : Nat) : Option Nat :=
  physical P r.madctl (r.sc.toNat + j % (r.ec.toNat - r.sc.toNat + 1)) (r.sp.toNat + j / (r.ec.toNat - r.sc.toNat + 1))

/-- How many pixels the window holds. -/
def windowArea (r : PanelRegs) : Nat := (r.ec.toNat - r.sc.toNat + 1) * (r.ep.toNat - r.sp.toNat + 1)

theorem pixelCell_of_sameWindow {r q : PanelRegs} (h : r.SameWindow q) (P : Params) : pixelCell P q = pixelCell P r := by
  obtain ⟨hsc, hec, hsp, _, hmadctl⟩ := h
  funext j
  rw [pixelCell, pixelCell, hsc, hec, hsp, hmadctl]

theorem windowArea_of_sameWindow {r q : PanelRegs} (h : r.SameWindow q) : windowArea q = windowArea r := by
  obtain ⟨hsc, hec, hsp, hep, _⟩ := h
  rw [windowArea, windowArea, hsc, hec, hsp, hep]

/-- Two pixels of a legal window on one cell are one pixel. -/
theorem pixelCell_injective {P : Params} {r : PanelRegs} (hl : windowLegal r = true) {i j a : Nat}
    (hi : pixelCell P r i = some a) (hj : pixelCell P r j = some a) : i = j := by
  obtain ⟨w, h, hd, hle, _, hw, _⟩ := (windowLegal_iff r).mp hl
  have hle : r.sc.toNat ≤ r.ec.toNat := hle
  have hcol (k : Nat) : r.sc.toNat + k % (r.ec.toNat - r.sc.toNat + 1) < w := by
    have hk : k % (r.ec.toNat - r.sc.toNat + 1) < r.ec.toNat - r.sc.toNat + 1 := Nat.mod_lt k (Nat.succ_pos _)
    omega
  obtain ⟨hmod, hdiv⟩ := physical_injective hd (hcol i) (hcol j) hi hj
  rw [← Nat.div_add_mod i (r.ec.toNat - r.sc.toNat + 1), Nat.add_left_cancel hmod, Nat.add_left_cancel hdiv, Nat.div_add_mod]

/-! ## A pixel stream in its window -/

/-- `g'` is the display memory `g` with the words `ws` stored on the cells of the window from pixel number `j` on. -/
structure Stored (P : Params) (r : PanelRegs) (j : Nat) (ws : List U16) (g g' : Memory) : Prop where
  stored : ∀ i, ∀ hi : i < ws.length, ∃ a, pixelCell P r (j + i) = some a ∧ g'.read a = some ws[i]
  kept : ∀ x, (∀ i, i < ws.length → pixelCell P r (j + i) ≠ some x) → g'.read x = g.read x

theorem Stored.nil (P : Params) (r : PanelRegs) (j : Nat) (g : Memory) : Stored P r j [] g g := ⟨nofun, fun _ _ => rfl⟩

/-- Where words are stored depends on the window and the memory-access-control byte alone. -/
theorem Stored.of_sameWindow {P : Params} {r q : PanelRegs} (h : r.SameWindow q) {j : Nat} {ws : List U16} {g g' : Memory}
    (k : Stored P q j ws g g') : Stored P r j ws g g' :=
  have hcell := pixelCell_of_sameWindow h P
  ⟨hcell ▸ k.stored, hcell ▸ k.kept⟩

/-- The first word stays on its cell: no later pixel of a legal window falls there. -/
theorem Stored.cons {P : Params} {r : PanelRegs} (hl : windowLegal r = true) {j a : Nat} {w : U16} {ws : List U16} {g g' : Memory}
    (ha : pixelCell P r j = some a) (h : Stored P r (j + 1) ws (g.write a w) g') : Stored P r j (w :: ws) g g' where
  stored i hi := by
    cases i with
    | zero =>
      refine ⟨a, ha, ?_⟩
      rw [h.kept a fun k _ hk => ?_]
      · exact Memory.read_write_same a w g
      · have hsame : j = j + 1 + k := pixelCell_injective hl ha hk
        omega
    | succ i =>
      rw [← Nat.succ_add_eq_add_succ]
      exact h.stored i (Nat.lt_of_succ_lt_succ hi)
  kept x hx := by
    have hxa : x ≠ a := by
      rintro rfl
      exact hx 0 (Nat.succ_pos _) ha
    rw [h.kept x fun i hi => ?_]
    · exact Memory.read_write_other hxa w g
    · rw [Nat.succ_add_eq_add_succ]
      exact hx (i + 1) (Nat.succ_lt_succ hi)

/-- A stream that fits what is left of its window stores its words, one after the other. -/
theorem Streaming.words {P : Params} (ws : List U16) : ∀ {p : Panel} {j : Nat}, Streaming P p.regs j →
    j + ws.length ≤ windowArea p.regs → ∀ n,
      Streaming P (Panel.run P n ((streamBytes ws).map .dat) p).regs (j + ws.length) ∧
      Stored P p.regs j ws p.gram (Panel.run P n ((streamBytes ws).map .dat) p).gram := by
  induction ws with
  | nil => exact fun h _ _ => ⟨h, .nil P _ _ _⟩
  | cons w rest ih =>
    intro p j h hlen n
    rw [List.length_cons] at hlen ⊢
    have hj : j < windowArea p.regs := by omega
    obtain ⟨a, ha, hgram, hnext, hsame⟩ := h.word hj n w
    obtain ⟨hend, hstored⟩ := ih hnext (by rw [windowArea_of_sameWindow hsame]; omega) (n + 2)
    rw [hgram] at hstored
    rw [← Nat.succ_add_eq_add_succ]
    exact ⟨hend, .cons h.legal ha (hstored.of_sameWindow hsame)⟩

/-- The frame of `write_pixels` on a tracked panel with no pixel waiting, at format 0x55 in a legal window that holds its
words. -/
theorem run_pixelCycles {P : Params} (hB : P.opcodes.injective = true) (n : Nat) {p : Panel} (hsettled : p.settled P)
    (hformat : p.regs.colmod = 0x55) (hlegal : windowLegal p.regs = true) {ws : List U16} (hlen : ws.length ≤ windowArea p.regs) :
    (Panel.run P n (pixelCycles P.opcodes ws) p).settled P ∧
      Stored P p.regs 0 ws p.gram (Panel.run P n (pixelCycles P.opcodes ws) p).gram := by
  have hopen := run_ramwr hB n p
  rw [Panel.closeFrame_of_settled hsettled] at hopen
  have hsplit : Panel.run P n (pixelCycles P.opcodes ws) p = Panel.run P (n + 1) ((streamBytes ws).map .dat)
      ⟨(p.regs.openFrame P.opcodes.ramwr).restart, p.gram⟩ := by
    rw [← hopen]
    rfl
  obtain ⟨hend, hstored⟩ := Streaming.words ws (p := ⟨(p.regs.openFrame P.opcodes.ramwr).restart, p.gram⟩)
    (Streaming.start hB hformat hlegal) (by rw [Nat.zero_add]; exact hlen) (n + 1)
  have hsame : p.regs.SameWindow (p.regs.openFrame P.opcodes.ramwr).restart := ⟨rfl, rfl, rfl, rfl, rfl⟩
  rw [hsplit]
  exact ⟨fun _ => hend.pair, hstored.of_sameWindow hsame⟩

/-- Settles O58: the panel has run the frame of `write_pixels` (`BusOperation.run_of_pinsHold`), which stores its words in the
window (`run_pixelCycles`). -/
theorem writePixelsFillsTheWindow : Obligations.WritePixelsFillsTheWindow := by
  intro ws s hpins hdriver hlistening hB hsettled hformat hlegal hlen
  obtain ⟨t, hexec, _, hpanel⟩ :=
    (writePixelsStreamsWords ws s hdriver).run_of_pinsHold hpins (show s.okay.listening from hlistening)
  rw [← pixelCycles_eq] at hpanel
  obtain ⟨_, hstored, hkept⟩ := run_pixelCycles hB s.free hsettled hformat hlegal hlen
  simp only [Nat.zero_add] at hstored hkept
  refine ⟨t, hexec, ?_⟩
  rw [hpanel]
  exact ⟨hstored, hkept⟩

/-! ## The full screen -/

/-- The window is the whole logical space of the memory-access-control byte (R167, R279). -/
structure FullWindow (r : PanelRegs) : Prop where
  sc : r.sc = 0
  sp : r.sp = 0
  dims : logicalDims r.madctl = some (r.ec.toNat + 1, r.ep.toNat + 1)

theorem FullWindow.legal {r : PanelRegs} (h : FullWindow r) : windowLegal r = true :=
  have hzero (z : U16) : 0 ≤ z := Nat.zero_le z.toNat
  (windowLegal_iff r).mpr ⟨_, _, h.dims, h.sc ▸ hzero _, h.sp ▸ hzero _, Nat.lt_succ_self _, Nat.lt_succ_self _⟩

/-- The full window holds as many pixels as there are cells, whatever the maps are. -/
theorem FullWindow.area {r : PanelRegs} (h : FullWindow r) : windowArea r = Memory.cells := by
  obtain ⟨_, _, _, harea⟩ := physical_some resetParams h.dims 0 0
  rw [windowArea, h.sc, h.sp]
  exact harea

/-- Every cell is that of some pixel of the full window: the one at the cell's place in the logical space, row-major. -/
theorem FullWindow.exists_pixelCell {r : PanelRegs} (h : FullWindow r) (P : Params) {a : Nat} (ha : a < Memory.cells) :
    ∃ j, j < Memory.cells ∧ pixelCell P r j = some a := by
  obtain ⟨col, row, hcol, hrow, hcell⟩ := physical_surjective P h.dims ha
  have hmod : (row * (r.ec.toNat + 1) + col) % (r.ec.toNat + 1) = col := by
    rw [Nat.mul_add_mod', Nat.mod_eq_of_lt hcol]
  have hdiv : (row * (r.ec.toNat + 1) + col) / (r.ec.toNat + 1) = row := by
    rw [Nat.mul_comm, Nat.mul_add_div (Nat.succ_pos _), Nat.div_eq_of_lt hcol, Nat.add_zero]
  refine ⟨row * (r.ec.toNat + 1) + col, ?_, ?_⟩
  · calc row * (r.ec.toNat + 1) + col < (row + 1) * (r.ec.toNat + 1) := by rw [Nat.succ_mul]; omega
      _ ≤ (r.ep.toNat + 1) * (r.ec.toNat + 1) := Nat.mul_le_mul_right _ hrow
      _ = Memory.cells := by rw [← h.area, windowArea, h.sc, h.sp, Nat.mul_comm]; rfl
  · rw [pixelCell, h.sc, h.sp]
    simpa [hmod, hdiv] using hcell

/-- The window that `fill` sets, when the panel's byte is that of the Configuration's orientation (R77, R87). -/
theorem fullWindow_windowed {c : Configuration} (hc : c.legal) {r : PanelRegs} (hm : r.madctl = orientByte c.orientation)
    (frame : Byte) : FullWindow (r.windowed frame 0 0 (c.width - 1) (c.height - 1)) := by
  obtain ⟨_, hdims⟩ := hc
  obtain ⟨hwidth, hheight⟩ := Prod.mk.inj hdims
  refine ⟨rfl, rfl, ?_⟩
  show logicalDims r.madctl = some ((c.width - 1).toNat + 1, (c.height - 1).toNat + 1)
  rw [hm, hwidth, hheight]
  cases c.orientation <;> rfl

/-- The frames of `fill` on a tracked panel, whatever waited in it, at format 0x55 and with the orientation's byte. -/
theorem run_fillCycles {P : Params} (hB : P.opcodes.injective = true) (n : Nat) {p : Panel} {c : Configuration} (hc : c.legal)
    (hformat : p.regs.colmod = 0x55) (hm : p.regs.madctl = orientByte c.orientation) (color : U16) {a : Nat}
    (ha : a < Memory.cells) : (Panel.run P n (fillCycles P.opcodes c color) p).gram.read a = some color := by
  obtain ⟨_, _, _, _, hmadctl, hcolmod⟩ := Panel.closeFrame_regs P p
  have hfull := fullWindow_windowed hc (hmadctl.trans hm) P.opcodes.paset
  have hcount : fillCount c = Memory.cells := hc.1
  rw [fillCycles, Panel.run_append, Panel.run_append, run_window hB, length_windowCycles, run_nop hB]
  obtain ⟨hsettled, hstored, _⟩ := run_pixelCycles hB (n + 10) (ws := List.replicate (fillCount c) color)
    (p := ⟨(p.closeFrame P).regs.windowed P.opcodes.paset 0 0 (c.width - 1) (c.height - 1), (p.closeFrame P).gram⟩)
    (fun _ => rfl) (hcolmod.trans hformat) hfull.legal (by rw [List.length_replicate, hfull.area, hcount])
  obtain ⟨j, hj, hcell⟩ := hfull.exists_pixelCell P ha
  obtain ⟨b, hb, hread⟩ := hstored j (by rw [List.length_replicate, hcount]; exact hj)
  rw [Nat.zero_add, hcell] at hb
  cases hb
  rw [List.getElem_replicate] at hread
  rw [Panel.closeFrame_of_settled hsettled]
  exact hread

/-- Settles O59: the panel has run the frames of `fill` (`BusOperation.run_of_pinsHold`), which paint every cell
(`run_fillCycles`). -/
theorem fillPaintsEveryCell : Obligations.FillPaintsEveryCell := by
  rintro color s hpins hdriver hlistening hB hlegal ⟨hformat, hm⟩
  obtain ⟨hbus, _⟩ := fillStreamsTheScreen color s hdriver
  obtain ⟨t, hexec, hret, hpanel⟩ := hbus.run_of_pinsHold hpins (show s.okay.listening from hlistening)
  refine ⟨t, hexec, hret, fun a ha => ?_⟩
  rw [hpanel]
  exact run_fillCycles hB s.free hlegal hformat hm color ha

end Sys2Proof.Machine

namespace Sys2Proof.Machine

/-! ## The settings on the bus, and the accessors

That a cycle of the serial transport takes one draw is log entry 10, the edge that latches log entry 9, draws log entry 6, and
the panel after an error log entry 19. -/

/-- Settles O47: with a driver each accessor runs no step and returns its value (`exec_eq_conclude`). -/
theorem accessorsReadAndChangeNothing : Obligations.AccessorsReadAndChangeNothing := by
  intro s hdriver
  exact ⟨exec_eq_conclude (i := .width) (fun _ => hdriver) nofun, exec_eq_conclude (i := .height) (fun _ => hdriver) nofun,
    exec_eq_conclude (i := .orientation) (fun _ => hdriver) nofun, exec_eq_conclude (i := .size) (fun _ => hdriver) nofun⟩

/-- Settles O46: `set_brightness` only sends its frame (`busOperation_of_cycles`). -/
theorem setBrightnessSendsTheLevel : Obligations.SetBrightnessSendsTheLevel :=
  fun _ s hdriver => busOperation_of_cycles s rfl nofun rfl fun _ => hdriver

/-- Settles O43: for each format `set_pixel_format` sends its frame, and a success alone writes the Configuration
(`busOperation_of_cycles`). -/
theorem setPixelFormatSendsThenWrites : Obligations.SetPixelFormatSendsThenWrites := by
  intro f s hdriver
  cases f <;> exact busOperation_of_cycles s rfl nofun rfl fun _ => hdriver

/-- Settles O44: for each orientation `set_orientation` sends its frame with the Configuration already written, so a
failure keeps what it wrote too (`busOperation_of_cycles`). -/
theorem setOrientationWritesThenSends : Obligations.SetOrientationWritesThenSends := by
  intro o s hdriver
  cases o <;> exact busOperation_of_cycles s rfl nofun rfl fun _ => hdriver

/-- An operation on the bus that sends with one driver and one Configuration leaves them, whether it succeeds or not. -/
theorem BusOperation.exec_keeps {i : Instr} {l : List Cycle} {s done failed : State} (h : BusOperation i l s done failed)
    (hdriver : failed.driver = done.driver) (hcfg : failed.cfg = done.cfg) :
    ∃ t, exec i s = .next t ∧ t.driver = done.driver ∧ t.cfg = done.cfg := by
  obtain ⟨t, hexec, _, ⟨_, hsent, _⟩ | ⟨_, _, _, _, hsent, _, rfl⟩⟩ := h
  · exact ⟨t, hexec, hsent.driver, hsent.cfg⟩
  · exact ⟨_, hexec, hsent.driver.trans hdriver, hsent.cfg.trans hcfg⟩

/-- `set_orientation` leaves the driver and the Configuration with the orientation, whether its frame succeeds or not (R192,
R194). -/
theorem exec_setOrientation (o : Orientation) {s : State} (hdriver : s.driver = true) :
    ∃ t, exec (.setOrientation o) s = .next t ∧ t.driver = true ∧ t.cfg = s.cfg.oriented o := by
  obtain ⟨t, hexec, hd, hcfg⟩ := (busOperation_of_cycles (i := .setOrientation o) s rfl nofun rfl fun _ => hdriver).exec_keeps
    rfl rfl
  exact ⟨t, hexec, hd.trans hdriver, hcfg⟩

/-- Settles O45: `set_orientation` leaves a Configuration with the orientation and its dimensions (`exec_setOrientation`,
`legal_oriented`), and the accessors read it (`accessorsReadAndChangeNothing`). -/
theorem orientationFixesTheDimensions : Obligations.OrientationFixesTheDimensions := by
  intro o s hdriver
  obtain ⟨t, hexec, hd, hcfg⟩ := exec_setOrientation o hdriver
  obtain ⟨hwidth, hheight, horientation, _⟩ := accessorsReadAndChangeNothing t hd
  obtain ⟨harea, hdims⟩ : t.cfg.legal := hcfg ▸ legal_oriented s.cfg o
  have ho : t.cfg.orientation = o := congrArg Configuration.orientation hcfg
  rw [ho] at hdims horientation
  refine ⟨t, t.cfg.width, t.cfg.height, hexec, ?_, hwidth, hheight, horientation, harea⟩
  rw [hdims]
  cases o <;> rfl

end Sys2Proof.Machine

namespace Sys2Proof.Machine

/-! ## The Drawing Adapter

For the bus operation: that a cycle of the serial transport takes one draw is log entry 10, the edge that latches log entry 9,
draws log entry 6, and the panel after an error log entry 19. For the panel's reading: log entry 38. -/

/-- The clip test on the coordinates themselves (R211). -/
theorem inBounds_iff (P : Params) (c : Configuration) (p : DrawPixel) : inBounds P c p = true ↔
    0 ≤ p.x ∧ p.x < ((clipExtent P c).1 : Int) ∧ 0 ≤ p.y ∧ p.y < ((clipExtent P c).2 : Int) :=
  decide_eq_true_iff

/-- The clip bounds are u16 values, logical or physical. -/
theorem clipExtent_lt (P : Params) (c : Configuration) : (clipExtent P c).1 < 65536 ∧ (clipExtent P c).2 < 65536 := by
  rw [clipExtent]
  cases P.clipBounds with
  | logical => exact ⟨c.width.isLt, c.height.isLt⟩
  | physical => exact ⟨(by decide : physW < 65536), (by decide : physH < 65536)⟩

/-- The logical clip bounds are the Configuration's dimensions (R211). -/
theorem clipExtent_of_logical {P : Params} (h : P.clipBounds = .logical) (c : Configuration) :
    clipExtent P c = (c.width.toNat, c.height.toNat) := by
  rw [clipExtent, h]

/-- An integer that is a u16 value converts exactly (R212). -/
theorem coordinate_toNat {x : Int} (hnonneg : 0 ≤ x) (hlt : x < 65536) : (coordinate x).toNat = x.toNat := by
  rw [coordinate, BitVec.toNat_ofInt]
  exact congrArg Int.toNat (Int.emod_eq_of_lt hnonneg hlt)

/-- A pair in bounds converts exactly (R215). -/
theorem coordinates_of_inBounds {P : Params} {c : Configuration} {p : DrawPixel} (h : inBounds P c p = true) :
    (coordinate p.x).toNat = p.x.toNat ∧ (coordinate p.y).toNat = p.y.toNat := by
  obtain ⟨hx, hxlt, hy, hylt⟩ := (inBounds_iff P c p).mp h
  obtain ⟨hwidth, hheight⟩ := clipExtent_lt P c
  exact ⟨coordinate_toNat hx (by omega), coordinate_toNat hy (by omega)⟩

/-- Settles O49: the clip test reads as its inequalities (`inBounds_iff`), and the clip bounds are themselves u16 values
(`coordinates_of_inBounds`), so that the Configuration invariant is not needed. -/
theorem inBoundsCoordinatesAreExact : Obligations.InBoundsCoordinatesAreExact := by
  refine fun P c p => ⟨by rw [inBounds_iff]; omega, fun _ hin => ?_⟩
  obtain ⟨hx, hxlt, hy, hylt⟩ := (inBounds_iff P c p).mp hin
  obtain ⟨hcol, hrow⟩ := coordinates_of_inBounds hin
  rw [hcol, hrow]
  omega

/-- The frames of a pair, by its coordinates, with its pixel as two data cycles (R82, R212). -/
theorem drawCycles_eq (P : Params) (c : Configuration) (p : DrawPixel) : drawCycles P c p =
    if 0 ≤ p.x ∧ p.x < ((clipExtent P c).1 : Int) ∧ 0 ≤ p.y ∧ p.y < ((clipExtent P c).2 : Int) then
      windowCycles P.opcodes (coordinate p.x) (coordinate p.y) (coordinate p.x) (coordinate p.y) ++
        [.cmd (P.opcodes.byte .ramwr), .dat (hi8 (Config.toRaw16 p.color)), .dat (lo8 (Config.toRaw16 p.color))]
    else [] :=
  if_congr (inBounds_iff P c p) rfl rfl

/-- Settles O48: `draw_iter` only sends the frames of its pairs (`busOperation_of_cycles`, `drawCycles_eq`). -/
theorem drawIterSendsInBoundsPixels : Obligations.DrawIterSendsInBoundsPixels := by
  intro ps s hdriver
  simp only [← drawCycles_eq]
  exact busOperation_of_cycles (i := .drawIter ps) s rfl nofun rfl fun _ => hdriver

/-! ## What a drawing request paints -/

/-- A panel that pairs can be drawn on under the memory-access-control byte `m`: format 0x55 and no pixel waiting. -/
structure Panel.Drawable (P : Params) (m : Byte) (p : Panel) : Prop where
  colmod : p.regs.colmod = 0x55
  madctl : p.regs.madctl = m
  settled : p.settled P

/-- `set_window` leaves no pixel waiting, and neither setting changed. -/
theorem Panel.Drawable.windowed {P : Params} {m : Byte} {p : Panel} (h : p.Drawable P m) (frame : Byte) (x0 y0 x1 y1 : U16) :
    Panel.Drawable P m ⟨p.regs.windowed frame x0 y0 x1 y1, p.gram⟩ :=
  ⟨h.colmod, h.madctl, fun _ => rfl⟩

/-- The frame of `write_pixels` with one word, in a legal window: the word is on the cell of the window's start. -/
theorem run_pixelCycles_one {P : Params} (hB : P.opcodes.injective = true) (n : Nat) {m : Byte} {p : Panel}
    (hp : p.Drawable P m) (hlegal : windowLegal p.regs = true) (w : U16) :
    ∃ a, physical P m p.regs.sc.toNat p.regs.sp.toNat = some a ∧
      (Panel.run P n (pixelCycles P.opcodes [w]) p).gram = p.gram.write a w ∧
      (Panel.run P n (pixelCycles P.opcodes [w]) p).Drawable P m := by
  obtain ⟨hformat, rfl, hsettled⟩ := hp
  have hopen := run_ramwr hB n p
  rw [Panel.closeFrame_of_settled hsettled] at hopen
  have hsplit : Panel.run P n (pixelCycles P.opcodes [w]) p =
      Panel.run P (n + 1) [.dat (hi8 w), .dat (lo8 w)] ⟨(p.regs.openFrame P.opcodes.ramwr).restart, p.gram⟩ := by
    rw [← hopen]
    rfl
  obtain ⟨a, hcell, hgram, hnext, _, _, _, _, hmadctl⟩ :=
    Streaming.word (p := ⟨(p.regs.openFrame P.opcodes.ramwr).restart, p.gram⟩) (Streaming.start hB hformat hlegal)
      (Nat.mul_pos (Nat.succ_pos _) (Nat.succ_pos _)) (n + 1) w
  rw [Nat.zero_mod, Nat.zero_div] at hcell
  rw [hsplit]
  exact ⟨a, hcell, hgram, hnext.colmod, hmadctl, fun _ => hnext.pair⟩

/-- A Configuration's dimensions are those of its orientation's byte (R77, R87, R279). -/
theorem logicalDims_of_legal {c : Configuration} (hc : c.legal) :
    logicalDims (orientByte c.orientation) = some (c.width.toNat, c.height.toNat) := by
  obtain ⟨_, hdims⟩ := hc
  obtain ⟨hwidth, hheight⟩ := Prod.mk.inj hdims
  rw [hwidth, hheight]
  cases c.orientation <;> rfl

/-- A window of one place is legal when the place is in the logical space. -/
theorem windowLegal_windowed_one {r : PanelRegs} {w h : Nat} (hd : logicalDims r.madctl = some (w, h)) {x y : U16}
    (hx : x.toNat < w) (hy : y.toNat < h) (frame : Byte) : windowLegal (r.windowed frame x y x y) = true :=
  (windowLegal_iff _).mpr ⟨w, h, hd, Nat.le_refl _, Nat.le_refl _, hx, hy⟩

section
variable {P : Params} {c : Configuration} (hB : P.opcodes.injective = true) (hc : c.legal) (hclip : P.clipBounds = .logical)
include hB hc hclip

/-- The frames of one pair paint it, and leave the panel as the next pair needs it. -/
theorem run_drawCycles (n : Nat) (px : DrawPixel) {p : Panel} (hp : p.Drawable P (orientByte c.orientation)) :
    (Panel.run P n (drawCycles P c px) p).gram = painted P c (orientByte c.orientation) p.gram px ∧
      (Panel.run P n (drawCycles P c px) p).Drawable P (orientByte c.orientation) := by
  rw [drawCycles, painted]
  split
  case isFalse => exact ⟨rfl, hp⟩
  case isTrue hin =>
    obtain ⟨_, hxlt, _, hylt⟩ := (inBounds_iff P c px).mp hin
    obtain ⟨hcol, hrow⟩ := coordinates_of_inBounds hin
    rw [clipExtent_of_logical hclip] at hxlt hylt
    have hd : logicalDims p.regs.madctl = some (c.width.toNat, c.height.toNat) := hp.madctl ▸ logicalDims_of_legal hc
    have hlegal := windowLegal_windowed_one hd (x := coordinate px.x) (y := coordinate px.y) (by omega) (by omega)
      P.opcodes.paset
    obtain ⟨a, hcell, hgram, hdrawable⟩ := run_pixelCycles_one hB (n + 10) (hp.windowed _ _ _ _ _) hlegal
      (Config.toRaw16 px.color)
    rw [Panel.run_append, run_window hB, length_windowCycles, Panel.closeFrame_of_settled hp.settled]
    have hcell : physical P (orientByte c.orientation) px.x.toNat px.y.toNat = some a := hcol ▸ hrow ▸ hcell
    rw [hcell]
    exact ⟨hgram, hdrawable⟩

/-- The frames of a list of pairs paint them, one after the other. -/
theorem run_drawList (ps : List DrawPixel) : ∀ (n : Nat) {p : Panel}, p.Drawable P (orientByte c.orientation) →
    (Panel.run P n (ps.flatMap (drawCycles P c)) p).gram = ps.foldl (painted P c (orientByte c.orientation)) p.gram := by
  induction ps with
  | nil => exact fun _ _ _ => rfl
  | cons px rest ih =>
    intro n p hp
    obtain ⟨hgram, hnext⟩ := run_drawCycles hB hc hclip n px hp
    rw [List.flatMap_cons, Panel.run_append, ih _ hnext, hgram, List.foldl_cons]

end

/-- Settles O60: the panel has run the frames of the pairs (`BusOperation.run_of_pinsHold`), which paint them in order
(`run_drawList`). -/
theorem drawIterPaintsItsPixels : Obligations.DrawIterPaintsItsPixels := by
  rintro ps s hpins hdriver hlistening hB hlegal ⟨hformat, hm⟩ hclip hsettled
  have hbus := busOperation_of_cycles (i := .drawIter ps) s rfl nofun rfl fun _ => hdriver
  obtain ⟨t, hexec, _, hpanel⟩ := hbus.run_of_pinsHold hpins hlistening
  refine ⟨t, hexec, ?_⟩
  rw [hpanel, hm]
  exact run_drawList hB hlegal hclip ps s.free ⟨hformat, hm, hsettled⟩

end Sys2Proof.Machine

namespace Sys2Proof.Machine

/-! ## Commands that set nothing

That a command closes the open frame and opens its own is log entry 38; that the open frame of an unmodelled command stays known
is log entry 24. -/

/-- A command that the interpretation does not model opens its frame and makes everything else any value (R275). -/
theorem Panel.command_unmodelled {P : Params} (hB : P.opcodes.injective = true) {op : Opcode} (hop : op ∈ unmodelledOpcodes)
    (n : Nat) (p : Panel) : p.command P n (P.opcodes.byte op) =
      Panel.unmodelled n ((p.closeFrame P).regs.openFrame (P.opcodes.byte op)) := by
  rw [Panel.command, Panel.opened, OpcodeBytes.opcode?_byte hB]
  split
  case h_8 => rfl
  -- each of the seven modelled commands is outside the list
  all_goals
    rename_i hmodelled
    cases hmodelled
    exact absurd hop (by decide)

/-- Heard by a panel that is tracked, a wire command with pins that hold is received as its one command cycle. -/
theorem exec_wire_of_listening (op : Opcode) {s : State} (hpins : s.pinsHold) (hlistening : s.listening) :
    ∃ t, exec op.wire s = .next t ∧ t.panel = s.panel.command s.par s.free (s.par.opcodes.byte op) := by
  obtain ⟨t, hexec, _, hpanel⟩ := (wireCommandsSendTheirCycle op s).run_of_pinsHold hpins hlistening
  exact ⟨t, hexec, hpanel⟩

/-- Settles O57: the panel has received the one command cycle (`exec_wire_of_listening`). NOP closes a frame in which no pixel
waits (`Panel.closeFrame_of_settled`) and opens its own (`run_nop`); the 18 others forget (`Panel.command_unmodelled`). -/
theorem nopClosesAndOthersForget : Obligations.NopClosesAndOthersForget := by
  refine fun s hpins hlistening hB => ⟨fun hsettled => ?_, fun op hop => ?_⟩
  case refine_1 =>
    obtain ⟨t, hexec, hpanel⟩ := exec_wire_of_listening .nop hpins hlistening
    have hopened : s.panel.command s.par s.free s.par.opcodes.nop = _ := run_nop hB s.free s.panel
    rw [Panel.closeFrame_of_settled hsettled] at hopened
    refine ⟨t, hexec, ?_⟩
    rw [hpanel, OpcodeBytes.byte, hopened]
    exact ⟨rfl, rfl⟩
  case refine_2 =>
    obtain ⟨t, hexec, hpanel⟩ := exec_wire_of_listening op hpins hlistening
    refine ⟨t, hexec, ?_⟩
    rw [hpanel, Panel.command_unmodelled hB hop]
    exact ⟨fun _ => rfl, rfl, rfl⟩

end Sys2Proof.Machine

namespace Sys2Proof.Machine

/-! ## The display memory's form -/

/-- The attempt to drive a line leaves the display memory, or makes every cell any value (R30, R272). -/
theorem attempt_gram_wf {s : State} (hs : Memory.wf s.panel.gram) (line : Pin) (l : Level) :
    Memory.wf (s.attempt line l).panel.gram := by
  unfold State.attempt
  split
  · exact Memory.wf_nil
  · exact hs

/-- No part of an operation breaks the display memory's form: cycles keep it (`Sent.gram_wf`), and what makes the panel any
value leaves no cell listed. -/
theorem keptByParts_gram_wf : KeptByParts fun s => Memory.wf s.panel.gram where
  sent h hs := h.gram_wf hs
  driveCs l s hs := by rcases drive_cases .cs l .cs s with h | h <;> rw [driveCs, h] <;> exact hs
  driveRst l s hs := by
    have hattempt := attempt_gram_wf (s := s.drawn) hs .rst l
    rcases drive_cases .rst l .reset s with h | h <;> rw [driveRst, h] <;> exact hattempt
  delayMs _ _ hs := hs
  configured _ _ _ hs := hs
  cursor _ _ hs := hs
  ready hs := hs
  uninitialized _ := Memory.wf_nil
  returned _ _ hs := hs
  constructed _ _ _ := Memory.wf_nil
  driverLost hs := hs
  taken hs := hs

/-- Settles O8: nothing is listed at reset, and every part of an operation keeps the form (`keptByParts_gram_wf`). -/
theorem displayMemoryStaysCanonical : Obligations.DisplayMemoryStaysCanonical :=
  ⟨Memory.wf_reset, fun _ _ hs h => keptByParts_gram_wf.step hs h⟩

/-! ## The address maps -/

/-- A byte other than the four has no map (R279). -/
theorem mapOf_eq_none (P : Params) {m : Byte} (h40 : m ≠ 0x40) (h90 : m ≠ 0x90) (h20 : m ≠ 0x20) (hF4 : m ≠ 0xF4) :
    mapOf P m = none := by
  rw [mapOf, if_neg h40, if_neg h90, if_neg h20, if_neg hF4]

/-- The logical dimensions of each of the four bytes (R279). -/
theorem logicalDims_of_byte {m : Byte} {w h : Nat}
    (hm : ((m = 0x40 ∨ m = 0x90) ∧ w = 320 ∧ h = 480) ∨ ((m = 0x20 ∨ m = 0xF4) ∧ w = 480 ∧ h = 320)) :
    logicalDims m = some (w, h) := by
  rcases hm with ⟨rfl | rfl, rfl, rfl⟩ | ⟨rfl | rfl, rfl, rfl⟩ <;> rfl

/-- Settles O50: inside the logical dimensions of its byte (`logicalDims_of_byte`) a map is total, injective and surjective
(`physical_lt`, `physical_injective`, `physical_surjective`); a byte without dimensions has no map (`mapOf_eq_none`). -/
theorem addressMapsAreBijections : Obligations.AddressMapsAreBijections := by
  refine fun P m => ⟨fun w h hm => ?_, fun h40 h90 h20 hF4 col row => ?_⟩
  case refine_1 =>
    have hd := logicalDims_of_byte hm
    refine ⟨fun col row hcol hrow => ?_, fun _ _ _ _ _ hcol _ hcol' _ ha ha' => physical_injective hd hcol hcol' ha ha',
      fun _ ha => physical_surjective P hd ha⟩
    obtain ⟨_, hcell, _⟩ := physical_some P hd col row
    exact ⟨_, physical_lt hd hcol hrow hcell, hcell⟩
  case refine_2 => rw [physical, mapOf_eq_none P h40 h90 h20 hF4]

/-! ## What reaches the panel

The free values are log entry 19, Unknown levels log entry 21, that RST Low is ignored log entry 38. -/

/-- With pins that hold, a driver and the read stub, an instruction that drives no control line leaves the panel that has
heard its cycles. -/
theorem exec_panel_heard {i : Instr} {s : State} (hpins : s.pinsHold) (hdriver : s.driver = true)
    (hmode : s.par.readMode = .stub) (hcontrol : drivesControl i = false) :
    ∃ t, exec i s = .next t ∧ t.panel = (s.heard (busCycles s.par s.cfg i)).panel := by
  have hnew : ∀ k, i ≠ .new k := by rintro k rfl; cases hcontrol
  by_cases hdelay : ∀ ms, i ≠ .initDelay ms
  · obtain ⟨u, hu, _⟩ := body_fine i s hpins
    have hsent := body_transfersTo s hcontrol hdelay
    rw [hu] at hsent
    refine ⟨_, exec_eq_conclude (fun _ => hdriver) (fun _ => hmode), ?_⟩
    rw [hu, conclude_ok hnew]
    exact (Sent.panel hsent).trans (heard_congr _ s _ rfl rfl rfl rfl rfl rfl)
  · obtain ⟨ms, rfl⟩ : ∃ ms, i = .initDelay ms := by simpa using hdelay
    exact ⟨_, rfl, rfl⟩

/-- Settles O51: the panel has heard the instruction's cycles (`exec_panel_heard`), and what it makes of them is told by its
lines and its phase (`heard_ignored`, `heard_untracked`, `heard_untracked_received`). -/
theorem deselectedPanelHearsNothing : Obligations.DeselectedPanelHearsNothing := by
  intro i s hpins hdriver hmode hcontrol
  obtain ⟨t, hexec, hpanel⟩ := exec_panel_heard hpins hdriver hmode hcontrol
  refine ⟨t, hexec, ?_⟩
  rw [hpanel]
  exact ⟨fun hsilent => by rw [hsilent, heard_nil], heard_ignored _, heard_untracked _,
    fun hphase hcs hrst hsends => heard_untracked_received hsends hphase hcs hrst⟩

/-! ## Closing a frame

How a frame is closed is log entry 38, the cell of the pixel that waits log entry 25. -/

/-- `g` is the display memory of `p` but for a pixel cut short: with none waiting it is the same, and the cell of one that
waits for its second byte is any value (R276). -/
def Panel.CutShort (P : Params) (p : Panel) (g : Memory) : Prop :=
  (p.settled P → g = p.gram) ∧ ∀ a, p.awaits P a → g.read a = none ∧ ∀ x, x ≠ a → g.read x = p.gram.read x

/-- Closing a frame cuts short the pixel that waits and does nothing else to the display memory. -/
theorem Panel.closeFrame_cutShort (P : Params) (p : Panel) : p.CutShort P (p.closeFrame P).gram :=
  ⟨fun hsettled => congrArg Panel.gram (closeFrame_of_settled hsettled), fun _ => closeFrame_of_awaits⟩

/-- Heard by a panel that is tracked, an instruction that returns `()` and only sends cycles has its cycles run by the panel, if
the pins hold. -/
theorem exec_run_of_listening {i : Instr} {s : State} (hpins : s.pinsHold) (hlistening : s.listening)
    (hcontrol : drivesControl i = false) (hdelay : ∀ ms, i ≠ .initDelay ms) (hunit : gives s.cfg i = .unit)
    (hdriver : callsDriver i = true → s.driver = true) :
    ∃ t, exec i s = .next t ∧ t.panel = Panel.run s.par s.free (busCycles s.par s.cfg i) s.panel := by
  obtain ⟨t, hexec, _, hpanel⟩ := (busOperation_of_cycles s hcontrol hdelay hunit hdriver).run_of_pinsHold hpins hlistening
  exact ⟨t, hexec, hpanel⟩

/-- Settles O52: the panel has run the two frames of `set_window` (`run_window`), of which only the closing of the frame before
them touches the display memory (`Panel.closeFrame_cutShort`). -/
theorem setWindowReachesThePanel : Obligations.SetWindowReachesThePanel := by
  intro x0 y0 x1 y1 s hpins hdriver hlistening hB
  obtain ⟨t, hexec, hpanel⟩ :=
    exec_run_of_listening (i := .setWindow x0 y0 x1 y1) hpins hlistening rfl nofun rfl fun _ => hdriver
  obtain ⟨_, _, _, _, hmadctl, hcolmod⟩ := Panel.closeFrame_regs s.par s.panel
  refine ⟨t, hexec, ?_⟩
  rw [hpanel, busCycles, run_window hB]
  exact ⟨rfl, rfl, rfl, rfl, hmadctl, hcolmod, Panel.closeFrame_cutShort s.par s.panel⟩

end Sys2Proof.Machine

namespace Sys2Proof

/-! ## The registers at a pixel -/

/-- The registers at the second byte of a pixel: it is counted, and no byte waits (R276). -/
def PanelRegs.paired (r : PanelRegs) : PanelRegs := { r.counted with pairHi := none }

/-- The pointer goes to the next column, or to the first one of the next row (R277). -/
theorem PanelRegs.advance_pointer (r : PanelRegs) : (r.advance.pc, r.advance.pr) =
    if r.pc < r.ec.toNat then (r.pc + 1, r.pr) else (r.sc.toNat, r.pr + 1) := by
  unfold PanelRegs.advance
  split <;> rfl

/-- The pointer goes further without a byte that waits. -/
theorem PanelRegs.advance_pairHi (r : PanelRegs) : r.advance.pairHi = r.pairHi := by
  unfold PanelRegs.advance
  split <;> rfl

end Sys2Proof

namespace Sys2Proof.Machine

/-- The word of two bytes, most significant first, as a number (R50). -/
theorem word16_toNat (hi lo : Byte) : (word16 hi lo).toNat = hi.toNat * 256 + lo.toNat := by
  rw [word16, BitVec.toNat_append, ← Nat.shiftLeft_add_eq_or_of_lt lo.isLt, Nat.shiftLeft_eq]

theorem word16_eq_ofNat (hi lo : Byte) : word16 hi lo = BitVec.ofNat 16 (hi.toNat * 256 + lo.toNat) := by
  rw [← word16_toNat, BitVec.ofNat_toNat, BitVec.setWidth_eq]

/-! ## A data byte, by the frame it stands in

The reading of frames is log entry 38, the bounds before the fourth byte log entry 22, the open frame of an unmodelled command
log entry 24, the later bytes of MADCTL, COLMOD and WRDISBV frames log entry 41. -/

/-- A byte with no frame, or with a frame that the interpretation does not model, makes everything but the open frame any value
(R275). -/
theorem Panel.data_unmodelled {P : Params} {p : Panel} (n : Nat) (b : Byte) {frame : Option Opcode}
    (hframe : P.opcodes.opcode? p.regs.frameOp = frame)
    (hunmodelled : frame = none ∨ ∃ op ∈ unmodelledOpcodes, frame = some op) :
    p.data P n b = Panel.unmodelled n p.regs.counted := by
  rw [Panel.data, hframe]
  rcases hunmodelled with rfl | ⟨op, hop, rfl⟩
  · rfl
  · cases op with
    | nop | caset | paset | ramwr | madctl | colmod | wrdisbv => exact absurd hop (by decide)
    | _ => rfl

/-- A byte of a WRDISBV or NOP frame sets nothing (R275). -/
theorem Panel.data_counted {P : Params} {p : Panel} (n : Nat) (b : Byte)
    (hframe : P.opcodes.opcode? p.regs.frameOp = some .wrdisbv ∨ P.opcodes.opcode? p.regs.frameOp = some .nop) :
    p.data P n b = ⟨p.regs.counted, p.gram⟩ := by
  rcases hframe with h | h <;> rw [Panel.data, h]

/-- One of the first three bytes of a window frame is kept (R274). -/
theorem Panel.data_window_of_lt {P : Params} {p : Panel} (n : Nat) (b : Byte)
    (hframe : P.opcodes.opcode? p.regs.frameOp = some .caset ∨ P.opcodes.opcode? p.regs.frameOp = some .paset)
    (hcount : p.regs.frameCount < 3) :
    p.data P n b = ⟨{ p.regs.counted with params := p.regs.params ++ [b] }, p.gram⟩ := by
  rcases hframe with h | h <;> rw [Panel.data, h]
  · rw [PanelRegs.columnByte, if_pos hcount]
  · rw [PanelRegs.pageByte, if_pos hcount]

/-- The bytes of a window frame beyond the fourth are ignored (R274). -/
theorem Panel.data_window_of_gt {P : Params} {p : Panel} (n : Nat) (b : Byte)
    (hframe : P.opcodes.opcode? p.regs.frameOp = some .caset ∨ P.opcodes.opcode? p.regs.frameOp = some .paset)
    (hcount : 3 < p.regs.frameCount) : p.data P n b = ⟨p.regs.counted, p.gram⟩ := by
  have hlt : ¬ p.regs.frameCount < 3 := by omega
  have hne : p.regs.frameCount ≠ 3 := by omega
  rcases hframe with h | h <;> rw [Panel.data, h]
  · rw [PanelRegs.columnByte, if_neg hlt, if_neg hne]
  · rw [PanelRegs.pageByte, if_neg hlt, if_neg hne]

section
variable {P : Params} {p : Panel} (n : Nat) (b : Byte) {p0 p1 p2 : Byte} (hcount : p.regs.frameCount = 3)
  (hparams : p.regs.params = [p0, p1, p2])
include hcount hparams

/-- The fourth byte of a column-address frame sets both column bounds (R274). -/
theorem Panel.data_caset_fourth (hframe : P.opcodes.opcode? p.regs.frameOp = some .caset) :
    p.data P n b =
      ⟨{ p.regs.counted with params := [p0, p1, p2, b], sc := word16 p0 p1, ec := word16 p2 b }, p.gram⟩ := by
  simp [Panel.data, hframe, PanelRegs.columnByte, hcount, hparams, boundsOf]

/-- The fourth byte of a page-address frame sets both row bounds (R274). -/
theorem Panel.data_paset_fourth (hframe : P.opcodes.opcode? p.regs.frameOp = some .paset) :
    p.data P n b =
      ⟨{ p.regs.counted with params := [p0, p1, p2, b], sp := word16 p0 p1, ep := word16 p2 b }, p.gram⟩ := by
  simp [Panel.data, hframe, PanelRegs.pageByte, hcount, hparams, boundsOf]

end

/-- Heard by a panel that is tracked, DATA with pins that hold is received as one data byte. -/
theorem exec_data_of_listening (b : Byte) {s : State} (hpins : s.pinsHold) (hlistening : s.listening) :
    ∃ t, exec (.data b) s = .next t ∧ t.panel = s.panel.data s.par s.free b :=
  exec_run_of_listening hpins hlistening rfl nofun rfl nofun

/-- `set_orientation` on a panel that is tracked: the orientation's byte is set, and the pixel format and the window are kept. -/
theorem exec_setOrientation_of_listening (o : Orientation) {s : State} (hpins : s.pinsHold) (hdriver : s.driver = true)
    (hlistening : s.listening) (hB : s.par.opcodes.injective = true) :
    ∃ t, exec (.setOrientation o) s = .next t ∧ t.panel.regs.madctl = orientByte o ∧
      t.panel.regs.colmod = s.panel.regs.colmod ∧ t.panel.regs.sc = s.panel.regs.sc ∧ t.panel.regs.ec = s.panel.regs.ec ∧
      t.panel.regs.sp = s.panel.regs.sp ∧ t.panel.regs.ep = s.panel.regs.ep := by
  obtain ⟨t, hexec, hpanel⟩ :=
    exec_run_of_listening (i := .setOrientation o) hpins hlistening rfl nofun rfl fun _ => hdriver
  obtain ⟨hsc, hec, hsp, hep, _, hcolmod⟩ := Panel.closeFrame_regs s.par s.panel
  refine ⟨t, hexec, ?_⟩
  rw [hpanel, busCycles, run_madctl hB]
  exact ⟨rfl, hcolmod, hsc, hec, hsp, hep⟩

/-- `set_pixel_format` on a panel that is tracked: the format's byte is set, and the orientation and the window are kept. -/
theorem exec_setPixelFormat_of_listening (f : PixelFormat) {s : State} (hpins : s.pinsHold) (hdriver : s.driver = true)
    (hlistening : s.listening) (hB : s.par.opcodes.injective = true) :
    ∃ t, exec (.setPixelFormat f) s = .next t ∧ t.panel.regs.colmod = fmtByte f ∧
      t.panel.regs.madctl = s.panel.regs.madctl ∧ t.panel.regs.sc = s.panel.regs.sc ∧ t.panel.regs.ec = s.panel.regs.ec ∧
      t.panel.regs.sp = s.panel.regs.sp ∧ t.panel.regs.ep = s.panel.regs.ep := by
  obtain ⟨t, hexec, hpanel⟩ :=
    exec_run_of_listening (i := .setPixelFormat f) hpins hlistening rfl nofun rfl fun _ => hdriver
  obtain ⟨hsc, hec, hsp, hep, hmadctl, _⟩ := Panel.closeFrame_regs s.par s.panel
  refine ⟨t, hexec, ?_⟩
  rw [hpanel, busCycles, run_colmod hB]
  exact ⟨rfl, hmadctl, hsc, hec, hsp, hep⟩

/-- Settles O53: the two settings by their frames (`exec_setOrientation_of_listening`, `exec_setPixelFormat_of_listening`);
DATA is received as one byte (`exec_data_of_listening`), which the open frame reads (the `Panel.data_` lemmas). -/
theorem settingsReachThePanel : Obligations.SettingsReachThePanel := by
  refine ⟨fun s hpins hdriver hlistening hB => ⟨fun o => exec_setOrientation_of_listening o hpins hdriver hlistening hB,
    fun f => exec_setPixelFormat_of_listening f hpins hdriver hlistening hB⟩, ?_⟩
  rintro b s _ _ hpins hlistening rfl rfl
  obtain ⟨t, hexec, hpanel⟩ := exec_data_of_listening b hpins hlistening
  refine ⟨t, hexec, ?_⟩
  rw [hpanel]
  refine ⟨fun hframe => ⟨Panel.data_window_of_lt _ b hframe, fun p0 p1 p2 hcount hparams => ?fourth,
    Panel.data_window_of_gt _ b hframe⟩, fun h => ?madctl, fun h => ?colmod, Panel.data_counted _ b, fun h => ?unmodelled⟩
  case fourth =>
    exact ⟨word16 p0 p1, word16 p2 b, word16_toNat p0 p1, word16_toNat p2 b, Panel.data_caset_fourth _ b hcount hparams,
      Panel.data_paset_fourth _ b hcount hparams⟩
  case madctl =>
    rw [Panel.data, h]
    rfl
  case colmod =>
    rw [Panel.data, h]
    rfl
  case unmodelled =>
    rw [Panel.data_unmodelled _ b rfl h]
    exact ⟨fun _ => rfl, rfl, rfl⟩

/-! ## Operations that store no pixel -/

/-- The command of a frame that the interpretation models only closes the frame before it, as far as the display memory goes. -/
theorem Panel.command_gram {P : Params} (hB : P.opcodes.injective = true) {op : Opcode} (hop : op ∉ unmodelledOpcodes)
    (n : Nat) (p : Panel) : (p.command P n (P.opcodes.byte op)).gram = (p.closeFrame P).gram := by
  rw [Panel.command, Panel.opened, OpcodeBytes.opcode?_byte hB]
  cases op with
  | nop | caset | paset | ramwr | madctl | colmod | wrdisbv => rfl
  | _ => exact absurd (by decide) hop

/-- Settles O54: each of the operations leaves the display memory that closing the open frame leaves (`Panel.command_gram` for the
commands, the `run_` lemmas for the operations with parameters), and that cuts short the pixel that waits and nothing else
(`Panel.closeFrame_cutShort`). -/
theorem settingsStoreNoPixel : Obligations.SettingsStoreNoPixel := by
  intro i s hpins hdriver hlistening hB hi
  have hrun {i : Instr} {r : PanelRegs} (hcontrol : drivesControl i = false) (hdelay : ∀ ms, i ≠ .initDelay ms)
      (hunit : gives s.cfg i = .unit)
      (h : Panel.run s.par s.free (busCycles s.par s.cfg i) s.panel = ⟨r, (s.panel.closeFrame s.par).gram⟩) :
      ∃ t, exec i s = .next t ∧ t.panel.gram = (s.panel.closeFrame s.par).gram := by
    obtain ⟨t, hexec, hpanel⟩ := exec_run_of_listening hpins hlistening hcontrol hdelay hunit fun _ => hdriver
    exact ⟨t, hexec, by rw [hpanel, h]⟩
  have hend : ∃ t, exec i s = .next t ∧ t.panel.gram = (s.panel.closeFrame s.par).gram := by
    rcases hi with hwire | ⟨x0, y0, x1, y1, rfl⟩ | ⟨f, rfl⟩ | ⟨o, rfl⟩ | ⟨l, rfl⟩
    · obtain ⟨op, hop, rfl⟩ : ∃ op ∈ [Opcode.nop, .caset, .paset, .ramwr, .madctl, .colmod, .wrdisbv], op.wire = i :=
        List.mem_map.mp hwire
      have hmodelled : ∀ op ∈ [Opcode.nop, .caset, .paset, .ramwr, .madctl, .colmod, .wrdisbv], op ∉ unmodelledOpcodes := by
        decide
      obtain ⟨t, hexec, hpanel⟩ := exec_wire_of_listening op hpins hlistening
      exact ⟨t, hexec, hpanel ▸ Panel.command_gram hB (hmodelled op hop) _ _⟩
    · exact hrun rfl nofun rfl (run_window hB _ _ x0 y0 x1 y1)
    · exact hrun rfl nofun rfl (run_colmod hB _ _ (fmtByte f))
    · exact hrun rfl nofun rfl (run_madctl hB _ _ (orientByte o))
    · exact hrun rfl nofun rfl (run_wrdisbv hB _ _ l)
  obtain ⟨t, hexec, hgram⟩ := hend
  obtain ⟨hsettled, hawaits⟩ := Panel.closeFrame_cutShort s.par s.panel
  refine ⟨t, hexec, ?_⟩
  rw [hgram]
  exact ⟨fun h a => by rw [hsettled h], hawaits⟩

/-! ## The bytes of a memory-write frame

The pairing, the row-major pointer, Wrap and Ignore are log entry 38, what the overflow mode governs log entry 23, another
format log entry 26. -/

section
variable {P : Params} {p : Panel} (n : Nat) (b : Byte) (hframe : P.opcodes.opcode? p.regs.frameOp = some .ramwr)
include hframe

/-- At a format other than 0x55 a byte makes every cell any value (R276). -/
theorem Panel.data_ramwr_otherFormat (hformat : p.regs.colmod ≠ 0x55) : (p.data P n b).gram = [] := by
  rw [Panel.data, hframe]
  exact congrArg Panel.gram (if_neg hformat)

/-- The first byte of a pixel waits (R276). -/
theorem Panel.data_ramwr_first (hformat : p.regs.colmod = 0x55) (hpair : p.regs.pairHi = none) :
    p.data P n b = ⟨{ p.regs.counted with pairHi := some b }, p.gram⟩ := by
  rw [Panel.data, hframe]
  simp only [Panel.pixelByte, if_pos hformat, hpair]

/-- The second byte of a pixel decodes it (R276). -/
theorem Panel.data_ramwr_second {h : Byte} (hformat : p.regs.colmod = 0x55) (hpair : p.regs.pairHi = some h) :
    p.data P n b = Panel.pixel P (some (word16 h b)) ⟨p.regs.paired, p.gram⟩ := by
  rw [Panel.data, hframe]
  simp only [Panel.pixelByte, if_pos hformat, hpair, PanelRegs.paired]

end

/-- A pixel falls where the pointer stood at its first byte. -/
theorem placement_paired (P : Params) (r : PanelRegs) : placement P r.paired = placement P r := rfl

section
variable {P : Params} {r : PanelRegs} {g : Memory}

/-- A pixel with a cell is written there, and the pointer goes one further (R277). -/
theorem Panel.pixel_of_cell {a : Nat} (h : placement P r = .cell a) (v : Option Pixel) :
    Panel.pixel P v ⟨r, g⟩ = ⟨r.advance, g.put a v⟩ := by
  rw [Panel.pixel, h]

/-- A pixel whose place is not determined makes every cell any value (R278, R279). -/
theorem Panel.pixel_of_undetermined (h : placement P r = .undetermined) (v : Option Pixel) :
    Panel.pixel P v ⟨r, g⟩ = ⟨r.advance, []⟩ := by
  rw [Panel.pixel, h]

/-- Beyond the window under AnyValue every cell is any value (R278). -/
theorem Panel.pixel_beyond_anyValue (h : placement P r = .beyond) (hmode : P.overflow = .anyValue) (v : Option Pixel) :
    Panel.pixel P v ⟨r, g⟩ = ⟨r.advance, []⟩ := by
  rw [Panel.pixel, h, hmode]

/-- Beyond the window under Ignore the pixel is dropped (R278). -/
theorem Panel.pixel_beyond_ignore (h : placement P r = .beyond) (hmode : P.overflow = .ignore) (v : Option Pixel) :
    Panel.pixel P v ⟨r, g⟩ = ⟨r, g⟩ := by
  rw [Panel.pixel, h, hmode]

/-- Beyond the window under Wrap the pixel is written at the window's start (R278). -/
theorem Panel.pixel_beyond_wrap (h : placement P r = .beyond) (hmode : P.overflow = .wrap) {a : Nat}
    (hstart : placement P r.restart = .cell a) (v : Option Pixel) :
    Panel.pixel P v ⟨r, g⟩ = ⟨r.restart.advance, g.put a v⟩ := by
  rw [Panel.pixel, h, hmode, hstart]

/-- Only a legal window has a beyond. -/
theorem windowLegal_of_beyond (h : placement P r = .beyond) : windowLegal r = true := by
  unfold placement at h
  split at h
  · assumption
  · cases h

/-- The start of a legal window is on a cell. -/
theorem placement_restart (P : Params) (hlegal : windowLegal r = true) :
    ∃ a, placement P r.restart = .cell a ∧ physical P r.madctl r.sc.toNat r.sp.toNat = some a := by
  obtain ⟨_, _, _, hcol, hrow, _⟩ := (windowLegal_iff r).mp hlegal
  have hinside : pointerInside r.restart = true := decide_eq_true ⟨Nat.le_refl _, hcol, Nat.le_refl _, hrow⟩
  exact placement_inside P (r := r.restart) hlegal hinside

end

/-- Settles O55: the byte decodes a pixel (`Panel.data_ramwr_second`), which is written on its cell (`Panel.pixel_of_cell`). -/
theorem dataByteStoresOnePixel : Obligations.DataByteStoresOnePixel := by
  intro b h a s hpins hlistening hframe hformat hpair hcell
  obtain ⟨t, hexec, hpanel⟩ := exec_data_of_listening b hpins hlistening
  rw [← placement_paired] at hcell
  refine ⟨t, hexec, ?_⟩
  rw [hpanel, Panel.data_ramwr_second _ b hframe hformat hpair, Panel.pixel_of_cell hcell, ← word16_eq_ofNat]
  exact ⟨Memory.read_write_same a _ _, fun x hx => Memory.read_write_other hx _ _, PanelRegs.advance_pairHi _,
    PanelRegs.advance_pointer _⟩

/-- Settles O56: what a byte does is told by the format, by whether a byte waits, by where the pixel falls and by the overflow
mode, in this order; Wrap needs the start of the window to be on a cell (`placement_restart`). -/
theorem cornersOfAMemoryWriteFrame : Obligations.CornersOfAMemoryWriteFrame := by
  intro b s hpins hlistening hframe
  obtain ⟨t, hexec, hpanel⟩ := exec_data_of_listening b hpins hlistening
  refine ⟨t, hexec, ?_⟩
  rw [hpanel]
  refine ⟨fun hformat x => ?otherFormat, fun hformat hpair => ?first, fun h hformat hpair => ?second⟩
  case otherFormat => rw [Panel.data_ramwr_otherFormat _ b hframe hformat, Memory.read_nil]
  case first =>
    rw [Panel.data_ramwr_first _ b hframe hformat hpair]
    exact ⟨rfl, rfl⟩
  case second =>
    rw [Panel.data_ramwr_second _ b hframe hformat hpair, ← placement_paired]
    refine ⟨fun hplace x => ?_, fun hplace => ⟨fun hmode x => ?_, fun hmode => ?_, fun hmode => ?_⟩⟩
    · rw [Panel.pixel_of_undetermined hplace, Memory.read_nil]
    · rw [Panel.pixel_beyond_anyValue hplace hmode, Memory.read_nil]
    · rw [Panel.pixel_beyond_ignore hplace hmode]
    · obtain ⟨a, hstart, hcell⟩ := placement_restart s.par (windowLegal_of_beyond hplace)
      refine ⟨a, hcell, ?_⟩
      rw [Panel.pixel_beyond_wrap hplace hmode hstart]
      exact ⟨Memory.read_write_same a _ _, fun x hx => Memory.read_write_other hx _ _⟩

end Sys2Proof.Machine

namespace Sys2Proof.Machine

/-! ## The step of the host's request -/

/-- Settles O1: the three cases of `step` are those of the port and of what its first request decodes to. -/
theorem stepRunsDecodedRequest : Obligations.StepRunsDecodedRequest := by
  refine ⟨fun s r rest i hport hdecodes => ?_, fun s r rest e hport hrejected => ?_, fun s hport => ?_⟩
  · have htaken : s.taken = { s with port := rest } := by rw [State.taken, hport, List.tail_cons]
    rw [step, hport]
    simp only [hdecodes, htaken]
  · rw [step, hport]
    simp only [hrejected]
  · rw [step, hport]

/-! ## Which errors an instruction can raise -/

/-- The error that a failure in a cycle raises, by its kind (60_exceptions R301). -/
def Cycle.error : Cycle → Error
  | .cmd _ => .bus .command
  | .dat _ => .bus .data

/-- An error of the bus is that of a cycle the operation sends. -/
theorem failsAt_error {e : Error} {k l : List Cycle} (h : failsAt e k l) : ∃ c ∈ l, c.error = e := by
  rcases h with ⟨rfl, _, ⟨b, rest, rfl⟩ | ⟨b, first, rfl⟩⟩ | ⟨rfl, b, rest, rfl⟩
  case inl.inl => exact ⟨.cmd b, by simp, rfl⟩
  case inl.inr hprefix => exact ⟨.cmd b, hprefix.subset (by simp), rfl⟩
  case inr => exact ⟨.dat b, by simp, rfl⟩

/-- An operation that sends frames with parameters may raise the error of every cycle. -/
theorem Cycle.error_mem (c : Cycle) : c.error ∈ [Error.bus .command, .bus .data] := by
  cases c <;> simp [Cycle.error]

/-- The table of R302 lists the error of every cycle that an operation sends. -/
theorem busCycles_error {P : Params} {cfg : Configuration} {i : Instr} {c : Cycle} (hc : c ∈ busCycles P cfg i) :
    c.error ∈ mayRaise i := by
  have hdata (bytes : List Byte) (h : c ∈ bytes.map .dat) : c.error ∈ [Error.bus .data] := by
    obtain ⟨b, _, rfl⟩ := List.mem_map.mp h
    exact List.mem_singleton_self _
  have hcommand (b : Byte) (h : c ∈ [Cycle.cmd b]) : c.error ∈ [Error.bus .command] := by
    rw [List.mem_singleton.mp h]
    exact List.mem_singleton_self _
  cases i with
  | readStatus | readData | new | assertReset | deassertReset | enable | disable | init | width | height | orientation | size
  | initDelay => cases hc
  | data b => exact hdata [b] hc
  | writeData bytes | sendData bytes => exact hdata bytes hc
  | writeData16be words => exact hdata (streamBytes words) hc
  | setWindow | writePixels | fill | setPixelFormat | setOrientation | setBrightness | drawIter | initCmd => exact c.error_mem
  | _ => exact hcommand _ hc

/-- The step of every instruction raises errors of its row of R302 only. -/
theorem body_raises (i : Instr) (s : State) : (body i s).onErr fun e _ => e ∈ mayRaise i := by
  have hbus (hcontrol : drivesControl i = false) (hdelay : ∀ ms, i ≠ .initDelay ms) :
      (body i s).onErr fun e _ => e ∈ mayRaise i := by
    have hsent := body_transfersTo s hcontrol hdelay
    cases hr : body i s with
    | ok u => trivial
    | err e u =>
      rw [hr] at hsent
      obtain ⟨k, hfails, _⟩ := hsent
      obtain ⟨c, hc, rfl⟩ := failsAt_error hfails
      exact busCycles_error hc
  cases i with
  | new k =>
    exact Res.onErr_bind (drive_onErr _ _ _ s List.mem_cons_self) fun t _ =>
      drive_onErr _ _ _ t (List.mem_cons_of_mem _ (List.mem_singleton_self _))
  | assertReset | deassertReset | enable | disable => exact drive_onErr _ _ _ s (List.mem_singleton_self _)
  | init =>
    refine Res.onErr_mono (bringUp_raises s) fun e _ he => ?_
    show e ∈ [Error.cs, .reset, .bus .command, .bus .data]
    simpa using he
  | initDelay ms => trivial
  | _ => exact hbus rfl nofun

/-- A failure of an instruction is the end of a step that failed with its error. -/
theorem body_of_exec_err {i : Instr} {s t : State} {e : Error} (h : exec i s = .next t) (hret : t.ret = .err e) :
    ∃ u, body i s = .err e u := by
  rw [eq_conclude_of_exec h] at hret
  cases hr : body i s with
  | ok u =>
    rw [hr, conclude_ok_ret] at hret
    cases hret
  | err e' u =>
    obtain ⟨d, hend⟩ := conclude_err_eq i s.cfg e' u
    rw [hr, hend] at hret
    cases hret
    exact ⟨u, rfl⟩

/-- Settles O19: the error is the one the step raised, which `body_raises` places in the table. -/
theorem errorsByOperation : Obligations.ErrorsByOperation := by
  intro i s t e h hret
  have hraises := body_raises i s
  obtain ⟨u, hr⟩ := body_of_exec_err h hret
  rw [hr] at hraises
  exact hraises

end Sys2Proof.Machine
